-- ==== Sys2Proof/Word.lean ====
section
/-! DEFINITION. The data widths of the machine (spec/00_scope.md R7): byte, halfword, word. -/

namespace Sys2Proof

/-- A register, an address, an instruction: 32 bits (R7, `XLEN` and `ILEN`). -/
abbrev Word := BitVec 32

/-- The unit of addressing: 8 bits (R7, R50). -/
abbrev Byte := BitVec 8

/-- A halfword, and the 16-bit immediate field: 16 bits (R7, `IMM`). -/
abbrev Half := BitVec 16

end Sys2Proof
end

