-- ==== Sys2Proof/Config.lean ====
section
/-! DEFINITION. The parameters of spec/00_scope.md R8, as plain data with the spec's defaults, and the
free values: constants without a body, of which nothing can be proved (R14, `draw`). -/

namespace Sys2Proof

/-- `ENDIAN` (R8, R53): the byte order of halfword and word accesses and of fetch. -/
inductive Endian where
  | little
  | big
  deriving DecidableEq, Repr

/-- `TRAP_MODEL` (R8): `fault`, an exception ends the run (R231); `r3000`, the mechanism of R246 to R255. -/
inductive TrapModel where
  | fault
  | r3000
  deriving DecidableEq, Repr

/-- `SMC` (R8, R63, R67): what a store into the program text does. -/
inductive Smc where
  | refuse
  | coherent
  deriving DecidableEq, Repr

/-- A range of byte addresses: `base`, `base + 1`, ..., `base + size - 1`. -/
structure Region where
  base : Nat
  size : Nat
  deriving DecidableEq, Repr

/-- The parameters of R8. `Allocated` is the images, the stack and the ranges of `extra` (log 8).
The last two are the MODEL's own (DESIGN CHOICE): they matter only in user mode of `TRAP_MODEL = r3000`, where two places
of the spec say different things. `reReverses`: `Status.RE` reverses the byte order, as R247 has it; false: no register
selects it, as R53 has it (log 14). `guardKernel`: a kernel address is an address error, as R251 has it; false: every
address is used as is, as R61 and R62 have it (log 15). -/
structure Params where
  endian : Endian
  textBase : Word
  dataBase : Word
  externBase : Word
  stackTop : Word
  ktextBase : Word
  kdataBase : Word
  entry : Word
  extra : List Region
  stackSize : Nat
  trapModel : TrapModel
  smc : Smc
  reReverses : Bool
  guardKernel : Bool
  deriving DecidableEq, Repr

/-- The default of every parameter, as the table of R8 gives it; of the last two, what R53, R61 and R62 say
(logs 14, 15). -/
def Params.default : Params where
  endian := .little
  textBase := 0x00400000
  dataBase := 0x10010000
  externBase := 0x10000000
  stackTop := 0x7FFFEFFC
  ktextBase := 0x80000000
  kdataBase := 0x90000000
  entry := 0x00400000
  extra := []
  stackSize := 0x00100000
  trapModel := .fault
  smc := .refuse
  reReverses := false
  guardKernel := false

namespace Config

/-- The value of the `n`-th `draw(32)` of a run (R14): any word. Free value (log 5). -/
opaque draw : Nat → Word

/-- The value an allocated byte holds at launch where no image covers it (R35, U4): any byte, fixed
per address. Free value (log 3). -/
opaque launchByte : Word → Byte

end Config

end Sys2Proof
end

