-- ==== Sys2Proof/Machine/Flags.lean ====
section
/-! DEFINITION. The machine has no flags (spec/10_state.md R29). What other machines put in flags is here: signed
overflow (spec/42_arithmetic.md R160), the comparisons (spec/43_logical_shift_compare.md R194 to R197) and the signs
that branches test (spec/41_branch_jump.md R141). -/

namespace Sys2Proof.Machine

/-- Signed overflow of `a + b`: the operands' signs agree and the sum's differs (R160). -/
def addOverflows (a b : Word) : Bool := a.msb == b.msb && (a + b).msb != a.msb

/-- Signed overflow of `a - b`: the operands' signs differ and the difference's is not the minuend's (R160). -/
def subOverflows (a b : Word) : Bool := a.msb != b.msb && (a - b).msb != a.msb

/-- The 32-bit value 1 or 0 of a condition (R194). -/
def boolWord (b : Bool) : Word := if b then 1 else 0

/-- `signed(a) < signed(b)` (R194). -/
def lessSigned (a b : Word) : Bool := a.toInt < b.toInt

/-- `unsigned(a) < unsigned(b)` (R195). -/
def lessUnsigned (a b : Word) : Bool := a.toNat < b.toNat

/-- `signed(v) >= 0` (R141). -/
def geZero (v : Word) : Bool := !v.msb

/-- `signed(v) < 0` (R141). -/
def ltZero (v : Word) : Bool := v.msb

/-- `signed(v) > 0` (R141). -/
def gtZero (v : Word) : Bool := !v.msb && v != 0

/-- `signed(v) <= 0` (R141). -/
def leZero (v : Word) : Bool := v.msb || v == 0

end Sys2Proof.Machine
end

