-- ==== Sys2Proof/Machine/Bytes.lean ====
section
/-! DEFINITION. Byte order (spec/20_memory.md R53): the number that a run of bytes holds, and the bytes that
hold a number, lowest address first. -/

namespace Sys2Proof.Machine

/-- The number held by bytes whose least significant one comes first. -/
def littleValue : List Byte → Nat
  | [] => 0
  | b :: bs => b.toNat + 256 * littleValue bs

/-- The number held by the bytes at rising addresses in a byte order (R53). -/
def valueOf (e : Endian) (bs : List Byte) : Nat :=
  match e with
  | .little => littleValue bs
  | .big => littleValue bs.reverse

/-- The `n` bytes of a number, least significant first. -/
def littleBytes : Nat → Nat → List Byte
  | 0, _ => []
  | n + 1, v => BitVec.ofNat 8 v :: littleBytes n (v / 256)

/-- The `n` bytes that hold a number at rising addresses in a byte order (R53). -/
def bytesOf (e : Endian) (n v : Nat) : List Byte :=
  match e with
  | .little => littleBytes n v
  | .big => (littleBytes n v).reverse

/-- The other byte order. -/
def flipEndian : Endian → Endian
  | .little => .big
  | .big => .little

end Sys2Proof.Machine
end

