-- ==== Sys2Proof/Machine/Operands.lean ====
section
/-! DEFINITION. Operand forms (spec/30_encoding.md R91 to R94, spec/20_memory.md R57, spec/00_scope.md R11): how
an immediate is widened, where an access, a branch and a jump go, how a shift amount is read. -/

namespace Sys2Proof.Machine

/-- `sext_32` (R11). -/
def sext {n : Nat} (v : BitVec n) : Word := v.signExtend 32

/-- `zext_32` (R11). -/
def zext {n : Nat} (v : BitVec n) : Word := v.setWidth 32

/-- `lui`: the immediate above sixteen zeros, `imm ++ 0x0000` (R91, R125). -/
def upperImm (imm : Half) : Word := imm ++ 0#16

/-- The effective address `x[rs] + sext_32(imm)`, modulo 2^32 (R57). -/
def effAddr (base : Word) (imm : Half) : Word := base + sext imm

/-- The address of the instruction after the one at `pc`, modulo 2^32 (R26). It is also the link value (R157). -/
def nextPc (pc : Word) : Word := pc + 4

/-- The target of a conditional branch at `pc` (R92, R141). -/
def branchTarget (pc : Word) (imm : Half) : Word := nextPc pc + (sext imm <<< 2)

/-- The target of `j` and `jal` at `pc` (R93): the region of `pc + 4`, the field, two zeros. -/
def jumpTarget (pc : Word) (addr26 : BitVec 26) : Word :=
  (nextPc pc).extractLsb' 28 4 ++ addr26 ++ 0#2

/-- The amount of a variable shift: the five low bits of the register (R94). -/
def shiftAmount (v : Word) : Nat := (v.extractLsb' 0 5).toNat

end Sys2Proof.Machine
end

