-- ==== Sys2Proof/Syntax.lean ====
section
/-! DEFINITION. The instructions: one constructor for each row of spec/opcode_table.json, its operands in
the order of the "Syntaxe Assembleur" column (spec/30_encoding.md R90). -/

namespace Sys2Proof

/-- The number of a general register, 0 to 31 (R20). -/
abbrev Reg := Fin 32

/-- The instruction set: the 52 instructions of the source's tables, with `syscall`, `break` and `rfe` (R4, R5).
`break` is spelled `brk`. The one-operand `jalr Rs` is `jalr 31 rs` (R154). A shift amount is a count;
`Instr.wf` bounds it (R94). -/
inductive Instr where
  -- transfers (R121 to R133)
  | mfhi (rd : Reg)
  | mflo (rd : Reg)
  | mthi (rs : Reg)
  | mtlo (rs : Reg)
  | lui (rt : Reg) (imm : Half)
  | lw (rt : Reg) (imm : Half) (rs : Reg)
  | sw (rt : Reg) (imm : Half) (rs : Reg)
  | lh (rt : Reg) (imm : Half) (rs : Reg)
  | lhu (rt : Reg) (imm : Half) (rs : Reg)
  | sh (rt : Reg) (imm : Half) (rs : Reg)
  | lb (rt : Reg) (imm : Half) (rs : Reg)
  | lbu (rt : Reg) (imm : Half) (rs : Reg)
  | sb (rt : Reg) (imm : Half) (rs : Reg)
  -- branches and jumps (R142 to R154)
  | beq (rs rt : Reg) (imm : Half)
  | bne (rs rt : Reg) (imm : Half)
  | bgez (rs : Reg) (imm : Half)
  | bgtz (rs : Reg) (imm : Half)
  | blez (rs : Reg) (imm : Half)
  | bltz (rs : Reg) (imm : Half)
  | bgezal (rs : Reg) (imm : Half)
  | bltzal (rs : Reg) (imm : Half)
  | j (addr26 : BitVec 26)
  | jal (addr26 : BitVec 26)
  | jr (rs : Reg)
  | jalr (rd rs : Reg)
  -- arithmetic (R161 to R170)
  | add (rd rs rt : Reg)
  | sub (rd rs rt : Reg)
  | addu (rd rs rt : Reg)
  | subu (rd rs rt : Reg)
  | addi (rt rs : Reg) (imm : Half)
  | addiu (rt rs : Reg) (imm : Half)
  | mult (rs rt : Reg)
  | multu (rs rt : Reg)
  | div (rs rt : Reg)
  | divu (rs rt : Reg)
  -- logical, shift and compare (R181 to R197)
  | or (rd rs rt : Reg)
  | and (rd rs rt : Reg)
  | xor (rd rs rt : Reg)
  | nor (rd rs rt : Reg)
  | ori (rt rs : Reg) (imm : Half)
  | andi (rt rs : Reg) (imm : Half)
  | xori (rt rs : Reg) (imm : Half)
  | sllv (rd rt rs : Reg)
  | srlv (rd rt rs : Reg)
  | srav (rd rt rs : Reg)
  | sll (rd rt : Reg) (shamt : Nat)
  | srl (rd rt : Reg) (shamt : Nat)
  | sra (rd rt : Reg) (shamt : Nat)
  | slt (rd rs rt : Reg)
  | sltu (rd rs rt : Reg)
  | slti (rt rs : Reg) (imm : Half)
  | sltiu (rt rs : Reg) (imm : Half)
  -- system (R210, R219, R220)
  | syscall
  | brk
  | rfe
  deriving DecidableEq, Repr

/-- The two coprocessor 0 moves of R246. They are no rows of the opcode table and no constructors of
`Instr`: only `TRAP_MODEL = r3000` knows them (R221, log 9). -/
inductive Cp0Move where
  | mfc0 (rt rd : Reg)
  | mtc0 (rt rd : Reg)
  deriving DecidableEq, Repr

end Sys2Proof
end

