-- ==== Sys2Proof/Machine/State.lean ====
section
/-! DEFINITION. The state of the machine (spec/10_state.md R20 to R35), the reasons a step ends the run
(spec/60_exceptions.md R231, R232), and the state after reset. -/

namespace Sys2Proof.Machine

/-- Memory: the bytes something has written, by address (R32). An address that is not listed holds its launch
value, `Config.launchByte` (R35, log 3). -/
abbrev Memory := List Host.Cell

/-- The canonical form of memory: addresses strictly rising, each in the 32-bit space (R50). Reading an
unlisted address finds no entry, so no entry equals what an unlisted address reads as. -/
abbrev Memory.wf (m : Memory) : Prop :=
  m.Pairwise (fun c d => c.1 < d.1) ∧ ∀ c ∈ m, c.1 < 2 ^ 32

/-- The events of `out` (R211). -/
inductive Event where
  | printInt (v : Word)
  | printString (bs : List Byte)
  | readInt (v : Word)
  | readString (addr : Word) (n : Nat) (bs : List Byte)
  | exit
  deriving DecidableEq, Repr

/-- The exception causes: the thirteen of R232 with the information each records, and the two that only
`TRAP_MODEL = r3000` knows (R251). Each is raised as R232 says; with `TRAP_MODEL = fault` each ends the run, which is
safe: the model gives the program no meaning (D7). -/
inductive Exc where
  /-- Every step, at fetch: `pc[1:0] != 0` (R58); with `guardKernel` also a kernel address in user
  mode (log 15). Safe. -/
  | addressErrorFetch (pc : Word)
  /-- Every step, at fetch: a byte of `pc..pc+3` is not allocated (R58). Safe. -/
  | busErrorFetch (pc : Word)
  /-- Every step, at fetch: `SMC = refuse` and `pc..pc+3` not inside the text image (R58). Safe. -/
  | fetchOutsideText (pc : Word)
  /-- Decoding: the word selects no instruction or has a non-zero unused field (R96). Safe. -/
  | reservedInstruction (w : Word)
  /-- `rfe` with `TRAP_MODEL = fault` (R220); under r3000 a coprocessor 0 instruction not usable (R246). Safe. -/
  | coprocessorUnusable (n : Nat)
  /-- `break`, always (R219). Safe. -/
  | breakpoint
  /-- `syscall` with a code other than 1, 4, 5, 8, 10 (R217). Safe. -/
  | unknownService (code : Word)
  /-- `add`, `sub`, `addi`: signed result out of range (R160). Safe. -/
  | overflow
  /-- `lw`, `lh`, `lhu`: misaligned effective address (R55); with `guardKernel` also any load from a kernel
  address in user mode (log 15). Safe. -/
  | addressErrorLoad (addr : Word)
  /-- `sw`, `sh`: misaligned effective address (R55); with `guardKernel` also any store to a kernel address
  in user mode (log 15). Safe. -/
  | addressErrorStore (addr : Word)
  /-- Loads and service 4: a byte read is not allocated (R56, R213). Safe. -/
  | busErrorLoad (addr : Word)
  /-- Stores and service 8: a byte written is not allocated (R56, R215). Safe. -/
  | busErrorStore (addr : Word)
  /-- Stores and service 8: `SMC = refuse` and a byte written lies in the text image (R63). Safe. -/
  | storeToText (addr : Word)
  /-- `syscall` with `TRAP_MODEL = r3000`: ExcCode 8 (R251, log 10). Never a fault. -/
  | sys
  /-- An interrupt, only with `TRAP_MODEL = r3000`: ExcCode 0 (R251, R253). Never a fault. -/
  | interrupt
  deriving DecidableEq, Repr

/-- What ends a run without a final state. -/
inductive Fault where
  /-- `faulted(E, info, pc)` (R231): the cause with its information, and the address of the instruction being
  fetched or executed. Raised by `raise`. Safe: it errs toward unprovable (D7). -/
  | raised (e : Exc) (pc : Word)
  /-- Service 4 on a string at `addr` with no terminator in the whole address space: R213 then defines no `k`.
  Raised by the service. Safe (log 20). -/
  | endlessString (addr pc : Word)
  deriving DecidableEq, Repr

/-- Why the model gives a step no meaning. -/
inductive Refusal where
  /-- An instruction without a meaning; raised by `exec`'s arms only. Safe. -/
  | notModelled (mnemonic : String)
  /-- A step asked of a run that is over: "no further step is taken" (R216), "a faulted state takes no further step"
  (R231). Raised by `step`. Safe (log 7). -/
  | runOver
  deriving DecidableEq, Repr

/-- `status` (R33). -/
inductive Status where
  | running
  | exited
  | faulted (f : Fault)
  deriving DecidableEq, Repr

/-- The coprocessor 0 registers of R246 to R249: `Status` (12), `Cause` (13), `EPC` (14), `BadVAddr` (8). The
default model does not use them (R30). The hardware interrupt bits of `Cause` are kept in `State.irq`. -/
structure Cp0 where
  sr : Word
  cause : Word
  epc : Word
  badVAddr : Word
  deriving DecidableEq, Repr

/-- The whole state (R35): the tuple (`x`, `HI`, `LO`, `pc`, memory, `out`, `in`, `status`), the images that R56,
R58 and R63 speak of, the parameters of R8, the registers of the optional trap mechanism (R246), and the model's
own counter of draws (log 5). `in` is `input`: the answers the environment has ready (log 6). -/
structure State where
  params : Params
  gpr : Vector Word 32
  hi : Word
  lo : Word
  pc : Word
  mem : Memory
  text : List Region
  data : List Region
  out : List Event
  input : List Word
  status : Status
  draws : Nat
  cp0 : Cp0
  irq : BitVec 6
  deriving DecidableEq, Repr

/-- The three outcomes of a step on this machine. -/
abbrev Outcome := Host.Outcome State Fault Refusal

/-- Registers at reset: `x[29] = STACK_TOP` (R35); the others, which R35 leaves unspecified, zero
(DESIGN CHOICE, log 2). -/
def resetRegs (p : Params) : Vector Word 32 := (Vector.replicate 32 0#32).set 29 p.stackTop

/-- Coprocessor 0 at reset and at launch: `BEV = 1`, `KUc = 0`, `IEc = 0`, which R247 and R255 give for a hardware reset;
that a launch has them too, for which R260 gives no mode, and zero for what is undefined there, is a DESIGN CHOICE
(log 19). -/
def resetCp0 : Cp0 where
  sr := 0x00400000
  cause := 0
  epc := 0
  badVAddr := 0

/-- The launch state of R35 with the default parameters and no program loaded (log 4). -/
def State.reset : State where
  params := Params.default
  gpr := resetRegs Params.default
  hi := 0
  lo := 0
  pc := Params.default.entry
  mem := []
  text := []
  data := []
  out := []
  input := []
  status := .running
  draws := 0
  cp0 := resetCp0
  irq := 0

end Sys2Proof.Machine
end

