-- ==== Sys2Proof/Machine/Ops.lean ====
section
/-! DEFINITION. The operations every meaning is made of: registers, memory with its checks, draws, taking an exception
and returning from one, and the shapes that instructions of one family share. -/

namespace Sys2Proof.Machine

/-! ### Registers (R12, R21, R25, R28) -/

/-- `x[r]`: register 0 reads zero (R21). -/
def State.reg (s : State) (r : Reg) : Word := if r = 0 then 0 else s.gpr[r.val]

/-- `x[r] <- v`: a write to register 0 has no effect (R21). -/
def State.setReg (s : State) (r : Reg) (v : Word) : State :=
  { s with gpr := if r = 0 then s.gpr else s.gpr.set r.val v }

def State.setPc (s : State) (v : Word) : State := { s with pc := v }

/-- `pc <- pc + 4` (R26). -/
def State.advance (s : State) : State := s.setPc (nextPc s.pc)

def State.setHi (s : State) (v : Word) : State := { s with hi := v }

def State.setLo (s : State) (v : Word) : State := { s with lo := v }

/-! ### Memory: one byte (R32, R50) -/

/-- The byte last written at an address, if any. -/
def memGet : Memory → Nat → Option Byte
  | [], _ => none
  | (k, b) :: m, a => if k = a then some b else memGet m a

/-- Memory with a byte written, in canonical form. -/
def memSet : Memory → Nat → Byte → Memory
  | [], a, b => [(a, b)]
  | (k, c) :: m, a, b =>
    if a < k then (a, b) :: (k, c) :: m
    else if a = k then (a, b) :: m
    else (k, c) :: memSet m a b

/-- The byte at an address: the last one written, or its launch value (R64, R35). -/
def State.byteAt (s : State) (a : Word) : Byte := (memGet s.mem a.toNat).getD (Config.launchByte a)

def State.setByte (s : State) (a : Word) (b : Byte) : State := { s with mem := memSet s.mem a.toNat b }

/-! ### Memory: runs of bytes; addresses wrap modulo 2^32 (R50, R70, R213) -/

def State.bytesAt (s : State) (a : Word) : Nat → List Byte
  | 0 => []
  | n + 1 => s.byteAt a :: s.bytesAt (a + 1) n

def State.setBytes (s : State) (a : Word) : List Byte → State
  | [] => s
  | b :: bs => (s.setByte a b).setBytes (a + 1) bs

/-- Whether an address is one of the `n` from `a` up, modulo 2^32. -/
def inRun (a : Word) (n : Nat) (x : Word) : Bool := (x - a).toNat < n

/-- The first of the `n` addresses from `a` up that has a property. -/
def firstInRun (p : Word → Bool) (a : Word) : Nat → Option Word
  | 0 => none
  | n + 1 => if p a then some a else firstInRun p (a + 1) n

def allInRun (p : Word → Bool) (a : Word) : Nat → Bool
  | 0 => true
  | n + 1 => p a && allInRun p (a + 1) n

/-! ### Which addresses exist, and which hold the program (R56, R58, R61) -/

def regionHolds (r : Region) (a : Word) : Bool := r.base ≤ a.toNat && a.toNat < r.base + r.size

/-- The stack: `STACK_SIZE` bytes ending at `STACK_TOP + 3` (R8, R261). -/
def stackRegion (p : Params) : Region where
  base := p.stackTop.toNat + 4 - p.stackSize
  size := min p.stackSize (p.stackTop.toNat + 4)

/-- A byte of the loaded text image (R58, R63). -/
def State.inText (s : State) (a : Word) : Bool := s.text.any (regionHolds · a)

/-- `Allocated(a)` (R8, R56, R261): the images, the stack, the further ranges. -/
def State.allocated (s : State) (a : Word) : Bool :=
  s.inText a || s.data.any (regionHolds · a) || regionHolds (stackRegion s.params) a
    || s.params.extra.any (regionHolds · a)

/-! ### Modes of the optional trap mechanism (R246, R247) -/

/-- User mode: `KUc = 1`. The default model has one mode and no mode bit (R240). -/
def State.userMode (s : State) : Bool := s.params.trapModel = .r3000 && s.cp0.sr.getLsbD 1

/-- Kernel addresses are out of reach: in user mode, with the reading of R251 (log 15). Otherwise every address is used
as is, whatever segment it lies in (R61, R62); always so in the default model. -/
def State.guarded (s : State) : Bool := s.userMode && s.params.guardKernel

/-- An address above the user half that is out of reach (R251; log 15). -/
def State.kernelOnly (s : State) (a : Word) : Bool := s.guarded && a.msb

/-- The byte order is reversed: in user mode with `Status.RE = 1`, with the reading of R247 (log 14). Otherwise no
register selects the order (R53); always so in the default model. -/
def State.reversed (s : State) : Bool := s.userMode && s.params.reReverses && s.cp0.sr.getLsbD 25

/-- The byte order in force: `ENDIAN` (R53), unless it is `reversed`. -/
def State.order (s : State) : Endian := if s.reversed then flipEndian s.params.endian else s.params.endian

/-- `MemRead` without its checks: the number held by `n` bytes (R13, R53). -/
def State.readNum (s : State) (a : Word) (n : Nat) : Nat := valueOf s.order (s.bytesAt a n)

/-- `MemWrite` without its checks: the `n` bytes of a number (R13, R53). -/
def State.writeNum (s : State) (a : Word) (n v : Nat) : State := s.setBytes a (bytesOf s.order n v)

/-! ### Checks of an access, in the order of R233 -/

/-- `addr` is a multiple of the access's size (R55). -/
def aligned (a : Word) (n : Nat) : Bool := a.toNat % n = 0

/-- What a load of `n` bytes at `a` raises (R55, R56). -/
def State.loadExc (s : State) (a : Word) (n : Nat) : Option Exc :=
  if !aligned a n || s.kernelOnly a then some (.addressErrorLoad a)
  else if !allInRun s.allocated a n then some (.busErrorLoad a)
  else none

/-- What a store of `n` bytes at `a` raises (R55, R56, R63). -/
def State.storeExc (s : State) (a : Word) (n : Nat) : Option Exc :=
  if !aligned a n || s.kernelOnly a then some (.addressErrorStore a)
  else if !allInRun s.allocated a n then some (.busErrorStore a)
  else if s.params.smc = .refuse && (firstInRun s.inText a n).isSome then some (.storeToText a)
  else none

/-- What the fetch at `pc` raises (R58). -/
def State.fetchExc (s : State) : Option Exc :=
  if !aligned s.pc 4 || s.kernelOnly s.pc then some (.addressErrorFetch s.pc)
  else if !allInRun s.allocated s.pc 4 then some (.busErrorFetch s.pc)
  else if s.params.smc = .refuse && !allInRun s.inText s.pc 4 then some (.fetchOutsideText s.pc)
  else none

/-- The word fetched (R58): the four bytes at `pc`, in the byte order of data accesses. -/
def State.fetched (s : State) : Word := BitVec.ofNat 32 (s.readNum s.pc 4)

/-! ### Draws (R14, R33) -/

/-- A value that no rule constrains: the next free value of the run (log 5). -/
def State.drawn (s : State) : Word := Config.draw s.draws

def State.skipDraws (s : State) (n : Nat) : State := { s with draws := s.draws + n }

/-- The environment's next answer: one it has ready, or any value (R33, R211; log 6). -/
def State.answer (s : State) : Word := s.input.headD s.drawn

/-- The state once the answer is taken. -/
def State.answered (s : State) : State :=
  match s.input with
  | [] => s.skipDraws 1
  | _ :: rest => { s with input := rest }

/-- `n` answers of one byte each, and the state once they are taken (R215). -/
def State.answerBytes (s : State) : Nat → List Byte × State
  | 0 => ([], s)
  | n + 1 => (s.answer.setWidth 8 :: (s.answered.answerBytes n).1, (s.answered.answerBytes n).2)

def State.emit (s : State) (e : Event) : State := { s with out := s.out ++ [e] }

/-! ### Taking an exception, and the return from one -/

/-- `ExcCode` (R251). The four causes of the model's own have none (log 11). -/
def excCode : Exc → Option (BitVec 5)
  | .interrupt => some 0
  | .addressErrorFetch _ => some 4
  | .addressErrorLoad _ => some 4
  | .addressErrorStore _ => some 5
  | .busErrorFetch _ => some 6
  | .busErrorLoad _ => some 7
  | .sys => some 8
  | .breakpoint => some 9
  | .reservedInstruction _ => some 10
  | .coprocessorUnusable _ => some 11
  | .overflow => some 12
  | .busErrorStore _ => none
  | .fetchOutsideText _ => none
  | .storeToText _ => none
  | .unknownService _ => none

/-- The offending address of an address error, for `BadVAddr` (R249, R252: codes 4 and 5). -/
def excBadAddr : Exc → Option Word
  | .addressErrorFetch a => some a
  | .addressErrorLoad a => some a
  | .addressErrorStore a => some a
  | _ => none

/-- `Cause.CE`: the coprocessor number of a Coprocessor Unusable exception (R248); on any other exception a free
value (log 12). -/
def State.causeCE (s : State) : Exc → BitVec 2
  | .coprocessorUnusable n => BitVec.ofNat 2 n
  | _ => s.drawn.setWidth 2

/-- How many draws `causeCE` takes. -/
def causeDraws : Exc → Nat
  | .coprocessorUnusable _ => 0
  | _ => 1

/-- `Cause` after an entry (R248, R252): `BD = 0` (no delay slots), `CE`, the software interrupt bits as they were,
`ExcCode`; the hardware interrupt bits are not stored here (`State.causeView`). -/
def causeWord (ce : BitVec 2) (softIP : BitVec 2) (code : BitVec 5) : Word :=
  0#2 ++ ce ++ 0#18 ++ softIP ++ 0#1 ++ code ++ 0#2

/-- The mode stack pushed (R252): bits 5:4 <- 3:2, bits 3:2 <- 1:0, bits 1:0 <- 00. -/
def pushMode (sr : Word) : Word := sr.extractLsb' 6 26 ++ sr.extractLsb' 0 4 ++ 0#2

/-- The mode stack popped (R254): bits 1:0 <- 3:2, bits 3:2 <- 5:4, bits 5:4 unchanged. -/
def popMode (sr : Word) : Word := sr.extractLsb' 4 28 ++ sr.extractLsb' 2 4

/-- The general exception vector (R252): by `BEV`, bit 22 of `Status`. -/
def State.trapVector (s : State) : Word := if s.cp0.sr.getLsbD 22 then 0xBFC00180 else 0x80000080

/-- Trap entry (R252), shared by every exception of `TRAP_MODEL = r3000`. -/
def State.enterTrap (s : State) (e : Exc) (code : BitVec 5) : State :=
  { s with
    pc := s.trapVector
    draws := s.draws + causeDraws e
    cp0 := {
      sr := pushMode s.cp0.sr
      cause := causeWord (s.causeCE e) (s.cp0.cause.extractLsb' 8 2) code
      epc := s.pc
      badVAddr := (excBadAddr e).getD s.cp0.badVAddr } }

/-- `raise E(info)` (R14, R231): with `TRAP_MODEL = fault` the run ends in `faulted(E, info, pc)`; with r3000 the trap
of R252 is entered, unless the cause has no `ExcCode` (log 11). -/
def raise (e : Exc) (s : State) : Outcome :=
  match s.params.trapModel, excCode e with
  | .r3000, some code => .next (s.enterTrap e code)
  | .r3000, none => .fault (.raised e s.pc)
  | .fault, _ => .fault (.raised e s.pc)

/-- The return from an exception (R254): the mode stack is popped; `pc` is not changed by it. -/
def State.leaveTrap (s : State) : State := { s with cp0 := { s.cp0 with sr := popMode s.cp0.sr } }

/-- Coprocessor 0 is usable in kernel mode, or with `Status.CU0 = 1` (R246). -/
def State.cp0Usable (s : State) : Bool := !s.cp0.sr.getLsbD 1 || s.cp0.sr.getLsbD 28

/-- `Cause` as software reads it: bits 15:10 mirror the six hardware interrupt inputs (R248). -/
def State.causeView (s : State) : Word :=
  s.cp0.cause.extractLsb' 16 16 ++ s.irq ++ s.cp0.cause.extractLsb' 0 10

/-- An interrupt is due (R253): `Status.IEc = 1` and `(Cause.IP & Status.IM) != 0`. -/
def State.interruptDue (s : State) : Bool :=
  s.params.trapModel = .r3000 && s.cp0.sr.getLsbD 0
    && (s.causeView.extractLsb' 8 8 &&& s.cp0.sr.extractLsb' 8 8) != 0#8

/-! ### Shapes of instructions -/

/-- `x[r] <- v; pc <- pc + 4` (R120). -/
def finish (r : Reg) (v : Word) (s : State) : Outcome := .next (s.setReg r v).advance

/-- `HI <- h; LO <- l; pc <- pc + 4`. -/
def finishHiLo (h l : Word) (s : State) : Outcome := .next ((s.setHi h).setLo l).advance

/-- `add`, `sub`, `addi`: `Overflow`, or the result (R160). -/
def finishUnless (overflows : Bool) (r : Reg) (v : Word) (s : State) : Outcome :=
  if overflows then raise .overflow s else finish r v s

/-- A load of `n` bytes at `a` into `r`, widened (R59). -/
def load (r : Reg) (a : Word) (n : Nat) (widen : Nat → Word) (s : State) : Outcome :=
  match s.loadExc a n with
  | some e => raise e s
  | none => finish r (widen (s.readNum a n)) s

/-- A store of the low `n` bytes of a word at `a` (R59). -/
def store (a : Word) (n : Nat) (v : Word) (s : State) : Outcome :=
  match s.storeExc a n with
  | some e => raise e s
  | none => .next (s.writeNum a n v.toNat).advance

/-- A conditional branch (R141): to the target if the condition holds, else to `pc + 4`. -/
def branch (taken : Bool) (imm : Half) (s : State) : Outcome :=
  .next (s.setPc (if taken then branchTarget s.pc imm else nextPc s.pc))

/-- A conditional branch that links in every case (R148); the condition was read before the link is written (R157). -/
def branchLink (taken : Bool) (imm : Half) (s : State) : Outcome :=
  branch taken imm (s.setReg 31 (nextPc s.pc))

end Sys2Proof.Machine
end

