-- ==== Sys2Proof/Machine/Arith.lean ====
section
/-! DEFINITION. Arithmetic (spec/42_arithmetic.md R160 to R172). -/

namespace Sys2Proof.Machine

/-- R161. -/
def execAdd (rd rs rt : Reg) (s : State) : Outcome :=
  finishUnless (addOverflows (s.reg rs) (s.reg rt)) rd (s.reg rs + s.reg rt) s

/-- R162. -/
def execSub (rd rs rt : Reg) (s : State) : Outcome :=
  finishUnless (subOverflows (s.reg rs) (s.reg rt)) rd (s.reg rs - s.reg rt) s

/-- R163. -/
def execAddu (rd rs rt : Reg) (s : State) : Outcome := finish rd (s.reg rs + s.reg rt) s

/-- R164. -/
def execSubu (rd rs rt : Reg) (s : State) : Outcome := finish rd (s.reg rs - s.reg rt) s

/-- R165. -/
def execAddi (rt rs : Reg) (imm : Half) (s : State) : Outcome :=
  finishUnless (addOverflows (s.reg rs) (sext imm)) rt (s.reg rs + sext imm) s

/-- R166: the immediate is sign-extended (90_conflicts.md C4). -/
def execAddiu (rt rs : Reg) (imm : Half) (s : State) : Outcome := finish rt (s.reg rs + sext imm) s

/-- The two halves of a 64-bit product into `HI` and `LO` (R167). -/
def finishProduct (p : BitVec 64) (s : State) : Outcome :=
  finishHiLo (p.extractLsb' 32 32) (p.extractLsb' 0 32) s

/-- R167: the exact signed product, taken as a 64-bit two's-complement value. -/
def execMult (rs rt : Reg) (s : State) : Outcome :=
  finishProduct (BitVec.ofInt 64 ((s.reg rs).toInt * (s.reg rt).toInt)) s

/-- R168: the exact unsigned product. -/
def execMultu (rs rt : Reg) (s : State) : Outcome :=
  finishProduct (BitVec.ofNat 64 ((s.reg rs).toNat * (s.reg rt).toNat)) s

/-- A division without a defined result: `HI` and `LO` each take a free value, independently (R169, U1, U2). -/
def finishUndefinedDiv (s : State) : Outcome :=
  finishHiLo s.drawn (s.skipDraws 1).drawn (s.skipDraws 2)

/-- R169: the quotient is rounded toward zero, and the remainder is what it leaves. -/
def execDiv (rs rt : Reg) (s : State) : Outcome :=
  let a := (s.reg rs).toInt
  let b := (s.reg rt).toInt
  if b = 0 ∨ (a = -2 ^ 31 ∧ b = -1) then finishUndefinedDiv s
  else finishHiLo (BitVec.ofInt 32 (a - Int.tdiv a b * b)) (BitVec.ofInt 32 (Int.tdiv a b)) s

/-- R170. -/
def execDivu (rs rt : Reg) (s : State) : Outcome :=
  let a := (s.reg rs).toNat
  let b := (s.reg rt).toNat
  if b = 0 then finishUndefinedDiv s
  else finishHiLo (BitVec.ofNat 32 (a % b)) (BitVec.ofNat 32 (a / b)) s

end Sys2Proof.Machine
end

