-- ==== Sys2Proof/Machine/Branch.lean ====
section
/-! DEFINITION. Branches and jumps (spec/41_branch_jump.md R140 to R157). There is no delay slot (R140). -/

namespace Sys2Proof.Machine

/-- R142. -/
def execBeq (rs rt : Reg) (imm : Half) (s : State) : Outcome := branch (s.reg rs == s.reg rt) imm s

/-- R143. -/
def execBne (rs rt : Reg) (imm : Half) (s : State) : Outcome := branch (s.reg rs != s.reg rt) imm s

/-- R144. -/
def execBgez (rs : Reg) (imm : Half) (s : State) : Outcome := branch (geZero (s.reg rs)) imm s

/-- R145. -/
def execBgtz (rs : Reg) (imm : Half) (s : State) : Outcome := branch (gtZero (s.reg rs)) imm s

/-- R146. -/
def execBlez (rs : Reg) (imm : Half) (s : State) : Outcome := branch (leZero (s.reg rs)) imm s

/-- R147. -/
def execBltz (rs : Reg) (imm : Half) (s : State) : Outcome := branch (ltZero (s.reg rs)) imm s

/-- R148: links whether or not the branch is taken. -/
def execBgezal (rs : Reg) (imm : Half) (s : State) : Outcome := branchLink (geZero (s.reg rs)) imm s

/-- R149: strictly less (90_conflicts.md C2); links whether or not the branch is taken. -/
def execBltzal (rs : Reg) (imm : Half) (s : State) : Outcome := branchLink (ltZero (s.reg rs)) imm s

/-- R150. -/
def execJ (addr26 : BitVec 26) (s : State) : Outcome := .next (s.setPc (jumpTarget s.pc addr26))

/-- R151. -/
def execJal (addr26 : BitVec 26) (s : State) : Outcome :=
  .next ((s.setReg 31 (nextPc s.pc)).setPc (jumpTarget s.pc addr26))

/-- R152: all 32 bits of the register; nothing is checked here (R156). -/
def execJr (rs : Reg) (s : State) : Outcome := .next (s.setPc (s.reg rs))

/-- R153, R154: the target is read before the link is written (R157). -/
def execJalr (rd rs : Reg) (s : State) : Outcome := .next ((s.setReg rd (nextPc s.pc)).setPc (s.reg rs))

end Sys2Proof.Machine
end

