-- ==== Sys2Proof/Machine/Logic.lean ====
section
/-! DEFINITION. Bitwise operations, shifts and comparisons (spec/43_logical_shift_compare.md R180 to R197). -/

namespace Sys2Proof.Machine

/-- R181. -/
def execOr (rd rs rt : Reg) (s : State) : Outcome := finish rd (s.reg rs ||| s.reg rt) s

/-- R182. -/
def execAnd (rd rs rt : Reg) (s : State) : Outcome := finish rd (s.reg rs &&& s.reg rt) s

/-- R183. -/
def execXor (rd rs rt : Reg) (s : State) : Outcome := finish rd (s.reg rs ^^^ s.reg rt) s

/-- R184. -/
def execNor (rd rs rt : Reg) (s : State) : Outcome := finish rd (~~~(s.reg rs ||| s.reg rt)) s

/-- R185. -/
def execOri (rt rs : Reg) (imm : Half) (s : State) : Outcome := finish rt (s.reg rs ||| zext imm) s

/-- R186. -/
def execAndi (rt rs : Reg) (imm : Half) (s : State) : Outcome := finish rt (s.reg rs &&& zext imm) s

/-- R187. -/
def execXori (rt rs : Reg) (imm : Half) (s : State) : Outcome := finish rt (s.reg rs ^^^ zext imm) s

/-- R188. -/
def execSllv (rd rt rs : Reg) (s : State) : Outcome := finish rd (s.reg rt <<< shiftAmount (s.reg rs)) s

/-- R189. -/
def execSrlv (rd rt rs : Reg) (s : State) : Outcome := finish rd (s.reg rt >>> shiftAmount (s.reg rs)) s

/-- R190. -/
def execSrav (rd rt rs : Reg) (s : State) : Outcome := finish rd ((s.reg rt).sshiftRight (shiftAmount (s.reg rs))) s

/-- R191. -/
def execSll (rd rt : Reg) (shamt : Nat) (s : State) : Outcome := finish rd (s.reg rt <<< shamt) s

/-- R192. -/
def execSrl (rd rt : Reg) (shamt : Nat) (s : State) : Outcome := finish rd (s.reg rt >>> shamt) s

/-- R193. -/
def execSra (rd rt : Reg) (shamt : Nat) (s : State) : Outcome := finish rd ((s.reg rt).sshiftRight shamt) s

/-- R194. -/
def execSlt (rd rs rt : Reg) (s : State) : Outcome := finish rd (boolWord (lessSigned (s.reg rs) (s.reg rt))) s

/-- R195. -/
def execSltu (rd rs rt : Reg) (s : State) : Outcome := finish rd (boolWord (lessUnsigned (s.reg rs) (s.reg rt))) s

/-- R196. -/
def execSlti (rt rs : Reg) (imm : Half) (s : State) : Outcome :=
  finish rt (boolWord (lessSigned (s.reg rs) (sext imm))) s

/-- R197: sign-extended, then compared as unsigned. -/
def execSltiu (rt rs : Reg) (imm : Half) (s : State) : Outcome :=
  finish rt (boolWord (lessUnsigned (s.reg rs) (sext imm))) s

end Sys2Proof.Machine
end

