-- ==== Sys2Proof/WellFormed.lean ====
section
/-! DEFINITION. Which instruction terms have an encoding. Every operand but the constant shift amount is
bounded by its type, so the checks are those of the three constant shifts (spec/30_encoding.md R94). -/

namespace Sys2Proof

/-- "No shift amount of 32 or more exists" (R94): a shift amount fits its 5-bit field. -/
def shamtOk (n : Nat) : Bool := n < 32

/-- An instruction is well formed iff each operand fits its field (R81 to R83, R94). -/
def Instr.wf : Instr → Bool
  | .sll _ _ shamt => shamtOk shamt
  | .srl _ _ shamt => shamtOk shamt
  | .sra _ _ shamt => shamtOk shamt
  | .mfhi _ | .mflo _ | .mthi _ | .mtlo _ | .lui _ _ => true
  | .lw _ _ _ | .sw _ _ _ | .lh _ _ _ | .lhu _ _ _ | .sh _ _ _ | .lb _ _ _ | .lbu _ _ _ | .sb _ _ _ => true
  | .beq _ _ _ | .bne _ _ _ | .bgez _ _ | .bgtz _ _ | .blez _ _ | .bltz _ _ | .bgezal _ _ | .bltzal _ _ => true
  | .j _ | .jal _ | .jr _ | .jalr _ _ => true
  | .add _ _ _ | .sub _ _ _ | .addu _ _ _ | .subu _ _ _ | .addi _ _ _ | .addiu _ _ _ => true
  | .mult _ _ | .multu _ _ | .div _ _ | .divu _ _ => true
  | .or _ _ _ | .and _ _ _ | .xor _ _ _ | .nor _ _ _ | .ori _ _ _ | .andi _ _ _ | .xori _ _ _ => true
  | .sllv _ _ _ | .srlv _ _ _ | .srav _ _ _ => true
  | .slt _ _ _ | .sltu _ _ _ | .slti _ _ _ | .sltiu _ _ _ => true
  | .syscall | .brk | .rfe => true

end Sys2Proof
end

