-- ==== Sys2Proof/Decode.lean ====
section
/-! DEFINITION. From words to instructions and back (spec/30_encoding.md R80 to R99): the fields, the opcode maps,
the decoder, the rows of spec/opcode_table.json, the encoder. -/

namespace Sys2Proof

/-! ### Fields (R15, R81 to R83) -/

def opField (w : Word) : BitVec 6 := w.extractLsb' 26 6
def shamtField (w : Word) : BitVec 5 := w.extractLsb' 6 5
def functField (w : Word) : BitVec 6 := w.extractLsb' 0 6
def immField (w : Word) : Half := w.extractLsb' 0 16
def addrField (w : Word) : BitVec 26 := w.extractLsb' 0 26

/-- The register that the five bits of a word from bit `lo` up name. -/
def regField (lo : Nat) (w : Word) : Reg := (w.extractLsb' lo 5).toFin

def rsField (w : Word) : Reg := regField 21 w
def rtField (w : Word) : Reg := regField 16 w
def rdField (w : Word) : Reg := regField 11 w

/-! ### Opcode maps -/

/-- The cells of the map CODE OP (R85); `blank` is a cell the source leaves blank. -/
inductive CodeOp where
  | special | bcond | j | jal | beq | bne | blez | bgtz | addi | addiu | slti | sltiu
  | andi | ori | xori | lui | copro | lb | lh | lw | lbu | lhu | sb | sh | sw
  | blank
  deriving DecidableEq, Repr

/-- The cells of the map SPECIAL (R86); `blank` is a cell the source leaves blank. -/
inductive Funct where
  | sll | srl | sra | sllv | srlv | srav | jr | jalr | syscall | brk | mfhi | mthi | mflo | mtlo
  | mult | multu | div | divu | add | addu | sub | subu | and | or | xor | nor | slt | sltu
  | blank
  deriving DecidableEq, Repr

/-- The map CODE OP (R85): rows are bits 31:29, columns bits 28:26. -/
def codeOpMap : List (List CodeOp) :=
  [[.special, .bcond, .j, .jal, .beq, .bne, .blez, .bgtz],
   [.addi, .addiu, .slti, .sltiu, .andi, .ori, .xori, .lui],
   [.copro, .blank, .blank, .blank, .blank, .blank, .blank, .blank],
   [.blank, .blank, .blank, .blank, .blank, .blank, .blank, .blank],
   [.lb, .lh, .blank, .lw, .lbu, .lhu, .blank, .blank],
   [.sb, .sh, .blank, .sw, .blank, .blank, .blank, .blank],
   [.blank, .blank, .blank, .blank, .blank, .blank, .blank, .blank],
   [.blank, .blank, .blank, .blank, .blank, .blank, .blank, .blank]]

/-- The map SPECIAL (R86): rows are bits 5:3, columns bits 2:0. -/
def specialMap : List (List Funct) :=
  [[.sll, .blank, .srl, .sra, .sllv, .blank, .srlv, .srav],
   [.jr, .jalr, .blank, .blank, .syscall, .brk, .blank, .blank],
   [.mfhi, .mthi, .mflo, .mtlo, .blank, .blank, .blank, .blank],
   [.mult, .multu, .div, .divu, .blank, .blank, .blank, .blank],
   [.add, .addu, .sub, .subu, .and, .or, .xor, .nor],
   [.blank, .blank, .slt, .sltu, .blank, .blank, .blank, .blank],
   [.blank, .blank, .blank, .blank, .blank, .blank, .blank, .blank],
   [.blank, .blank, .blank, .blank, .blank, .blank, .blank, .blank]]

/-- The cell of a primary opcode (R85). -/
def codeOp (op : BitVec 6) : CodeOp :=
  ((codeOpMap.getD (op.toNat / 8) []).getD (op.toNat % 8) .blank)

/-- The cell of a function code under SPECIAL (R86). -/
def functOf (f : BitVec 6) : Funct :=
  ((specialMap.getD (f.toNat / 8) []).getD (f.toNat % 8) .blank)

/-! ### The decoder (R89) -/

/-- Why a word is reserved (R96), or why bytes are no word. All of the first five raise `ReservedInstruction`. -/
inductive Reject where
  /-- A blank cell of CODE OP. -/
  | blankOpcode
  /-- A blank cell of SPECIAL. -/
  | blankFunct
  /-- An `rt` other than the four of R87 under BCOND. -/
  | blankBcond
  /-- A COPRO word other than RFE (R88, R221). -/
  | coproWord
  /-- A field that the instruction does not use is not zero (R95, R99). -/
  | unusedField
  /-- Fewer than four bytes. -/
  | truncated
  deriving DecidableEq, Repr

/-- What a word is: an instruction with its fields, or reserved (R89). -/
inductive Decoded where
  | instr (i : Instr)
  | reserved (r : Reject)
  deriving DecidableEq, Repr

/-- Step (3) of R89: an instruction is accepted only with its unused fields zero (R95). -/
def unusedZero (ok : Prop) [Decidable ok] (i : Instr) : Decoded :=
  if ok then .instr i else .reserved .unusedField

/-- The word of `rfe` (R88, R220). -/
def rfeWord : Word := 0x42000010

/-- Opcode SPECIAL, selected by the function code (R86); unused fields as R90 lists them. -/
def decodeSpecial (w : Word) : Decoded :=
  match functOf (functField w) with
  | .sll => unusedZero (rsField w = 0) (.sll (rdField w) (rtField w) (shamtField w).toNat)
  | .srl => unusedZero (rsField w = 0) (.srl (rdField w) (rtField w) (shamtField w).toNat)
  | .sra => unusedZero (rsField w = 0) (.sra (rdField w) (rtField w) (shamtField w).toNat)
  | .sllv => unusedZero (shamtField w = 0) (.sllv (rdField w) (rtField w) (rsField w))
  | .srlv => unusedZero (shamtField w = 0) (.srlv (rdField w) (rtField w) (rsField w))
  | .srav => unusedZero (shamtField w = 0) (.srav (rdField w) (rtField w) (rsField w))
  | .jr => unusedZero (rtField w = 0 ∧ rdField w = 0 ∧ shamtField w = 0) (.jr (rsField w))
  | .jalr => unusedZero (rtField w = 0 ∧ shamtField w = 0) (.jalr (rdField w) (rsField w))
  | .syscall => unusedZero (rsField w = 0 ∧ rtField w = 0 ∧ rdField w = 0 ∧ shamtField w = 0) .syscall
  | .brk => unusedZero (rsField w = 0 ∧ rtField w = 0 ∧ rdField w = 0 ∧ shamtField w = 0) .brk
  | .mfhi => unusedZero (rsField w = 0 ∧ rtField w = 0 ∧ shamtField w = 0) (.mfhi (rdField w))
  | .mthi => unusedZero (rtField w = 0 ∧ rdField w = 0 ∧ shamtField w = 0) (.mthi (rsField w))
  | .mflo => unusedZero (rsField w = 0 ∧ rtField w = 0 ∧ shamtField w = 0) (.mflo (rdField w))
  | .mtlo => unusedZero (rtField w = 0 ∧ rdField w = 0 ∧ shamtField w = 0) (.mtlo (rsField w))
  | .mult => unusedZero (rdField w = 0 ∧ shamtField w = 0) (.mult (rsField w) (rtField w))
  | .multu => unusedZero (rdField w = 0 ∧ shamtField w = 0) (.multu (rsField w) (rtField w))
  | .div => unusedZero (rdField w = 0 ∧ shamtField w = 0) (.div (rsField w) (rtField w))
  | .divu => unusedZero (rdField w = 0 ∧ shamtField w = 0) (.divu (rsField w) (rtField w))
  | .add => unusedZero (shamtField w = 0) (.add (rdField w) (rsField w) (rtField w))
  | .addu => unusedZero (shamtField w = 0) (.addu (rdField w) (rsField w) (rtField w))
  | .sub => unusedZero (shamtField w = 0) (.sub (rdField w) (rsField w) (rtField w))
  | .subu => unusedZero (shamtField w = 0) (.subu (rdField w) (rsField w) (rtField w))
  | .and => unusedZero (shamtField w = 0) (.and (rdField w) (rsField w) (rtField w))
  | .or => unusedZero (shamtField w = 0) (.or (rdField w) (rsField w) (rtField w))
  | .xor => unusedZero (shamtField w = 0) (.xor (rdField w) (rsField w) (rtField w))
  | .nor => unusedZero (shamtField w = 0) (.nor (rdField w) (rsField w) (rtField w))
  | .slt => unusedZero (shamtField w = 0) (.slt (rdField w) (rsField w) (rtField w))
  | .sltu => unusedZero (shamtField w = 0) (.sltu (rdField w) (rsField w) (rtField w))
  | .blank => .reserved .blankFunct

/-- Opcode BCOND, selected by the whole `rt` field (R87). -/
def decodeBcond (w : Word) : Decoded :=
  if rtField w = 0b00000 then .instr (.bltz (rsField w) (immField w))
  else if rtField w = 0b00001 then .instr (.bgez (rsField w) (immField w))
  else if rtField w = 0b10000 then .instr (.bltzal (rsField w) (immField w))
  else if rtField w = 0b10001 then .instr (.bgezal (rsField w) (immField w))
  else .reserved .blankBcond

/-- The decoding procedure (R89): total on 32-bit words. -/
def decode (w : Word) : Decoded :=
  match codeOp (opField w) with
  | .special => decodeSpecial w
  | .bcond => decodeBcond w
  | .j => .instr (.j (addrField w))
  | .jal => .instr (.jal (addrField w))
  | .beq => .instr (.beq (rsField w) (rtField w) (immField w))
  | .bne => .instr (.bne (rsField w) (rtField w) (immField w))
  | .blez => unusedZero (rtField w = 0) (.blez (rsField w) (immField w))
  | .bgtz => unusedZero (rtField w = 0) (.bgtz (rsField w) (immField w))
  | .addi => .instr (.addi (rtField w) (rsField w) (immField w))
  | .addiu => .instr (.addiu (rtField w) (rsField w) (immField w))
  | .slti => .instr (.slti (rtField w) (rsField w) (immField w))
  | .sltiu => .instr (.sltiu (rtField w) (rsField w) (immField w))
  | .andi => .instr (.andi (rtField w) (rsField w) (immField w))
  | .ori => .instr (.ori (rtField w) (rsField w) (immField w))
  | .xori => .instr (.xori (rtField w) (rsField w) (immField w))
  | .lui => unusedZero (rsField w = 0) (.lui (rtField w) (immField w))
  | .copro => if w = rfeWord then .instr .rfe else .reserved .coproWord
  | .lb => .instr (.lb (rtField w) (immField w) (rsField w))
  | .lh => .instr (.lh (rtField w) (immField w) (rsField w))
  | .lw => .instr (.lw (rtField w) (immField w) (rsField w))
  | .lbu => .instr (.lbu (rtField w) (immField w) (rsField w))
  | .lhu => .instr (.lhu (rtField w) (immField w) (rsField w))
  | .sb => .instr (.sb (rtField w) (immField w) (rsField w))
  | .sh => .instr (.sh (rtField w) (immField w) (rsField w))
  | .sw => .instr (.sw (rtField w) (immField w) (rsField w))
  | .blank => .reserved .blankOpcode

/-- Decoding of bytes as memory holds them, lowest address first (R53, R80). -/
def decodeBytes (e : Endian) : List Byte → Decoded
  | b0 :: b1 :: b2 :: b3 :: _ => decode (BitVec.ofNat 32 (Machine.valueOf e [b0, b1, b2, b3]))
  | _ => .reserved .truncated

/-- The two coprocessor 0 moves of R246, known only with `TRAP_MODEL = r3000`. -/
def decodeCp0 (w : Word) : Option Cp0Move :=
  if codeOp (opField w) = .copro ∧ w.extractLsb' 0 11 = 0#11 then
    if rsField w = 0b00000 then some (.mfc0 (rtField w) (rdField w))
    else if rsField w = 0b00100 then some (.mtc0 (rtField w) (rdField w))
    else none
  else none

/-- The instruction the decoder reads from an instruction whose bits are `w`, `nbits` of them given: its four
bytes are laid out in the default byte order of R8 and decoded. -/
def decodeTableWord (nbits w : Nat) : Option Instr :=
  if nbits ≤ 32 then
    match decodeBytes .little (Machine.bytesOf .little 4 (w % 2 ^ nbits)) with
    | .instr i => some i
    | .reserved _ => none
  else none

/-! ### The rows of the opcode table -/

/-- One row of spec/opcode_table.json: a word is that instruction iff `w &&& mask = pattern` (R89). -/
structure OpcodeRow where
  mnemonic : String
  pattern : Word
  mask : Word
  deriving DecidableEq, Repr

/-- Rows of spec/opcode_table.json, as its `mnemonic`, `match` and `mask` give them. -/
def tableSpecial : List OpcodeRow := [
  ⟨"sll", 0x00000000, 0xFFE0003F⟩,
  ⟨"srl", 0x00000002, 0xFFE0003F⟩,
  ⟨"sra", 0x00000003, 0xFFE0003F⟩,
  ⟨"sllv", 0x00000004, 0xFC0007FF⟩,
  ⟨"srlv", 0x00000006, 0xFC0007FF⟩,
  ⟨"srav", 0x00000007, 0xFC0007FF⟩,
  ⟨"jr", 0x00000008, 0xFC1FFFFF⟩,
  ⟨"jalr", 0x00000009, 0xFC1F07FF⟩,
  ⟨"syscall", 0x0000000C, 0xFFFFFFFF⟩,
  ⟨"break", 0x0000000D, 0xFFFFFFFF⟩,
  ⟨"mfhi", 0x00000010, 0xFFFF07FF⟩,
  ⟨"mflo", 0x00000012, 0xFFFF07FF⟩,
  ⟨"mthi", 0x00000011, 0xFC1FFFFF⟩,
  ⟨"mtlo", 0x00000013, 0xFC1FFFFF⟩,
  ⟨"mult", 0x00000018, 0xFC00FFFF⟩,
  ⟨"multu", 0x00000019, 0xFC00FFFF⟩,
  ⟨"div", 0x0000001A, 0xFC00FFFF⟩,
  ⟨"divu", 0x0000001B, 0xFC00FFFF⟩,
  ⟨"add", 0x00000020, 0xFC0007FF⟩,
  ⟨"addu", 0x00000021, 0xFC0007FF⟩,
  ⟨"sub", 0x00000022, 0xFC0007FF⟩,
  ⟨"subu", 0x00000023, 0xFC0007FF⟩,
  ⟨"and", 0x00000024, 0xFC0007FF⟩,
  ⟨"or", 0x00000025, 0xFC0007FF⟩,
  ⟨"xor", 0x00000026, 0xFC0007FF⟩,
  ⟨"nor", 0x00000027, 0xFC0007FF⟩,
  ⟨"slt", 0x0000002A, 0xFC0007FF⟩,
  ⟨"sltu", 0x0000002B, 0xFC0007FF⟩]

/-- Rows of spec/opcode_table.json, as its `mnemonic`, `match` and `mask` give them. -/
def tableBranchJump : List OpcodeRow := [
  ⟨"bltz", 0x04000000, 0xFC1F0000⟩,
  ⟨"bgez", 0x04010000, 0xFC1F0000⟩,
  ⟨"bltzal", 0x04100000, 0xFC1F0000⟩,
  ⟨"bgezal", 0x04110000, 0xFC1F0000⟩,
  ⟨"j", 0x08000000, 0xFC000000⟩,
  ⟨"jal", 0x0C000000, 0xFC000000⟩,
  ⟨"beq", 0x10000000, 0xFC000000⟩,
  ⟨"bne", 0x14000000, 0xFC000000⟩,
  ⟨"blez", 0x18000000, 0xFC1F0000⟩,
  ⟨"bgtz", 0x1C000000, 0xFC1F0000⟩]

/-- Rows of spec/opcode_table.json, as its `mnemonic`, `match` and `mask` give them. -/
def tableRest : List OpcodeRow := [
  ⟨"addi", 0x20000000, 0xFC000000⟩,
  ⟨"addiu", 0x24000000, 0xFC000000⟩,
  ⟨"slti", 0x28000000, 0xFC000000⟩,
  ⟨"sltiu", 0x2C000000, 0xFC000000⟩,
  ⟨"andi", 0x30000000, 0xFC000000⟩,
  ⟨"ori", 0x34000000, 0xFC000000⟩,
  ⟨"xori", 0x38000000, 0xFC000000⟩,
  ⟨"lui", 0x3C000000, 0xFFE00000⟩,
  ⟨"rfe", 0x42000010, 0xFFFFFFFF⟩,
  ⟨"lb", 0x80000000, 0xFC000000⟩,
  ⟨"lh", 0x84000000, 0xFC000000⟩,
  ⟨"lw", 0x8C000000, 0xFC000000⟩,
  ⟨"lbu", 0x90000000, 0xFC000000⟩,
  ⟨"lhu", 0x94000000, 0xFC000000⟩,
  ⟨"sb", 0xA0000000, 0xFC000000⟩,
  ⟨"sh", 0xA4000000, 0xFC000000⟩,
  ⟨"sw", 0xAC000000, 0xFC000000⟩]

/-- The 55 rows of spec/opcode_table.json. -/
def opcodeTable : List OpcodeRow := tableSpecial ++ tableBranchJump ++ tableRest

/-- A word fits a row (R89). -/
def OpcodeRow.fits (r : OpcodeRow) (w : Word) : Bool := w &&& r.mask = r.pattern

/-- The mnemonic of an instruction, as spec/opcode_table.json spells it. -/
def Instr.mnemonic : Instr → String
  | .mfhi _ => "mfhi"
  | .mflo _ => "mflo"
  | .mthi _ => "mthi"
  | .mtlo _ => "mtlo"
  | .lui _ _ => "lui"
  | .lw _ _ _ => "lw"
  | .sw _ _ _ => "sw"
  | .lh _ _ _ => "lh"
  | .lhu _ _ _ => "lhu"
  | .sh _ _ _ => "sh"
  | .lb _ _ _ => "lb"
  | .lbu _ _ _ => "lbu"
  | .sb _ _ _ => "sb"
  | .beq _ _ _ => "beq"
  | .bne _ _ _ => "bne"
  | .bgez _ _ => "bgez"
  | .bgtz _ _ => "bgtz"
  | .blez _ _ => "blez"
  | .bltz _ _ => "bltz"
  | .bgezal _ _ => "bgezal"
  | .bltzal _ _ => "bltzal"
  | .j _ => "j"
  | .jal _ => "jal"
  | .jr _ => "jr"
  | .jalr _ _ => "jalr"
  | .add _ _ _ => "add"
  | .sub _ _ _ => "sub"
  | .addu _ _ _ => "addu"
  | .subu _ _ _ => "subu"
  | .addi _ _ _ => "addi"
  | .addiu _ _ _ => "addiu"
  | .mult _ _ => "mult"
  | .multu _ _ => "multu"
  | .div _ _ => "div"
  | .divu _ _ => "divu"
  | .or _ _ _ => "or"
  | .and _ _ _ => "and"
  | .xor _ _ _ => "xor"
  | .nor _ _ _ => "nor"
  | .ori _ _ _ => "ori"
  | .andi _ _ _ => "andi"
  | .xori _ _ _ => "xori"
  | .sllv _ _ _ => "sllv"
  | .srlv _ _ _ => "srlv"
  | .srav _ _ _ => "srav"
  | .sll _ _ _ => "sll"
  | .srl _ _ _ => "srl"
  | .sra _ _ _ => "sra"
  | .slt _ _ _ => "slt"
  | .sltu _ _ _ => "sltu"
  | .slti _ _ _ => "slti"
  | .sltiu _ _ _ => "sltiu"
  | .syscall => "syscall"
  | .brk => "break"
  | .rfe => "rfe"

/-! ### The encoder -/

/-- The five bits of a register number. -/
def regBits (r : Reg) : BitVec 5 := BitVec.ofFin r

/-- Format R with opcode SPECIAL (R81). -/
def packR (rs rt rd : Reg) (shamt : BitVec 5) (funct : BitVec 6) : Word :=
  0b000000#6 ++ regBits rs ++ regBits rt ++ regBits rd ++ shamt ++ funct

/-- Format I (R82). -/
def packI (op : BitVec 6) (rs rt : Reg) (imm : Half) : Word :=
  op ++ regBits rs ++ regBits rt ++ imm

/-- Format J (R83). -/
def packJ (op : BitVec 6) (addr26 : BitVec 26) : Word := op ++ addr26

/-- The word of a well-formed instruction: the fields of R90, zero in every unused field (R95). -/
def encode : Instr → Word
  | .mfhi rd => packR 0 0 rd 0 0b010000
  | .mflo rd => packR 0 0 rd 0 0b010010
  | .mthi rs => packR rs 0 0 0 0b010001
  | .mtlo rs => packR rs 0 0 0 0b010011
  | .lui rt imm => packI 0b001111 0 rt imm
  | .lw rt imm rs => packI 0b100011 rs rt imm
  | .sw rt imm rs => packI 0b101011 rs rt imm
  | .lh rt imm rs => packI 0b100001 rs rt imm
  | .lhu rt imm rs => packI 0b100101 rs rt imm
  | .sh rt imm rs => packI 0b101001 rs rt imm
  | .lb rt imm rs => packI 0b100000 rs rt imm
  | .lbu rt imm rs => packI 0b100100 rs rt imm
  | .sb rt imm rs => packI 0b101000 rs rt imm
  | .beq rs rt imm => packI 0b000100 rs rt imm
  | .bne rs rt imm => packI 0b000101 rs rt imm
  | .bgez rs imm => packI 0b000001 rs 0b00001 imm
  | .bgtz rs imm => packI 0b000111 rs 0 imm
  | .blez rs imm => packI 0b000110 rs 0 imm
  | .bltz rs imm => packI 0b000001 rs 0b00000 imm
  | .bgezal rs imm => packI 0b000001 rs 0b10001 imm
  | .bltzal rs imm => packI 0b000001 rs 0b10000 imm
  | .j addr26 => packJ 0b000010 addr26
  | .jal addr26 => packJ 0b000011 addr26
  | .jr rs => packR rs 0 0 0 0b001000
  | .jalr rd rs => packR rs 0 rd 0 0b001001
  | .add rd rs rt => packR rs rt rd 0 0b100000
  | .sub rd rs rt => packR rs rt rd 0 0b100010
  | .addu rd rs rt => packR rs rt rd 0 0b100001
  | .subu rd rs rt => packR rs rt rd 0 0b100011
  | .addi rt rs imm => packI 0b001000 rs rt imm
  | .addiu rt rs imm => packI 0b001001 rs rt imm
  | .mult rs rt => packR rs rt 0 0 0b011000
  | .multu rs rt => packR rs rt 0 0 0b011001
  | .div rs rt => packR rs rt 0 0 0b011010
  | .divu rs rt => packR rs rt 0 0 0b011011
  | .or rd rs rt => packR rs rt rd 0 0b100101
  | .and rd rs rt => packR rs rt rd 0 0b100100
  | .xor rd rs rt => packR rs rt rd 0 0b100110
  | .nor rd rs rt => packR rs rt rd 0 0b100111
  | .ori rt rs imm => packI 0b001101 rs rt imm
  | .andi rt rs imm => packI 0b001100 rs rt imm
  | .xori rt rs imm => packI 0b001110 rs rt imm
  | .sllv rd rt rs => packR rs rt rd 0 0b000100
  | .srlv rd rt rs => packR rs rt rd 0 0b000110
  | .srav rd rt rs => packR rs rt rd 0 0b000111
  | .sll rd rt shamt => packR 0 rt rd (BitVec.ofNat 5 shamt) 0b000000
  | .srl rd rt shamt => packR 0 rt rd (BitVec.ofNat 5 shamt) 0b000010
  | .sra rd rt shamt => packR 0 rt rd (BitVec.ofNat 5 shamt) 0b000011
  | .slt rd rs rt => packR rs rt rd 0 0b101010
  | .sltu rd rs rt => packR rs rt rd 0 0b101011
  | .slti rt rs imm => packI 0b001010 rs rt imm
  | .sltiu rt rs imm => packI 0b001011 rs rt imm
  | .syscall => packR 0 0 0 0 0b001100
  | .brk => packR 0 0 0 0 0b001101
  | .rfe => rfeWord

/-- The words of an instruction: there is one (R80). -/
def encodeWords (i : Instr) : List Word := [encode i]

end Sys2Proof
end

