-- ==== Sys2Proof/Machine/System.lean ====
section
/-! DEFINITION. System instructions (spec/44_system.md R210 to R222), and, for `TRAP_MODEL = r3000`, `rfe` and the moves
of coprocessor 0 (spec/60_exceptions.md R246 to R254). -/

namespace Sys2Proof.Machine

/-! ### The services (R211 to R217): each is one atomic step of the environment -/

/-- The five services of the source's table (R210). -/
inductive Service where
  | printInt
  | printString
  | readInt
  | readString
  | exit
  deriving DecidableEq, Repr

/-- The service of a code: the whole of `x[2]` is the code (R210). -/
def serviceOf (code : Word) : Option Service :=
  if code = 1 then some .printInt
  else if code = 4 then some .printString
  else if code = 5 then some .readInt
  else if code = 8 then some .readString
  else if code = 10 then some .exit
  else none

/-- Service 1 (R212). -/
def servePrintInt (s : State) : Outcome := .next (s.emit (.printInt (s.reg 4))).advance

/-- What a scan for the end-of-string character meets first (R213). -/
inductive Scan where
  | ended (bs : List Byte)
  | missing (a : Word)
  | endless
  deriving DecidableEq, Repr

/-- One more byte in front of a scan. -/
def Scan.cons (b : Byte) : Scan → Scan
  | .ended bs => .ended (b :: bs)
  | .missing a => .missing a
  | .endless => .endless

/-- The bytes from `a` up to the first `0x00`, looking at no more than `fuel` of them (R213). -/
def State.scan (s : State) (a : Word) : Nat → Scan
  | 0 => .endless
  | fuel + 1 =>
    if !s.allocated a then .missing a
    else if s.byteAt a = 0 then .ended []
    else (s.scan (a + 1) fuel).cons (s.byteAt a)

/-- Service 4 (R213): the string, or `BusErrorLoad` at the first byte that is not allocated. The scan covers the
whole address space (log 20). -/
def servePrintString (s : State) : Outcome :=
  match s.scan (s.reg 4) (2 ^ 32) with
  | .ended bs => .next (s.emit (.printString bs)).advance
  | .missing a => raise (.busErrorLoad a) s
  | .endless => .fault (.endlessString (s.reg 4) s.pc)

/-- Service 5 (R214): any 32-bit value, the environment's choice. -/
def serveReadInt (s : State) : Outcome :=
  .next ((s.answered.setReg 2 s.answer).emit (.readInt s.answer)).advance

/-- What service 8 raises (R215): `BusErrorStore` at the first byte of the buffer that is not allocated, then
`StoreToText` at the first that lies in the text image (R63, R233). -/
def State.bufferExc (s : State) (a : Word) (n : Nat) : Option Exc :=
  match firstInRun (fun x => !s.allocated x) a n with
  | some x => some (.busErrorStore x)
  | none =>
    if s.params.smc = .refuse then (firstInRun s.inText a n).map Exc.storeToText
    else none

/-- Service 8 (R215): every byte of the buffer takes any value; no other byte changes. -/
def serveReadString (s : State) : Outcome :=
  let a := s.reg 4
  let n := (s.reg 5).toNat
  match s.bufferExc a n with
  | some e => raise e s
  | none =>
    let (bs, t) := s.answerBytes n
    .next ((t.setBytes a bs).emit (.readString a n bs)).advance

/-- Service 10 (R216): the run is over; `pc` keeps the address of the `syscall`. -/
def serveExit (s : State) : Outcome := .next { s.emit .exit with status := .exited }

/-- The service that `x[2]` selects, or `UnknownService` (R210, R217). -/
def serve (s : State) : Outcome :=
  match serviceOf (s.reg 2) with
  | some .printInt => servePrintInt s
  | some .printString => servePrintString s
  | some .readInt => serveReadInt s
  | some .readString => serveReadString s
  | some .exit => serveExit s
  | none => raise (.unknownService (s.reg 2)) s

/-! ### The instructions -/

/-- R210. With `TRAP_MODEL = r3000` there is a kernel to enter: `syscall` takes the exception `Sys` (R251; log 10). -/
def execSyscall (s : State) : Outcome :=
  match s.params.trapModel with
  | .fault => serve s
  | .r3000 => raise .sys s

/-- R219. -/
def execBrk (s : State) : Outcome := raise .breakpoint s

/-- R220; with `TRAP_MODEL = r3000`, R254 (and `pc` goes on, R26; log 18) where coprocessor 0 is usable (R246). -/
def execRfe (s : State) : Outcome :=
  match s.params.trapModel with
  | .fault => raise (.coprocessorUnusable 0) s
  | .r3000 => if s.cp0Usable then .next s.leaveTrap.advance else raise (.coprocessorUnusable 0) s

/-! ### Coprocessor 0 moves (R246), only with `TRAP_MODEL = r3000` -/

/-- The bits of `Status` that R247 names; "Other bits read as zero". -/
def statusMask : Word := 0xF27FFF3F

/-- What `mfc0` reads (R246 to R249); a register the spec does not describe gives a free value (log 13). -/
def State.readCp0 (s : State) (rd : Reg) : Word :=
  if rd = 8 then s.cp0.badVAddr
  else if rd = 12 then s.cp0.sr
  else if rd = 13 then s.causeView
  else if rd = 14 then s.cp0.epc
  else s.drawn

/-- Whether a coprocessor 0 register is one of R246. -/
def cp0Described (rd : Reg) : Bool := rd = 8 || rd = 12 || rd = 13 || rd = 14

/-- What `mtc0` writes (R246): of `Status` the named bits (R247), of `Cause` the two software interrupt bits
(R248); `EPC` and `BadVAddr` are read-only (R249); any other register is not part of the state (log 13, log 26). -/
def State.writeCp0 (s : State) (rd : Reg) (v : Word) : State :=
  if rd = 12 then { s with cp0 := { s.cp0 with sr := v &&& statusMask } }
  else if rd = 13 then
    { s with cp0 := { s.cp0 with
        cause := s.cp0.cause.extractLsb' 10 22 ++ v.extractLsb' 8 2 ++ s.cp0.cause.extractLsb' 0 8 } }
  else s

/-- `mfc0 Rt, Rd` and `mtc0 Rt, Rd` where coprocessor 0 is usable, else Coprocessor Unusable (R246). -/
def execCp0Move (m : Cp0Move) (s : State) : Outcome :=
  if s.cp0Usable then
    match m with
    | .mfc0 rt rd => finish rt (s.readCp0 rd) (if cp0Described rd then s else s.skipDraws 1)
    | .mtc0 rt rd => .next (s.writeCp0 rd (s.reg rt)).advance
  else raise (.coprocessorUnusable 0) s

/-- A word that decodes to no instruction: `ReservedInstruction` (R96, R221), but for the two moves that
`TRAP_MODEL = r3000` knows (R246; log 9). -/
def execReserved (w : Word) (s : State) : Outcome :=
  match s.params.trapModel, decodeCp0 w with
  | .r3000, some m => execCp0Move m s
  | _, _ => raise (.reservedInstruction w) s

end Sys2Proof.Machine
end

