-- ==== Sys2Proof/Machine/Transfer.lean ====
section
/-! DEFINITION. Transfers (spec/40_transfer.md R120 to R133). -/

namespace Sys2Proof.Machine

/-- R121. -/
def execMfhi (rd : Reg) (s : State) : Outcome := finish rd s.hi s

/-- R122. -/
def execMflo (rd : Reg) (s : State) : Outcome := finish rd s.lo s

/-- R123: only `HI` (D23). -/
def execMthi (rs : Reg) (s : State) : Outcome := .next (s.setHi (s.reg rs)).advance

/-- R124: only `LO` (D23). -/
def execMtlo (rs : Reg) (s : State) : Outcome := .next (s.setLo (s.reg rs)).advance

/-- R125. -/
def execLui (rt : Reg) (imm : Half) (s : State) : Outcome := finish rt (upperImm imm) s

/-- R126. -/
def execLw (rt : Reg) (imm : Half) (rs : Reg) (s : State) : Outcome :=
  load rt (effAddr (s.reg rs) imm) 4 (fun v => BitVec.ofNat 32 v) s

/-- R127. -/
def execSw (rt : Reg) (imm : Half) (rs : Reg) (s : State) : Outcome :=
  store (effAddr (s.reg rs) imm) 4 (s.reg rt) s

/-- R128. -/
def execLh (rt : Reg) (imm : Half) (rs : Reg) (s : State) : Outcome :=
  load rt (effAddr (s.reg rs) imm) 2 (fun v => sext (BitVec.ofNat 16 v)) s

/-- R129. -/
def execLhu (rt : Reg) (imm : Half) (rs : Reg) (s : State) : Outcome :=
  load rt (effAddr (s.reg rs) imm) 2 (fun v => zext (BitVec.ofNat 16 v)) s

/-- R130. -/
def execSh (rt : Reg) (imm : Half) (rs : Reg) (s : State) : Outcome :=
  store (effAddr (s.reg rs) imm) 2 (s.reg rt) s

/-- R131. -/
def execLb (rt : Reg) (imm : Half) (rs : Reg) (s : State) : Outcome :=
  load rt (effAddr (s.reg rs) imm) 1 (fun v => sext (BitVec.ofNat 8 v)) s

/-- R132. -/
def execLbu (rt : Reg) (imm : Half) (rs : Reg) (s : State) : Outcome :=
  load rt (effAddr (s.reg rs) imm) 1 (fun v => zext (BitVec.ofNat 8 v)) s

/-- R133. -/
def execSb (rt : Reg) (imm : Half) (rs : Reg) (s : State) : Outcome :=
  store (effAddr (s.reg rs) imm) 1 (s.reg rt) s

end Sys2Proof.Machine
end

