-- ==== Sys2Proof/Machine/Step.lean ====
section
/-! DEFINITION. One step (spec/00_scope.md R18, spec/60_exceptions.md R233): fetch, decode, execute. -/

namespace Sys2Proof.Machine

/-- The word fetched, executed: an instruction by its meaning, any other word as reserved (R89, R96). -/
def runWord (w : Word) (s : State) : Outcome :=
  match decode w with
  | .instr i => exec i s
  | .reserved _ => execReserved w s

/-- One step. A run that is over takes none (R216, R231). An interrupt that is due is taken between instructions
(R253). Otherwise the fetch raises, or the word is executed (R58, R233). -/
def step (s : State) : Host.Outcome State Fault Refusal :=
  match s.status with
  | .exited => .refused .runOver
  | .faulted _ => .refused .runOver
  | .running =>
    if s.interruptDue then raise .interrupt s
    else
      match s.fetchExc with
      | some e => raise e s
      | none => runWord s.fetched s

/-- The state with an instruction's bits where `step` fetches: the four bytes at `pc` in the byte order of the
fetch, loaded as program text (R58, R261), in a run that is not over (log 4). -/
def State.withFetchWord (s : State) (nbits w : Nat) : State :=
  { s.writeNum s.pc 4 (w % 2 ^ nbits) with
    text := if allInRun s.inText s.pc 4 then s.text else Region.mk s.pc.toNat 4 :: s.text
    status := .running }

end Sys2Proof.Machine
end

