-- ==== Sys2Proof/Machine/Convention.lean ====
section
/-! DEFINITION. What the source says to the programmer, which no instruction enforces: register names and the saving
table (spec/10_state.md R22, R23), the stages of a call (spec/41_branch_jump.md R155), the interface of the services
(spec/44_system.md R210 to R218). -/

namespace Sys2Proof.Machine

/-- The name the source gives a register; it names none of 0, 1, 26, 27, 28 (R22). -/
def regName (r : Reg) : Option String :=
  [none, none, some "$v0", some "$v1", some "$a0", some "$a1", some "$a2", some "$a3",
   some "$t0", some "$t1", some "$t2", some "$t3", some "$t4", some "$t5", some "$t6", some "$t7",
   some "$s0", some "$s1", some "$s2", some "$s3", some "$s4", some "$s5", some "$s6", some "$s7",
   some "$t8", some "$t9", none, none, none, some "$sp", some "$fp", some "$ra"].getD r.val none

/-- Who must save a register around a call if its value is still needed (R23). -/
inductive Saver where
  /-- "Appelante": the caller. -/
  | caller
  /-- "Appelée": the callee. -/
  | callee
  deriving DecidableEq, Repr

/-- The saving table (R23); it has no row for registers 0, 1, 26, 27, 28. -/
def saver (r : Reg) : Option Saver :=
  let n := r.val
  if (2 ≤ n ∧ n ≤ 15) ∨ n = 24 ∨ n = 25 then some .caller
  else if (16 ≤ n ∧ n ≤ 23) ∨ n = 29 ∨ n = 30 ∨ n = 31 then some .callee
  else none

/-- The five stages of a call, in order (R155). -/
inductive CallStage where
  /-- OUVerture: the caller prepares the call, saving registers if needed. -/
  | ouverture
  /-- PROlogue: the callee sets up its block of data on the stack. -/
  | prologue
  /-- EXECUTION: the callee runs its own instructions. -/
  | execution
  /-- EPIlogue: the callee restores the caller's context and pops its block. -/
  | epilogue
  /-- FINal: the caller restores registers if needed and goes on. -/
  | final
  deriving DecidableEq, Repr

/-- An instruction that calls: it writes a link (R155: `jal`, or `jalr`, `bgezal`, `bltzal`). -/
def isCall : Instr → Bool
  | .jal _ | .jalr _ _ | .bgezal _ _ | .bltzal _ _ => true
  | _ => false

/-- The instruction that returns, `jr $ra` (R155). -/
def isReturn (i : Instr) : Bool := i = .jr 31

/-- The code that selects a service (R210). -/
def serviceCode : Service → Word
  | .printInt => 1
  | .printString => 4
  | .readInt => 5
  | .readString => 8
  | .exit => 10

/-- The registers a service takes its arguments from (R212 to R216). -/
def serviceArgs : Service → List Reg
  | .printInt => [4]
  | .printString => [4]
  | .readInt => []
  | .readString => [4, 5]
  | .exit => []

/-- The register a service leaves its result in (R212 to R216). -/
def serviceResult : Service → Option Reg
  | .readInt => some 2
  | .printInt | .printString | .readString | .exit => none

end Sys2Proof.Machine
end

