-- ==== Sys2Proof/Machine/Assembler.lean ====
section
/-! DEFINITION. The assembler's side of an instruction (spec/30_encoding.md R90, R92, R93, R100): the field that a
label gives a branch or a jump, and the statement's text. -/

namespace Sys2Proof.Machine

/-! ### Label fields -/

/-- The offset field of a branch at `p` to a label at `l` (R92): `((L - (P + 4)) >> 2)[15:0]`, where `L - (P + 4)` is a
multiple of 4 from -2^17 to 2^17 - 4. -/
def branchField (p l : Word) : Option Half :=
  let d := (l - nextPc p).toInt
  if d % 4 = 0 ∧ -2 ^ 17 ≤ d ∧ d ≤ 2 ^ 17 - 4 then some (BitVec.ofInt 16 (d / 4)) else none

/-- The address field of a jump at `p` to a label at `l` (R93): `L[27:2]`, where `L[1:0] = 0` and
`L[31:28] = (P + 4)[31:28]`. -/
def jumpField (p l : Word) : Option (BitVec 26) :=
  if l.extractLsb' 0 2 = 0#2 ∧ l.extractLsb' 28 4 = (nextPc p).extractLsb' 28 4 then some (l.extractLsb' 2 26)
  else none

/-- A branch or a jump at `p`, its `Etq` filled from a label at `l` (R90); no other instruction takes a label. -/
def fillLabel (p l : Word) : Instr → Option Instr
  | .beq rs rt _ => (branchField p l).map (.beq rs rt)
  | .bne rs rt _ => (branchField p l).map (.bne rs rt)
  | .bgez rs _ => (branchField p l).map (.bgez rs)
  | .bgtz rs _ => (branchField p l).map (.bgtz rs)
  | .blez rs _ => (branchField p l).map (.blez rs)
  | .bltz rs _ => (branchField p l).map (.bltz rs)
  | .bgezal rs _ => (branchField p l).map (.bgezal rs)
  | .bltzal rs _ => (branchField p l).map (.bltzal rs)
  | .j _ => (jumpField p l).map .j
  | .jal _ => (jumpField p l).map .jal
  | _ => none

/-! ### Text -/

/-- A register operand by its number (R100). -/
def regText (r : Reg) : String := "$" ++ toString r.val

/-- An immediate, read as signed (R109). -/
def immText (imm : Half) : String := toString imm.toInt

/-- A memory operand `I(Rs)` (R100). -/
def memText (imm : Half) (rs : Reg) : String := immText imm ++ "(" ++ regText rs ++ ")"

/-- The operands in the order of the "Syntaxe Assembleur" column (R90); `etq` is the label of a branch or jump. -/
def operandTexts (etq : String) : Instr → List String
  | .mfhi rd | .mflo rd => [regText rd]
  | .mthi rs | .mtlo rs | .jr rs => [regText rs]
  | .lui rt imm => [regText rt, immText imm]
  | .lw rt imm rs | .sw rt imm rs | .lh rt imm rs | .lhu rt imm rs | .sh rt imm rs | .lb rt imm rs
  | .lbu rt imm rs | .sb rt imm rs => [regText rt, memText imm rs]
  | .beq rs rt _ | .bne rs rt _ => [regText rs, regText rt, etq]
  | .bgez rs _ | .bgtz rs _ | .blez rs _ | .bltz rs _ | .bgezal rs _ | .bltzal rs _ => [regText rs, etq]
  | .j _ | .jal _ => [etq]
  | .jalr rd rs => [regText rd, regText rs]
  | .add rd rs rt | .sub rd rs rt | .addu rd rs rt | .subu rd rs rt | .or rd rs rt | .and rd rs rt
  | .xor rd rs rt | .nor rd rs rt | .slt rd rs rt | .sltu rd rs rt => [regText rd, regText rs, regText rt]
  | .addi rt rs imm | .addiu rt rs imm | .ori rt rs imm | .andi rt rs imm | .xori rt rs imm | .slti rt rs imm
  | .sltiu rt rs imm => [regText rt, regText rs, immText imm]
  | .mult rs rt | .multu rs rt | .div rs rt | .divu rs rt => [regText rs, regText rt]
  | .sllv rd rt rs | .srlv rd rt rs | .srav rd rt rs => [regText rd, regText rt, regText rs]
  | .sll rd rt shamt | .srl rd rt shamt | .sra rd rt shamt => [regText rd, regText rt, toString shamt]
  | .syscall | .brk | .rfe => []

/-- The statement of an instruction (R100): the mnemonic, then the operands separated by commas. -/
def asmText (etq : String) (i : Instr) : String :=
  match operandTexts etq i with
  | [] => i.mnemonic
  | ops => i.mnemonic ++ " " ++ ", ".intercalate ops

end Sys2Proof.Machine
end

