-- ==== Sys2Proof/Machine/DataFormats.lean ====
section
/-! DEFINITION. Data encodings (spec/30_encoding.md R107). No instruction operates on them. -/

namespace Sys2Proof.Machine

/-- The ASCII code of a character, where it has one (R107: 'A' is 65; the rest is standard 7-bit ASCII, GK13). -/
def asciiCode (c : Char) : Option Byte := if c.toNat < 128 then some (BitVec.ofNat 8 c.toNat) else none

/-- Characters stored in ASCII, one byte each (R106, R107); a character without a code has no byte. -/
def asciiBytes (ch : List Char) : List (Option Byte) := ch.map asciiCode

/-- Every character has an ASCII code. -/
def isAscii (ch : List Char) : Bool := ch.all fun c => (asciiCode c).isSome

/-- The end-of-string character (R106, GK13). -/
def endOfString : Byte := 0

/-- A single-precision number by its fields (R107): sign, biased exponent, fraction. -/
structure Single where
  sign : BitVec 1
  exponent : BitVec 8
  fraction : BitVec 23
  deriving DecidableEq, Repr

/-- The layout (R107, GK13): sign bit 31, exponent bits 30:23, fraction bits 22:0. -/
def singleWord (f : Single) : Word := f.sign ++ f.exponent ++ f.fraction

/-- The fields of a word. -/
def singleOf (w : Word) : Single where
  sign := w.extractLsb' 31 1
  exponent := w.extractLsb' 23 8
  fraction := w.extractLsb' 0 23

/-- The real exponent: the stored one less the bias 127 (R107). -/
def realExponent (f : Single) : Int := (f.exponent.toNat : Int) - 127

/-- The significand `1.fraction`: only the fraction of the normalised notation is stored (R107). -/
def Single.significand (f : Single) : Rat := 1 + (f.fraction.toNat : Rat) / 2 ^ 23

/-- A power of two, of either sign. -/
def powerOfTwo : Int → Rat
  | .ofNat n => 2 ^ n
  | .negSucc n => 1 / 2 ^ (n + 1)

/-- The number that the fields stand for: sign, significand, power of two (R107, S2). The stored exponents 0 and 255, of
which the spec's remarks on normalised notation say nothing, stand for none here (DESIGN CHOICE, log 29). -/
def Single.value (f : Single) : Option Rat :=
  if f.exponent = 0 ∨ f.exponent = 255 then none
  else some ((if f.sign = 1 then -1 else 1) * f.significand * powerOfTwo (realExponent f))

/-- The number that a word encodes in single precision (R107). -/
def singleValue (w : Word) : Option Rat := (singleOf w).value

end Sys2Proof.Machine
end

