-- ==== Sys2Proof/Machine/Loader.lean ====
section
/-! DEFINITION. From an assembled program to a launch state (spec/30_encoding.md R104 to R106,
spec/70_reset_and_hazards.md R260, R261), and the hardware reset of the optional mechanism (spec/60_exceptions.md
R255). What the loader refuses is given no launch state (U19). Choices: logs 23, 28, 29. -/

namespace Sys2Proof.Machine

/-! ### Statements -/

/-- What a data directive stores (R106). A string is given by its characters, a float or a double by its bits. -/
inductive Datum where
  | space (n : Nat)
  | ascii (ch : List Char)
  | asciiz (ch : List Char)
  | byte (bs : List Byte)
  | half (hs : List Half)
  | word (ws : List Word)
  | float (fs : List Word)
  | double (ds : List (BitVec 64))
  deriving DecidableEq, Repr

/-- The boundary a datum is placed on (R106; `.float` and `.double`: GK13). -/
def Datum.boundary : Datum → Nat
  | .space _ | .ascii _ | .asciiz _ | .byte _ => 1
  | .half _ => 2
  | .word _ | .float _ => 4
  | .double _ => 8

/-- The bytes a datum stores, lowest address first: characters in ASCII (R107), numbers in the byte order of R53; those
that `.space` reserves are unspecified (R106). That the eight bytes of a `.double` follow `ENDIAN` too is a DESIGN CHOICE:
R53 and R106 do not say (log 30). -/
def Datum.content (e : Endian) : Datum → List (Option Byte)
  | .space n => List.replicate n none
  | .ascii ch => asciiBytes ch
  | .asciiz ch => asciiBytes ch ++ [some endOfString]
  | .byte bs => bs.map some
  | .half hs => (hs.flatMap fun h => bytesOf e 2 h.toNat).map some
  | .word ws => (ws.flatMap fun w => bytesOf e 4 w.toNat).map some
  | .float fs => (fs.flatMap fun w => bytesOf e 4 w.toNat).map some
  | .double ds => (ds.flatMap fun d => bytesOf e 8 d.toNat).map some

/-- The loader supports no `.float` and no `.double` (R261), and no character that R107 gives no code (log 29). -/
def Datum.supported : Datum → Bool
  | .float _ | .double _ => false
  | .ascii ch | .asciiz ch => isAscii ch
  | .space _ | .byte _ | .half _ | .word _ => true

/-- A statement of a program: a directive (R104 to R106), a label, an instruction, or a branch or jump to a label. -/
inductive Stmt where
  | text (adr : Option Word)
  | data (adr : Option Word)
  | stack
  | ktext
  | kdata
  | extern (etq : String) (taille : Nat)
  | globl (etq : String)
  | align (n : Nat)
  | datum (d : Datum)
  | label (etq : String)
  | instr (i : Instr)
  | toLabel (i : Instr) (etq : String)
  deriving DecidableEq, Repr

/-! ### Placing -/

inductive Segment where
  | text
  | data
  deriving DecidableEq, Repr

/-- Where the assembler stands: the segment, the location counter of each, labels not yet placed, and what is placed
so far, latest first. -/
structure Placing where
  seg : Option Segment
  textLoc : Nat
  dataLoc : Nat
  pending : List String
  labels : List (String × Nat)
  code : List (Nat × Instr × Option String)
  bytes : List (Nat × Byte)
  text : List Region
  data : List Region
  deriving DecidableEq, Repr

/-- Before the first statement: each segment starts at its base (R104). -/
def Placing.start (p : Params) : Placing where
  seg := none
  textLoc := p.textBase.toNat
  dataLoc := p.dataBase.toNat
  pending := []
  labels := []
  code := []
  bytes := []
  text := []
  data := []

/-- The least multiple of `m` that is at least `n`. -/
def alignUp (n m : Nat) : Nat := n + (m - n % m) % m

/-- Ranges with one more: it lengthens the latest if it continues it. -/
def addRange (base size : Nat) : List Region → List Region
  | [] => [⟨base, size⟩]
  | r :: rs => if r.base + r.size = base then ⟨r.base, r.size + size⟩ :: rs else ⟨base, size⟩ :: r :: rs

/-- Labels take the address of what follows them (R261). -/
def Placing.bind (t : Placing) (at_ : Nat) : Placing :=
  { t with pending := [], labels := t.pending.map (·, at_) ++ t.labels }

/-- The bytes a directive defines, each with its address. -/
def definedBytes : Nat → List (Option Byte) → List (Nat × Byte)
  | _, [] => []
  | a, none :: bs => definedBytes (a + 1) bs
  | a, some b :: bs => (a, b) :: definedBytes (a + 1) bs

/-- The location counter of the current segment. Before any segment directive there is none, and a label placed there
takes the text counter, `TEXT_BASE`, whatever directive follows (DESIGN CHOICE: R104 and R261 do not say; log 23). -/
def Placing.here (t : Placing) : Nat :=
  match t.seg with
  | some .data => t.dataLoc
  | some .text | none => t.textLoc

/-- An instruction at the location counter of the text segment. -/
def Placing.putInstr (t : Placing) (i : Instr) (etq : Option String) : Option Placing :=
  if t.seg = some .text ∧ i.wf = true ∧ t.textLoc % 4 = 0 then
    let u := t.bind t.textLoc
    some { u with
      code := (t.textLoc, i, etq) :: t.code
      text := addRange t.textLoc 4 t.text
      textLoc := t.textLoc + 4 }
  else none

/-- A datum, aligned, at the location counter of the data segment. -/
def Placing.putDatum (e : Endian) (t : Placing) (d : Datum) : Option Placing :=
  if t.seg = some .data ∧ d.supported = true then
    let a := alignUp t.dataLoc d.boundary
    let u := t.bind a
    some { u with
      bytes := definedBytes a (d.content e) ++ t.bytes
      data := addRange t.dataLoc (a + (d.content e).length - t.dataLoc) t.data
      dataLoc := a + (d.content e).length }
  else none

/-- One statement (R104 to R106, R261). `none`: the loader refuses the program. -/
def Placing.stmt (p : Params) (t : Placing) : Stmt → Option Placing
  | .text adr =>
    let u := t.bind t.here
    some { u with seg := some .text, textLoc := (adr.map BitVec.toNat).getD t.textLoc }
  | .data adr =>
    let u := t.bind t.here
    some { u with seg := some .data, dataLoc := (adr.map BitVec.toNat).getD t.dataLoc }
  | .stack => none
  | .ktext => none
  | .kdata => none
  | .extern _ _ => none
  | .globl _ => some t
  | .align n =>
    if t.seg = some .data then
      let a := alignUp t.dataLoc (2 ^ n)
      some { t with data := addRange t.dataLoc (a - t.dataLoc) t.data, dataLoc := a }
    else none
  | .datum d => t.putDatum p.endian d
  | .label etq => some { t with pending := etq :: t.pending }
  | .instr i => t.putInstr i none
  | .toLabel i etq => t.putInstr i (some etq)

def Placing.stmts (p : Params) (t : Placing) : List Stmt → Option Placing
  | [] => some (t.bind t.here)
  | x :: xs => (t.stmt p x).bind fun u => u.stmts p xs

/-! ### Filling labels in, and the images -/

/-- The address of a label that is placed once. -/
def findLabel (labels : List (String × Nat)) (etq : String) : Option Nat :=
  match labels.filter (fun l => l.1 = etq) with
  | [l] => some l.2
  | _ => none

/-- The word of a placed instruction, its label filled in by R92 and R93. -/
def placedWord (labels : List (String × Nat)) (c : Nat × Instr × Option String) : Option (Nat × Word) :=
  match c with
  | (a, i, none) => some (a, encode i)
  | (a, i, some etq) =>
    (findLabel labels etq).bind fun l =>
      (fillLabel (BitVec.ofNat 32 a) (BitVec.ofNat 32 l) i).map fun j => (a, encode j)

/-- An assembled program: instruction words and data bytes by address, and the ranges the two images cover. -/
structure Image where
  code : List (Nat × Word)
  bytes : List (Nat × Byte)
  text : List Region
  data : List Region
  deriving DecidableEq, Repr

/-- The images of a program (R261), or `none` where the loader refuses it. Nothing may reach past the address space. -/
def assemble (p : Params) (prog : List Stmt) : Option Image :=
  ((Placing.start p).stmts p prog).bind fun t =>
    if t.text.all (fun r => r.base + r.size ≤ 2 ^ 32) ∧ t.data.all (fun r => r.base + r.size ≤ 2 ^ 32) then
      (t.code.reverse.mapM (placedWord t.labels)).map fun ws => ⟨ws, t.bytes.reverse, t.text, t.data⟩
    else none

/-! ### The launch (R260) -/

/-- What R35 leaves unspecified at launch: any registers, any `HI` and `LO`, any answers of the environment. -/
structure LaunchDraws where
  gpr : Vector Word 32
  hi : Word
  lo : Word
  input : List Word
  deriving DecidableEq, Repr

/-- Memory with bytes written, first to last. -/
def memSetAll (m : Memory) (bs : List (Nat × Byte)) : Memory := bs.foldl (fun m c => memSet m c.1 c.2) m

/-- The bytes of the instruction words, in the byte order of R53 (R261). -/
def codeBytes (e : Endian) (ws : List (Nat × Word)) : List (Nat × Byte) :=
  ws.flatMap fun c => definedBytes c.1 ((bytesOf e 4 c.2.toNat).map some)

/-- The launch state of an assembled program (R35, R260). Where placements overlap (`TEXT_BASE` and `DATA_BASE`, or the
`adr` of `.text` and `.data`, may make them do so), data bytes are written over instruction words, and within an image a
later statement over an earlier one; the range stays part of the text image (DESIGN CHOICE: R8, R35, R58, R104 and R261
do not say what such an address holds; log 28). Under `TRAP_MODEL = r3000` the spec gives a launch no mode (R260) and says
that the hardware reset is not the launch (R255); a launch here has the coprocessor 0 registers of `resetCp0`, so kernel
mode, `BEV = 1` and interrupts off, and no interrupt line raised (DESIGN CHOICE, logs 19 and 16). -/
def launch (p : Params) (img : Image) (d : LaunchDraws) : State where
  params := p
  gpr := (d.gpr.set 0 0).set 29 p.stackTop
  hi := d.hi
  lo := d.lo
  pc := p.entry
  mem := memSetAll (memSetAll [] (codeBytes p.endian img.code)) img.bytes
  text := img.text
  data := img.data
  out := []
  input := d.input
  status := .running
  draws := 0
  cp0 := resetCp0
  irq := 0

/-- A program of statements, assembled and launched. -/
def load? (p : Params) (prog : List Stmt) (d : LaunchDraws) : Option State :=
  (assemble p prog).map fun img => launch p img d

/-! ### The hardware reset of R255 -/

/-- `Status` after a hardware reset: `BEV = 1`, `KUc = 0`, `IEc = 0`, the other named fields undefined (R247, R255). -/
def resetStatus (undef : Word) : Word := (undef &&& 0xF23FFF3C) ||| 0x00400000

/-- A hardware reset under `TRAP_MODEL = r3000` (R255), an event from outside (log 24): `pc` at the reset vector;
what R255 calls undefined is the arguments, any values. -/
def State.hardReset (s : State) (d : LaunchDraws) (sr cause epc badVAddr : Word) : State :=
  { s with
    pc := 0xBFC00000
    gpr := d.gpr.set 0 0
    hi := d.hi
    lo := d.lo
    cp0 := { sr := resetStatus sr, cause := cause &&& 0x3000037C, epc := epc, badVAddr := badVAddr }
    status := .running }

end Sys2Proof.Machine
end

