-- ==== Sys2Proof/Safety.lean ====
section
/-! DEFINITION. Runs, and what a good state and a good end are (spec/60_exceptions.md R231, spec/70_reset_and_hazards.md
R263). -/

namespace Sys2Proof.Machine

/-- The state a fault leaves (R231): everything as before the step, and `status = faulted(E, info, pc)`. -/
def State.afterFault (s : State) (f : Fault) : State := { s with status := .faulted f }

/-- The state that a step leads to: its next state, the state its fault leaves, or, for a run that is over, the same
state (no step is taken). -/
def State.follow (s : State) : State :=
  match step s with
  | .next t => t
  | .fault f => s.afterFault f
  | .refused _ => s

/-- The state after `n` steps of a run (R18). -/
def State.after (s : State) : Nat → State
  | 0 => s
  | n + 1 => s.follow.after n

/-- The one final outcome of a run (R263). -/
def State.final (s : State) : Bool := s.status = .exited

/-- A run is over: exited, or faulted (R263). -/
def State.over (s : State) : Bool :=
  match s.status with
  | .running => false
  | .exited => true
  | .faulted _ => true

/-- The bits of `Cause` that an instruction or an entry can set; the hardware interrupt bits are in `irq`. -/
def causeMask : Word := 0x3000037C

/-- The invariant of the model: memory is in canonical form (R50), the storage of register 0 holds zero (R21), the bits
of `Status` and `Cause` that have no meaning are zero (R247, R248). -/
structure State.Inv (s : State) : Prop where
  mem : s.mem.wf
  zero : s.gpr[0] = 0
  sr : s.cp0.sr &&& ~~~statusMask = 0
  cause : s.cp0.cause &&& ~~~causeMask = 0

end Sys2Proof.Machine
end

