-- ==== Sys2Proof/Certificates/Slice0/Obligations.lean ====
section
/-! DEFINITION. The statements for the provers, and the vocabulary they are written in: what a next state keeps, what an
instruction writes, what an exception leaves. A statement about a choice of the model's own names the log entry. -/

namespace Sys2Proof.Machine

/-! ### Vocabulary: what stays -/

/-- The outcome is a next state with a property. -/
def NextIs (o : Outcome) (P : State → Prop) : Prop := ∃ t, o = .next t ∧ P t

/-- Every general register reads as before. -/
def SameRegs (s t : State) : Prop := ∀ q, t.reg q = s.reg q

def SameHiLo (s t : State) : Prop := t.hi = s.hi ∧ t.lo = s.lo

/-- Every byte of memory reads as before. -/
def SameMem (s t : State) : Prop := ∀ a, t.byteAt a = s.byteAt a

/-- The parameters, the images, the coprocessor 0 registers and the interrupt lines are as before. -/
structure SameFixed (s t : State) : Prop where
  params : t.params = s.params
  text : t.text = s.text
  data : t.data = s.data
  cp0 : t.cp0 = s.cp0
  irq : t.irq = s.irq

/-- Also the environment's part: `out`, `in`, `status`, and the counter of draws. -/
structure SameRest (s t : State) : Prop where
  fixed : SameFixed s t
  out : t.out = s.out
  input : t.input = s.input
  status : t.status = s.status
  draws : t.draws = s.draws

/-! ### Vocabulary: what an instruction does -/

/-- Register `r` is written with `v`, unless it is register 0, which reads zero (R21); nothing else but `pc` changes. -/
structure WritesReg (r : Reg) (v : Word) (s t : State) : Prop where
  dest : t.reg r = if r = 0 then 0 else v
  others : ∀ q, q ≠ r → t.reg q = s.reg q
  hilo : SameHiLo s t
  mem : SameMem s t
  rest : SameRest s t

/-- The instruction completes: `x[r] <- v; pc <- pc + 4`, and nothing else changes. -/
def RegResult (i : Instr) (r : Reg) (v : Word) (s : State) : Prop :=
  NextIs (exec i s) fun t => WritesReg r v s t ∧ t.pc = s.pc + 4

/-- The instruction completes with `HI` and `LO` as `P` says and `pc <- pc + 4`; nothing else changes. -/
def HiLoResult (i : Instr) (P : Word → Word → Prop) (s : State) : Prop :=
  NextIs (exec i s) fun t => P t.hi t.lo ∧ t.pc = s.pc + 4 ∧ SameRegs s t ∧ SameMem s t ∧ SameRest s t

/-- The instruction completes with `pc <- p`, and nothing else changes. -/
def GoesTo (i : Instr) (p : Word) (s : State) : Prop :=
  NextIs (exec i s) fun t => t.pc = p ∧ SameRegs s t ∧ SameHiLo s t ∧ SameMem s t ∧ SameRest s t

/-- The instruction completes with `x[r] <- pc + 4; pc <- p`, and nothing else changes. -/
def LinksTo (i : Instr) (r : Reg) (p : Word) (s : State) : Prop :=
  NextIs (exec i s) fun t => t.pc = p ∧ WritesReg r (s.pc + 4) s t

/-- The outcome is the exception `e`: whatever `raise` makes of it, and with `TRAP_MODEL = fault` the fault at `pc`. -/
def Raises (o : Outcome) (e : Exc) (s : State) : Prop :=
  o = raise e s ∧ (s.params.trapModel = .fault → o = .fault (.raised e s.pc))

/-- The division completes, whatever `HI` and `LO` become: no exception, and nothing else but the count of draws
changes (R169, R170). -/
def Divides (i : Instr) (s : State) : Prop :=
  NextIs (exec i s) fun t =>
    t.pc = s.pc + 4 ∧ SameRegs s t ∧ SameMem s t ∧ SameFixed s t ∧ t.out = s.out ∧ t.input = s.input
      ∧ t.status = s.status

/-! ### Vocabulary: memory -/

/-- The address `k` bytes above `a`, modulo 2^32. -/
def up (a : Word) (k : Nat) : Word := a + BitVec.ofNat 32 k

/-- All, respectively some, of the `n` bytes from `a` up have a property. -/
def AllBytes (p : Word → Bool) (a : Word) (n : Nat) : Prop := ∀ k, k < n → p (up a k) = true
def MissesByte (p : Word → Bool) (a : Word) (n : Nat) : Prop := ∃ k, k < n ∧ p (up a k) = false

/-- The word held at `a` in a byte order (R53). -/
def wordAt (e : Endian) (s : State) (a : Word) : Word :=
  match e with
  | .little => s.byteAt (up a 3) ++ s.byteAt (up a 2) ++ s.byteAt (up a 1) ++ s.byteAt a
  | .big => s.byteAt a ++ s.byteAt (up a 1) ++ s.byteAt (up a 2) ++ s.byteAt (up a 3)

/-- The halfword held at `a` in a byte order (R53). -/
def halfAt (e : Endian) (s : State) (a : Word) : Half :=
  match e with
  | .little => s.byteAt (up a 1) ++ s.byteAt a
  | .big => s.byteAt a ++ s.byteAt (up a 1)

/-- The byte that goes to `a + k` when the low `n` bytes of `v` are stored at `a` (R53). -/
def storedByte (e : Endian) (n : Nat) (v : Word) (k : Nat) : Byte :=
  match e with
  | .little => v.extractLsb' (8 * k) 8
  | .big => v.extractLsb' (8 * (n - 1 - k)) 8

/-- The byte order of user mode under r3000: with `reReverses`, `RE` reverses it (R247; log 14). -/
def userOrder (s : State) : Endian :=
  match s.params.endian, s.params.reReverses && s.cp0.sr.getLsbD 25 with
  | .little, false | .big, true => .little
  | .big, false | .little, true => .big

/-- A load of `n` bytes at `a`: an address error where `bad`; else a bus error if a byte does not exist; else it
completes with `v` in `rt` (R55, R56, R59). -/
def LoadRule (i : Instr) (rt : Reg) (a : Word) (n : Nat) (v : Word) (bad : Prop) (s : State) : Prop :=
  (bad → Raises (exec i s) (.addressErrorLoad a) s)
    ∧ (¬bad → MissesByte s.allocated a n → Raises (exec i s) (.busErrorLoad a) s)
    ∧ (¬bad → AllBytes s.allocated a n → RegResult i rt v s)

/-- The store completes: the `n` bytes at `a` are the bytes of `v`, every other byte is as before, `pc <- pc + 4`,
and nothing else changes. -/
def StoreResult (e : Endian) (i : Instr) (a : Word) (n : Nat) (v : Word) (s : State) : Prop :=
  NextIs (exec i s) fun t =>
    (∀ k, k < n → t.byteAt (up a k) = storedByte e n v k)
      ∧ (∀ x, (∀ k, k < n → x ≠ up a k) → t.byteAt x = s.byteAt x)
      ∧ t.pc = s.pc + 4 ∧ SameRegs s t ∧ SameHiLo s t ∧ SameRest s t

/-- A store of the low `n` bytes of `v` at `a`: an address error where `bad`; else a bus error if a byte does not
exist; else, with `SMC = refuse`, `StoreToText` at a byte of the text image; else it completes (R55, R56, R63). -/
def StoreRule (e : Endian) (i : Instr) (a : Word) (n : Nat) (v : Word) (bad : Prop) (s : State) : Prop :=
  (bad → Raises (exec i s) (.addressErrorStore a) s)
    ∧ (¬bad → MissesByte s.allocated a n → Raises (exec i s) (.busErrorStore a) s)
    ∧ (¬bad → AllBytes s.allocated a n → s.params.smc = .refuse → ¬AllBytes (fun x => !s.inText x) a n →
        Raises (exec i s) (.storeToText a) s)
    ∧ (¬bad → AllBytes s.allocated a n → (s.params.smc = .refuse → AllBytes (fun x => !s.inText x) a n) →
        StoreResult e i a n v s)

/-- No two placements of an image overlap: instruction words, and data bytes. -/
def NoOverlap (img : Image) : Prop :=
  img.code.Pairwise (fun c d => c.1 + 4 ≤ d.1 ∨ d.1 + 4 ≤ c.1) ∧ img.bytes.Pairwise (fun b c => b.1 ≠ c.1)
    ∧ ∀ c ∈ img.code, ∀ b ∈ img.bytes, b.1 < c.1 ∨ c.1 + 4 ≤ b.1

/-! ### Vocabulary: the trap of `TRAP_MODEL = r3000` -/

/-- What trap entry leaves (R252): `t` is `s` with the exception `e` of code `c` taken. -/
structure TrapTaken (e : Exc) (c : BitVec 5) (s t : State) : Prop where
  pc : t.pc = if s.cp0.sr.getLsbD 22 then 0xBFC00180 else 0x80000080
  epc : t.cp0.epc = s.pc
  code : t.cp0.cause.extractLsb' 2 5 = c
  ce : ∀ n, e = .coprocessorUnusable n → t.cp0.cause.extractLsb' 28 2 = BitVec.ofNat 2 n
  bd : t.cp0.cause.getLsbD 31 = false
  soft : t.cp0.cause.extractLsb' 8 2 = s.cp0.cause.extractLsb' 8 2
  bad : ∀ a, e = .addressErrorFetch a ∨ e = .addressErrorLoad a ∨ e = .addressErrorStore a → t.cp0.badVAddr = a
  keepBad : c ≠ 4 → c ≠ 5 → t.cp0.badVAddr = s.cp0.badVAddr
  current : t.cp0.sr.extractLsb' 0 2 = 0
  previous : t.cp0.sr.extractLsb' 2 2 = s.cp0.sr.extractLsb' 0 2
  old : t.cp0.sr.extractLsb' 4 2 = s.cp0.sr.extractLsb' 2 2
  above : t.cp0.sr.extractLsb' 6 26 = s.cp0.sr.extractLsb' 6 26
  regs : SameRegs s t
  hilo : SameHiLo s t
  mem : SameMem s t
  env : t.out = s.out ∧ t.input = s.input ∧ t.status = s.status
  images : t.params = s.params ∧ t.text = s.text ∧ t.data = s.data ∧ t.irq = s.irq

end Sys2Proof.Machine

open Sys2Proof Sys2Proof.Machine

/-! ## Encoding -/

/-- The example words of the rules, one or more of each family, decode to the instructions they stand for. -/
def Obligations.ExampleWordsDecode : Prop :=
  decode 0x8FA80004 = .instr (.lw 8 4 29) ∧ decode 0xAFBF0000 = .instr (.sw 31 0 29)
    ∧ decode 0x8489FFFE = .instr (.lh 9 0xFFFE 4) ∧ decode 0x00004010 = .instr (.mfhi 8)
    ∧ decode 0x3C081234 = .instr (.lui 8 0x1234) ∧ decode 0x11090003 = .instr (.beq 8 9 3)
    ∧ decode 0x0490003B = .instr (.bltzal 4 0x3B) ∧ decode 0x0491003B = .instr (.bgezal 4 0x3B)
    ∧ decode 0x08100010 = .instr (.j 0x0100010) ∧ decode 0x03208009 = .instr (.jalr 16 25)
    ∧ decode 0x012A4020 = .instr (.add 8 9 10) ∧ decode 0x23BDFFF8 = .instr (.addi 29 29 0xFFF8)
    ∧ decode 0x0109001A = .instr (.div 8 9) ∧ decode 0x01494004 = .instr (.sllv 8 9 10)
    ∧ decode 0x00094103 = .instr (.sra 8 9 4) ∧ decode 0x2C88FFFF = .instr (.sltiu 8 4 0xFFFF)
    ∧ decode 0x0000000C = .instr .syscall ∧ decode 0x0000000D = .instr .brk ∧ decode 0x42000010 = .instr .rfe

/-- Decoding undoes encoding, for every well-formed instruction. -/
def Obligations.EncodeThenDecode : Prop := ∀ i : Instr, i.wf = true → decode (encode i) = .instr i

/-- R89: a word is an instruction iff it fits that instruction's row of the table, the rows are disjoint, and a word
that fits none is reserved; the instruction's operands are the word's fields (its encoding is the word). -/
def Obligations.DecodeFollowsTable : Prop :=
  ∀ w : Word,
    (∀ i, decode w = .instr i → i.wf = true ∧ encode i = w)
      ∧ (∀ i, decode w = .instr i → ∃ r ∈ opcodeTable, r.mnemonic = i.mnemonic ∧ w &&& r.mask = r.pattern)
      ∧ (∀ r ∈ opcodeTable, w &&& r.mask = r.pattern → ∃ i, decode w = .instr i ∧ i.mnemonic = r.mnemonic)
      ∧ (∀ r ∈ opcodeTable, ∀ q ∈ opcodeTable, w &&& r.mask = r.pattern → w &&& q.mask = q.pattern → r = q)
      ∧ ((∀ r ∈ opcodeTable, w &&& r.mask ≠ r.pattern) → ∃ x, decode w = .reserved x)

/-- A word that is no instruction raises `ReservedInstruction` (R96); under r3000 so does every one that is not
`mfc0` or `mtc0` (log 9). -/
def Obligations.ReservedWordRaises : Prop :=
  ∀ (w : Word) (s : State) (x : Reject), s.status = .running → s.interruptDue = false → s.fetchExc = none →
    s.fetched = w → decode w = .reserved x → (s.params.trapModel = .fault ∨ decodeCp0 w = none) →
    Raises (step s) (.reservedInstruction w) s

/-- R221: under opcode COPRO only the word of `rfe` is an instruction. -/
def Obligations.CoproWordsReserved : Prop :=
  decode 0x42000010 = .instr .rfe
    ∧ ∀ w : Word, w.extractLsb' 26 6 = 0b010000 → w ≠ 0x42000010 →
        (∃ x, decode w = .reserved x)
          ∧ ∀ s : State, s.params.trapModel = .fault → runWord w s = .fault (.raised (.reservedInstruction w) s.pc)

/-! ## One step -/

/-- A step runs the instruction that the word at `pc` decodes to, and adds nothing to it. -/
def Obligations.StepRunsDecodedInstruction : Prop :=
  ∀ (s : State) (i : Instr), s.status = .running → s.interruptDue = false → s.fetchExc = none →
    decode s.fetched = .instr i → step s = exec i s

/-- R58: the fetch. The two hypotheses `guarded` and `reversed` hold always in the default model; the fetch where they
do not is in `UserModeAccesses`. -/
def Obligations.FetchRule : Prop :=
  ∀ s : State, s.status = .running → s.interruptDue = false → s.guarded = false → s.reversed = false →
    (s.pc.toNat % 4 ≠ 0 → Raises (step s) (.addressErrorFetch s.pc) s)
      ∧ (s.pc.toNat % 4 = 0 → MissesByte s.allocated s.pc 4 → Raises (step s) (.busErrorFetch s.pc) s)
      ∧ (s.pc.toNat % 4 = 0 → AllBytes s.allocated s.pc 4 → s.params.smc = .refuse → MissesByte s.inText s.pc 4 →
          Raises (step s) (.fetchOutsideText s.pc) s)
      ∧ (s.pc.toNat % 4 = 0 → AllBytes s.allocated s.pc 4 →
          (s.params.smc = .refuse → AllBytes s.inText s.pc 4) →
          s.fetched = wordAt s.params.endian s s.pc ∧ step s = runWord (wordAt s.params.endian s s.pc) s)

/-- R231: `raise` gives the fault with the cause and the `pc`; a fault leaves everything but `status` as before the
step; a faulted state is not final and takes no further step. The model's own: under r3000 a cause without an `ExcCode`
gives the same fault (log 11), and `endlessString` is a fault beside those raised (log 20). -/
def Obligations.FaultOutcome : Prop :=
  (∀ (e : Exc) (s : State), s.params.trapModel = .fault → raise e s = .fault (.raised e s.pc))
    ∧ (∀ (e : Exc) (s : State), s.params.trapModel = .r3000 → excCode e = none →
        raise e s = .fault (.raised e s.pc))
    ∧ (∀ (s : State) (f : Fault), step s = .fault f →
        ((∃ e, f = .raised e s.pc) ∨ f = .endlessString (s.reg 4) s.pc)
          ∧ s.follow.status = .faulted f ∧ s.follow.final = false
          ∧ SameRegs s s.follow ∧ SameHiLo s s.follow ∧ s.follow.pc = s.pc ∧ s.follow.mem = s.mem
          ∧ s.follow.out = s.out ∧ s.follow.cp0 = s.cp0
          ∧ ∀ n, s.follow.after n = s.follow)

/-! ## Invariants and whole-machine rules -/

/-- The state after reset meets the invariant; of coprocessor 0 that rests on the model's values at reset (log 19). -/
def Obligations.ResetMeetsInvariant : Prop := State.reset.Inv

/-- R35, for the state after reset: what the rule gives. -/
def Obligations.ResetValues : Prop :=
  State.reset.reg 0 = 0 ∧ State.reset.reg 29 = 0x7FFFEFFC ∧ State.reset.pc = 0x00400000 ∧ State.reset.out = []
    ∧ State.reset.status = .running ∧ State.reset.params = Params.default ∧ State.reset.mem = []

/-- Every step keeps the invariant: memory in canonical form, register 0 zero, meaningless bits zero. -/
def Obligations.StepKeepsInvariant : Prop := ∀ s t : State, s.Inv → step s = .next t → t.Inv

/-- No step changes a parameter or an image (R8, R53, R261); nor an interrupt line, which is the model's choice: the lines
are plain data that only the outside moves (log 16). -/
def Obligations.StepKeepsParameters : Prop :=
  ∀ s t : State, step s = .next t → t.params = s.params ∧ t.text = s.text ∧ t.data = s.data ∧ t.irq = s.irq

/-- With `SMC = refuse` no step changes a byte of the text image. -/
def Obligations.TextImageNeverChanges : Prop :=
  ∀ (s t : State) (a : Word), s.params.smc = .refuse → step s = .next t → s.inText a = true → t.byteAt a = s.byteAt a

/-- R51: only `sw`, `sh`, `sb` and `syscall` change memory, and `syscall` only by service 8. -/
def Obligations.MemoryWriters : Prop :=
  ∀ (i : Instr) (s t : State), exec i s = .next t →
    (∀ rt imm rs, i ≠ .sw rt imm rs ∧ i ≠ .sh rt imm rs ∧ i ≠ .sb rt imm rs) →
    (i = .syscall → s.reg 2 ≠ 8) → t.mem = s.mem

/-- R28: only `mult`, `multu`, `div`, `divu` write both `HI` and `LO`, `mthi` writes `HI`, `mtlo` writes `LO`. -/
def Obligations.HiLoWriters : Prop :=
  ∀ (i : Instr) (s t : State), exec i s = .next t →
    (∀ rs rt, i ≠ .mult rs rt ∧ i ≠ .multu rs rt ∧ i ≠ .div rs rt ∧ i ≠ .divu rs rt) →
    ((∀ rs, i ≠ .mthi rs) → t.hi = s.hi) ∧ ((∀ rs, i ≠ .mtlo rs) → t.lo = s.lo)

/-- R211, R263: the environment acts only inside a `syscall` step, and only service 10 ends a run. -/
def Obligations.EnvironmentActsOnlyInSyscall : Prop :=
  ∀ s t : State, step s = .next t →
    (t.out = s.out ∧ t.input = s.input ∧ t.status = .running)
      ∨ (decode s.fetched = .instr .syscall
          ∧ (t.status = .running
              ∨ (s.reg 2 = 10 ∧ t.status = .exited ∧ t.out = s.out ++ [.exit] ∧ t.pc = s.pc)))

/-- R30: with `TRAP_MODEL = fault` no step reads or writes a coprocessor 0 register or an interrupt line. -/
def Obligations.DefaultModelHasNoControlRegister : Prop :=
  ∀ (s : State) (c : Cp0) (q : BitVec 6), s.params.trapModel = .fault →
    (∀ t, step s = .next t → t.cp0 = s.cp0 ∧ step { s with cp0 := c, irq := q } = .next { t with cp0 := c, irq := q })
      ∧ (∀ f, step s = .fault f → step { s with cp0 := c, irq := q } = .fault f)
      ∧ (∀ x, step s = .refused x → step { s with cp0 := c, irq := q } = .refused x)

/-- Under r3000, user mode without `CU0` is left only through trap entry: any other step keeps every coprocessor 0
register (R246, R252). -/
def Obligations.UserModeLeftOnlyByTrap : Prop :=
  ∀ s t : State, s.userMode = true → s.cp0.sr.getLsbD 28 = false → step s = .next t →
    t.cp0 = s.cp0 ∨ ∃ e c, excCode e = some c ∧ TrapTaken e c s t

/-- Under r3000 with `guardKernel`, no step in user mode changes a byte above the user half (R251; log 15). -/
def Obligations.UserModeCannotWriteKernelBytes : Prop :=
  ∀ (s t : State) (a : Word), s.userMode = true → s.params.guardKernel = true → step s = .next t → a.msb = true →
    t.byteAt a = s.byteAt a

/-- R156: branch, `j` and `jal` targets are multiples of 4 if `pc` is; `jr` and `jalr` to any other address complete,
and the fetch that follows raises. -/
def Obligations.TargetAlignment : Prop :=
  ∀ s : State,
    (s.pc.toNat % 4 = 0 → ∀ (i : Instr) (t : State), exec i s = .next t →
        (∀ rs, i ≠ .jr rs) → (∀ rd rs, i ≠ .jalr rd rs) → t.pc.toNat % 4 = 0)
      ∧ ∀ rd rs : Reg, (s.reg rs).toNat % 4 ≠ 0 → s.status = .running → s.interruptDue = false →
          NextIs (exec (.jr rs) s) (fun t => Raises (step t) (.addressErrorFetch (s.reg rs)) t)
            ∧ NextIs (exec (.jalr rd rs) s) (fun t =>
                WritesReg rd (s.pc + 4) s t ∧ Raises (step t) (.addressErrorFetch (s.reg rs)) t)

/-! ## Exceptions under `TRAP_MODEL = r3000` -/

/-- R252: trap entry. -/
def Obligations.TrapEntry : Prop :=
  ∀ (e : Exc) (c : BitVec 5) (s : State), s.params.trapModel = .r3000 → excCode e = some c →
    NextIs (raise e s) (TrapTaken e c s)

/-- R251: the codes, and the causes that have none. -/
def Obligations.ExceptionCodes : Prop :=
  (∀ a : Word, excCode (.addressErrorFetch a) = some 4 ∧ excCode (.addressErrorLoad a) = some 4
      ∧ excCode (.addressErrorStore a) = some 5 ∧ excCode (.busErrorFetch a) = some 6
      ∧ excCode (.busErrorLoad a) = some 7 ∧ excCode (.reservedInstruction a) = some 10
      ∧ excCode (.busErrorStore a) = none ∧ excCode (.fetchOutsideText a) = none
      ∧ excCode (.storeToText a) = none ∧ excCode (.unknownService a) = none)
    ∧ (∀ n, excCode (.coprocessorUnusable n) = some 11)
    ∧ excCode .interrupt = some 0 ∧ excCode .sys = some 8 ∧ excCode .breakpoint = some 9 ∧ excCode .overflow = some 12
    ∧ ∀ e c, excCode e = some c → c ≠ 1 ∧ c ≠ 2 ∧ c ≠ 3 ∧ ¬(13 ≤ c.toNat ∧ c.toNat ≤ 31)

/-- An entry and the `rfe` that answers it give the program back its mode and its interrupt enable (R252, R254); the
oldest pair is lost, and `pc` goes on (log 18). -/
def Obligations.TrapThenReturn : Prop :=
  ∀ (e : Exc) (s t : State), s.params.trapModel = .r3000 → raise e s = .next t →
    NextIs (exec .rfe t) fun u =>
      u.cp0.sr.extractLsb' 0 4 = s.cp0.sr.extractLsb' 0 4 ∧ u.cp0.sr.extractLsb' 4 2 = s.cp0.sr.extractLsb' 2 2
        ∧ u.cp0.sr.extractLsb' 6 26 = s.cp0.sr.extractLsb' 6 26 ∧ u.cp0.epc = s.pc ∧ u.pc = t.pc + 4

/-- R253: an interrupt is taken between instructions exactly when it is enabled and pending. -/
def Obligations.InterruptTaken : Prop :=
  (∀ s : State, s.interruptDue = true ↔
      s.params.trapModel = .r3000 ∧ s.cp0.sr.getLsbD 0 = true
        ∧ (s.irq ++ s.cp0.cause.extractLsb' 8 2) &&& s.cp0.sr.extractLsb' 8 8 ≠ 0)
    ∧ ∀ s : State, s.status = .running → s.interruptDue = true → NextIs (step s) (TrapTaken .interrupt 0 s)

/-- R246 to R249, under r3000: the four registers are read and written where coprocessor 0 is usable, else Coprocessor
Unusable. Which bits take a write: log 26; a register the spec does not describe: log 13. -/
def Obligations.Cp0Moves : Prop :=
  ∀ (rt rd : Reg) (s : State), s.params.trapModel = .r3000 →
    let from0 : Word := 0b010000#6 ++ 0b00000#5 ++ regBits rt ++ regBits rd ++ 0#11
    let to0 : Word := 0b010000#6 ++ 0b00100#5 ++ regBits rt ++ regBits rd ++ 0#11
    (s.cp0Usable = true ↔ s.cp0.sr.getLsbD 1 = false ∨ s.cp0.sr.getLsbD 28 = true)
      ∧ (s.cp0Usable = false →
          Raises (runWord from0 s) (.coprocessorUnusable 0) s ∧ Raises (runWord to0 s) (.coprocessorUnusable 0) s)
      ∧ (s.cp0Usable = true →
          (NextIs (runWord from0 s) fun t =>
            t.pc = s.pc + 4 ∧ SameFixed s t ∧ t.out = s.out ∧ t.input = s.input ∧ t.status = s.status
              ∧ (rd = 8 → WritesReg rt s.cp0.badVAddr s t) ∧ (rd = 12 → WritesReg rt s.cp0.sr s t)
              ∧ (rd = 13 → WritesReg rt s.causeView s t) ∧ (rd = 14 → WritesReg rt s.cp0.epc s t)
              ∧ (∀ q, q ≠ rt → t.reg q = s.reg q) ∧ SameHiLo s t ∧ SameMem s t)
            ∧ NextIs (runWord to0 s) fun t =>
              t.pc = s.pc + 4 ∧ SameRegs s t ∧ SameHiLo s t ∧ SameMem s t
                ∧ t.cp0.epc = s.cp0.epc ∧ t.cp0.badVAddr = s.cp0.badVAddr
                ∧ t.cp0.sr = (if rd = 12 then s.reg rt &&& 0xF27FFF3F else s.cp0.sr)
                ∧ (rd = 13 → t.cp0.cause.extractLsb' 8 2 = (s.reg rt).extractLsb' 8 2)
                ∧ t.cp0.cause.extractLsb' 0 8 = s.cp0.cause.extractLsb' 0 8
                ∧ t.cp0.cause.extractLsb' 10 22 = s.cp0.cause.extractLsb' 10 22
                ∧ (rd ≠ 13 → t.cp0.cause = s.cp0.cause)
                ∧ t.params = s.params ∧ t.text = s.text ∧ t.data = s.data ∧ t.irq = s.irq
                ∧ t.out = s.out ∧ t.input = s.input ∧ t.status = s.status)

/-- R219: `break` raises `Breakpoint`, always; under r3000 that is the trap of code 9. -/
def Obligations.BreakRaises : Prop :=
  decode 0x0000000D = .instr .brk
    ∧ ∀ s : State, Raises (exec .brk s) .breakpoint s
        ∧ (s.params.trapModel = .r3000 → NextIs (exec .brk s) (TrapTaken .breakpoint 9 s))

/-- R220, R254: with `TRAP_MODEL = fault`, `rfe` raises `CoprocessorUnusable(0)`; under r3000 it pops the mode stack
where coprocessor 0 is usable (R246), and `pc` goes on (log 18). -/
def Obligations.RfeRule : Prop :=
  ∀ s : State,
    (s.params.trapModel = .fault → exec .rfe s = .fault (.raised (.coprocessorUnusable 0) s.pc))
      ∧ (s.params.trapModel = .r3000 → s.cp0.sr.getLsbD 1 = true → s.cp0.sr.getLsbD 28 = false →
          NextIs (exec .rfe s) (TrapTaken (.coprocessorUnusable 0) 11 s))
      ∧ (s.params.trapModel = .r3000 → s.cp0.sr.getLsbD 1 = false ∨ s.cp0.sr.getLsbD 28 = true →
          NextIs (exec .rfe s) fun t =>
            t.cp0.sr.extractLsb' 0 2 = s.cp0.sr.extractLsb' 2 2 ∧ t.cp0.sr.extractLsb' 2 2 = s.cp0.sr.extractLsb' 4 2
              ∧ t.cp0.sr.extractLsb' 4 2 = s.cp0.sr.extractLsb' 4 2
              ∧ t.cp0.sr.extractLsb' 6 26 = s.cp0.sr.extractLsb' 6 26
              ∧ t.cp0.cause = s.cp0.cause ∧ t.cp0.epc = s.cp0.epc ∧ t.cp0.badVAddr = s.cp0.badVAddr
              ∧ t.pc = s.pc + 4 ∧ SameRegs s t ∧ SameHiLo s t ∧ SameMem s t
              ∧ t.params = s.params ∧ t.text = s.text ∧ t.data = s.data ∧ t.irq = s.irq
              ∧ t.out = s.out ∧ t.input = s.input ∧ t.status = s.status)

/-- Under r3000 `syscall` takes the exception `Sys` (R251), not a service of the environment: the model's reading,
log 10. -/
def Obligations.SyscallTrapsUnderR3000 : Prop :=
  ∀ s : State, s.params.trapModel = .r3000 → NextIs (exec .syscall s) (TrapTaken .sys 8 s)

/-! ## Arithmetic -/

/-- R163, R164. -/
def Obligations.AdduSubu : Prop :=
  ∀ (rd rs rt : Reg) (s : State),
    decode (packR rs rt rd 0 0b100001) = .instr (.addu rd rs rt) ∧ RegResult (.addu rd rs rt) rd (s.reg rs + s.reg rt) s
    ∧ decode (packR rs rt rd 0 0b100011) = .instr (.subu rd rs rt) ∧ RegResult (.subu rd rs rt) rd (s.reg rs - s.reg rt) s

/-- R166, R125. -/
def Obligations.AddiuLui : Prop :=
  ∀ (rt rs : Reg) (imm : Half) (s : State),
    decode (packI 0b001001 rs rt imm) = .instr (.addiu rt rs imm)
    ∧ RegResult (.addiu rt rs imm) rt (s.reg rs + imm.signExtend 32) s
    ∧ decode (packI 0b001111 0 rt imm) = .instr (.lui rt imm) ∧ RegResult (.lui rt imm) rt (imm ++ 0#16) s

/-- R161, R162, R165: `Overflow` in the rules' condition on the sign bits, which holds exactly when the exact signed
result is out of range (R160); else the result. -/
def Obligations.AddSubAddi : Prop :=
  ∀ (rd rs rt : Reg) (imm : Half) (s : State),
    let out (v : Int) : Prop := v < -2 ^ 31 ∨ 2 ^ 31 ≤ v
    let a := s.reg rs
    let b := s.reg rt
    let c : Word := imm.signExtend 32
    decode (packR rs rt rd 0 0b100000) = .instr (.add rd rs rt)
    ∧ decode (packR rs rt rd 0 0b100010) = .instr (.sub rd rs rt)
    ∧ decode (packI 0b001000 rs rt imm) = .instr (.addi rt rs imm)
    ∧ (a.msb = b.msb ∧ (a + b).msb ≠ a.msb → Raises (exec (.add rd rs rt) s) .overflow s)
    ∧ (¬(a.msb = b.msb ∧ (a + b).msb ≠ a.msb) → RegResult (.add rd rs rt) rd (a + b) s)
    ∧ (a.msb ≠ b.msb ∧ (a - b).msb ≠ a.msb → Raises (exec (.sub rd rs rt) s) .overflow s)
    ∧ (¬(a.msb ≠ b.msb ∧ (a - b).msb ≠ a.msb) → RegResult (.sub rd rs rt) rd (a - b) s)
    ∧ (a.msb = c.msb ∧ (a + c).msb ≠ a.msb → Raises (exec (.addi rt rs imm) s) .overflow s)
    ∧ (¬(a.msb = c.msb ∧ (a + c).msb ≠ a.msb) → RegResult (.addi rt rs imm) rt (a + c) s)
    ∧ (out (a.toInt + b.toInt) ↔ a.msb = b.msb ∧ (a + b).msb ≠ a.msb)
    ∧ (out (a.toInt - b.toInt) ↔ a.msb ≠ b.msb ∧ (a - b).msb ≠ a.msb)
    ∧ (out (a.toInt + c.toInt) ↔ a.msb = c.msb ∧ (a + c).msb ≠ a.msb)

/-- R167, R168: `HI` and `LO` are the halves of the exact product. -/
def Obligations.MultMultu : Prop :=
  ∀ (rs rt : Reg) (s : State),
    decode (packR rs rt 0 0 0b011000) = .instr (.mult rs rt)
    ∧ HiLoResult (.mult rs rt) (fun h l => (h ++ l : BitVec 64).toInt = (s.reg rs).toInt * (s.reg rt).toInt) s
    ∧ decode (packR rs rt 0 0 0b011001) = .instr (.multu rs rt)
    ∧ HiLoResult (.multu rs rt) (fun h l => (h ++ l : BitVec 64).toNat = (s.reg rs).toNat * (s.reg rt).toNat) s

/-- R169, R170: the quotient toward zero and what it leaves; without a defined result the instruction completes all the
same. -/
def Obligations.DivDivu : Prop :=
  ∀ (rs rt : Reg) (s : State),
    let a := (s.reg rs).toInt
    let b := (s.reg rt).toInt
    let m := (s.reg rs).toNat
    let n := (s.reg rt).toNat
    decode (packR rs rt 0 0 0b011010) = .instr (.div rs rt)
    ∧ (¬(b = 0 ∨ a = -2 ^ 31 ∧ b = -1) →
        HiLoResult (.div rs rt) (fun h l => l.toInt = Int.tdiv a b ∧ h.toInt = a - Int.tdiv a b * b) s)
    ∧ (b = 0 ∨ a = -2 ^ 31 ∧ b = -1 → Divides (.div rs rt) s)
    ∧ decode (packR rs rt 0 0 0b011011) = .instr (.divu rs rt)
    ∧ (n ≠ 0 → HiLoResult (.divu rs rt) (fun h l => l.toNat = m / n ∧ h.toNat = m % n) s)
    ∧ (n = 0 → Divides (.divu rs rt) s)

/-- R171: dividend = quotient × divisor + remainder, the remainder smaller than the divisor and of the dividend's
sign. -/
def Obligations.DivisionLaws : Prop :=
  ∀ (rs rt : Reg) (s t : State),
    let a := (s.reg rs).toInt
    let b := (s.reg rt).toInt
    (exec (.div rs rt) s = .next t → b ≠ 0 → ¬(a = -2 ^ 31 ∧ b = -1) →
        a = t.lo.toInt * b + t.hi.toInt ∧ t.hi.toInt.natAbs < b.natAbs
          ∧ (t.hi.toInt = 0 ∨ (t.hi.toInt < 0 ↔ a < 0)))
      ∧ (exec (.divu rs rt) s = .next t → (s.reg rt).toNat ≠ 0 →
          (s.reg rs).toNat = t.lo.toNat * (s.reg rt).toNat + t.hi.toNat ∧ t.hi.toNat < (s.reg rt).toNat)

/-- R172: the table, row by row: dividend, divisor, quotient, remainder. -/
def Obligations.DivisionTable : Prop :=
  ∀ (rs rt : Reg) (s : State),
    (∀ c ∈ [((7 : Int), (2 : Int), (3 : Int), (1 : Int)), (-7, 2, -3, -1), (7, -2, -3, 1), (-7, -2, 3, -1),
        (0, 5, 0, 0), (0, -5, 0, 0), (5, 7, 0, 5), (-5, 7, 0, -5), (-2 ^ 31, 1, -2 ^ 31, 0)],
      s.reg rs = BitVec.ofInt 32 c.1 → s.reg rt = BitVec.ofInt 32 c.2.1 →
        HiLoResult (.div rs rt) (fun h l => l = BitVec.ofInt 32 c.2.2.1 ∧ h = BitVec.ofInt 32 c.2.2.2) s)
    ∧ (∀ c ∈ [((7 : Int), (2 : Int), (3 : Int), (1 : Int)), (0, 5, 0, 0), (5, 7, 0, 5),
        (0xFFFFFFF9, 2, 0x7FFFFFFC, 1)],
      s.reg rs = BitVec.ofInt 32 c.1 → s.reg rt = BitVec.ofInt 32 c.2.1 →
        HiLoResult (.divu rs rt) (fun h l => l = BitVec.ofInt 32 c.2.2.1 ∧ h = BitVec.ofInt 32 c.2.2.2) s)
    ∧ (s.reg rt = 0 → Divides (.div rs rt) s ∧ Divides (.divu rs rt) s)
    ∧ (s.reg rs = 0x80000000 → s.reg rt = 0xFFFFFFFF → Divides (.div rs rt) s)

/-- R121 to R124. -/
def Obligations.HiLoMoves : Prop :=
  ∀ (r : Reg) (s : State),
    decode (packR 0 0 r 0 0b010000) = .instr (.mfhi r) ∧ RegResult (.mfhi r) r s.hi s
    ∧ decode (packR 0 0 r 0 0b010010) = .instr (.mflo r) ∧ RegResult (.mflo r) r s.lo s
    ∧ decode (packR r 0 0 0 0b010001) = .instr (.mthi r)
    ∧ HiLoResult (.mthi r) (fun h l => h = s.reg r ∧ l = s.lo) s
    ∧ decode (packR r 0 0 0 0b010011) = .instr (.mtlo r)
    ∧ HiLoResult (.mtlo r) (fun h l => h = s.hi ∧ l = s.reg r) s

/-! ## Logical, shift and compare -/

/-- R181 to R184. -/
def Obligations.BitwiseRegister : Prop :=
  ∀ (rd rs rt : Reg) (s : State),
    decode (packR rs rt rd 0 0b100101) = .instr (.or rd rs rt) ∧ RegResult (.or rd rs rt) rd (s.reg rs ||| s.reg rt) s
    ∧ decode (packR rs rt rd 0 0b100100) = .instr (.and rd rs rt)
    ∧ RegResult (.and rd rs rt) rd (s.reg rs &&& s.reg rt) s
    ∧ decode (packR rs rt rd 0 0b100110) = .instr (.xor rd rs rt)
    ∧ RegResult (.xor rd rs rt) rd (s.reg rs ^^^ s.reg rt) s
    ∧ decode (packR rs rt rd 0 0b100111) = .instr (.nor rd rs rt)
    ∧ RegResult (.nor rd rs rt) rd (~~~(s.reg rs ||| s.reg rt)) s

/-- R185 to R187: the immediate is zero-extended. -/
def Obligations.BitwiseImmediate : Prop :=
  ∀ (rt rs : Reg) (imm : Half) (s : State),
    decode (packI 0b001101 rs rt imm) = .instr (.ori rt rs imm)
    ∧ RegResult (.ori rt rs imm) rt (s.reg rs ||| (0#16 ++ imm)) s
    ∧ decode (packI 0b001100 rs rt imm) = .instr (.andi rt rs imm)
    ∧ RegResult (.andi rt rs imm) rt (s.reg rs &&& (0#16 ++ imm)) s
    ∧ decode (packI 0b001110 rs rt imm) = .instr (.xori rt rs imm)
    ∧ RegResult (.xori rt rs imm) rt (s.reg rs ^^^ (0#16 ++ imm)) s

/-- R188 to R190: the amount is the low five bits of `x[rs]`; the arithmetic shift rounds toward minus infinity. -/
def Obligations.VariableShifts : Prop :=
  ∀ (rd rt rs : Reg) (s : State),
    let n := (s.reg rs).toNat % 32
    decode (packR rs rt rd 0 0b000100) = .instr (.sllv rd rt rs) ∧ RegResult (.sllv rd rt rs) rd (s.reg rt <<< n) s
    ∧ decode (packR rs rt rd 0 0b000110) = .instr (.srlv rd rt rs)
    ∧ RegResult (.srlv rd rt rs) rd (s.reg rt >>> n) s
    ∧ decode (packR rs rt rd 0 0b000111) = .instr (.srav rd rt rs)
    ∧ RegResult (.srav rd rt rs) rd ((s.reg rt).sshiftRight n) s
    ∧ ((s.reg rt).sshiftRight n).toInt = (s.reg rt).toInt / 2 ^ n

/-- R191 to R193: the amount is the field, 0 to 31 (R94). -/
def Obligations.ConstantShifts : Prop :=
  ∀ (rd rt : Reg) (n : Nat) (s : State), n < 32 →
    decode (packR 0 rt rd (BitVec.ofNat 5 n) 0b000000) = .instr (.sll rd rt n)
    ∧ RegResult (.sll rd rt n) rd (s.reg rt <<< n) s
    ∧ decode (packR 0 rt rd (BitVec.ofNat 5 n) 0b000010) = .instr (.srl rd rt n)
    ∧ RegResult (.srl rd rt n) rd (s.reg rt >>> n) s
    ∧ decode (packR 0 rt rd (BitVec.ofNat 5 n) 0b000011) = .instr (.sra rd rt n)
    ∧ RegResult (.sra rd rt n) rd ((s.reg rt).sshiftRight n) s
    ∧ ∀ k, k < 32 → ((s.reg rt).sshiftRight n).getLsbD k
        = if k + n < 32 then (s.reg rt).getLsbD (k + n) else (s.reg rt).getLsbD 31

/-- R194 to R197: signed and unsigned comparison; the immediate is sign-extended in both. -/
def Obligations.Comparisons : Prop :=
  ∀ (rd rs rt : Reg) (imm : Half) (s : State),
    decode (packR rs rt rd 0 0b101010) = .instr (.slt rd rs rt)
    ∧ RegResult (.slt rd rs rt) rd (if (s.reg rs).toInt < (s.reg rt).toInt then 1 else 0) s
    ∧ decode (packR rs rt rd 0 0b101011) = .instr (.sltu rd rs rt)
    ∧ RegResult (.sltu rd rs rt) rd (if (s.reg rs).toNat < (s.reg rt).toNat then 1 else 0) s
    ∧ decode (packI 0b001010 rs rt imm) = .instr (.slti rt rs imm)
    ∧ RegResult (.slti rt rs imm) rt (if (s.reg rs).toInt < imm.toInt then 1 else 0) s
    ∧ decode (packI 0b001011 rs rt imm) = .instr (.sltiu rt rs imm)
    ∧ RegResult (.sltiu rt rs imm) rt (if (s.reg rs).toNat < (imm.signExtend 32 : Word).toNat then 1 else 0) s

/-! ## Loads and stores -/

/-- R126. Of the hypotheses of this statement and the next three: `guarded` and `reversed` are false in every state of the
default model (R53, R62); where one is true, `UserModeAccesses` speaks. -/
def Obligations.LoadWord : Prop :=
  ∀ (rt rs : Reg) (imm : Half) (s : State), s.guarded = false → s.reversed = false →
    let a := s.reg rs + imm.signExtend 32
    decode (packI 0b100011 rs rt imm) = .instr (.lw rt imm rs)
    ∧ LoadRule (.lw rt imm rs) rt a 4 (wordAt s.params.endian s a) (a.toNat % 4 ≠ 0) s

/-- R128, R129, R131, R132. -/
def Obligations.LoadHalfAndByte : Prop :=
  ∀ (rt rs : Reg) (imm : Half) (s : State), s.guarded = false → s.reversed = false →
    let a := s.reg rs + imm.signExtend 32
    decode (packI 0b100001 rs rt imm) = .instr (.lh rt imm rs)
    ∧ LoadRule (.lh rt imm rs) rt a 2 ((halfAt s.params.endian s a).signExtend 32) (a.toNat % 2 ≠ 0) s
    ∧ decode (packI 0b100101 rs rt imm) = .instr (.lhu rt imm rs)
    ∧ LoadRule (.lhu rt imm rs) rt a 2 (0#16 ++ halfAt s.params.endian s a) (a.toNat % 2 ≠ 0) s
    ∧ decode (packI 0b100000 rs rt imm) = .instr (.lb rt imm rs)
    ∧ LoadRule (.lb rt imm rs) rt a 1 ((s.byteAt a).signExtend 32) False s
    ∧ decode (packI 0b100100 rs rt imm) = .instr (.lbu rt imm rs)
    ∧ LoadRule (.lbu rt imm rs) rt a 1 (0#24 ++ s.byteAt a) False s

/-- R127. -/
def Obligations.StoreWord : Prop :=
  ∀ (rt rs : Reg) (imm : Half) (s : State), s.guarded = false → s.reversed = false →
    let a := s.reg rs + imm.signExtend 32
    decode (packI 0b101011 rs rt imm) = .instr (.sw rt imm rs)
    ∧ StoreRule s.params.endian (.sw rt imm rs) a 4 (s.reg rt) (a.toNat % 4 ≠ 0) s

/-- R130, R133: the low-order bits of the register. -/
def Obligations.StoreHalfAndByte : Prop :=
  ∀ (rt rs : Reg) (imm : Half) (s : State), s.guarded = false → s.reversed = false →
    let a := s.reg rs + imm.signExtend 32
    decode (packI 0b101001 rs rt imm) = .instr (.sh rt imm rs)
    ∧ StoreRule s.params.endian (.sh rt imm rs) a 2 (s.reg rt) (a.toNat % 2 ≠ 0) s
    ∧ decode (packI 0b101000 rs rt imm) = .instr (.sb rt imm rs)
    ∧ StoreRule s.params.endian (.sb rt imm rs) a 1 (s.reg rt) False s

/-- Fetch, loads and stores in user mode under r3000, in each reading: with `guardKernel` a kernel address is an address
error (R251; log 15), without it every address is used as is (R62); with `reReverses`, `RE` reverses the byte order
(R247; log 14), without it nothing does (R53). -/
def Obligations.UserModeAccesses : Prop :=
  ∀ (rt rs : Reg) (imm : Half) (s : State), s.userMode = true →
    let a := s.reg rs + imm.signExtend 32
    let e := userOrder s
    let kernel (x : Word) : Prop := s.params.guardKernel = true ∧ x.msb = true
    LoadRule (.lw rt imm rs) rt a 4 (wordAt e s a) (a.toNat % 4 ≠ 0 ∨ kernel a) s
    ∧ LoadRule (.lh rt imm rs) rt a 2 ((halfAt e s a).signExtend 32) (a.toNat % 2 ≠ 0 ∨ kernel a) s
    ∧ LoadRule (.lhu rt imm rs) rt a 2 (0#16 ++ halfAt e s a) (a.toNat % 2 ≠ 0 ∨ kernel a) s
    ∧ LoadRule (.lb rt imm rs) rt a 1 ((s.byteAt a).signExtend 32) (kernel a) s
    ∧ LoadRule (.lbu rt imm rs) rt a 1 (0#24 ++ s.byteAt a) (kernel a) s
    ∧ StoreRule e (.sw rt imm rs) a 4 (s.reg rt) (a.toNat % 4 ≠ 0 ∨ kernel a) s
    ∧ StoreRule e (.sh rt imm rs) a 2 (s.reg rt) (a.toNat % 2 ≠ 0 ∨ kernel a) s
    ∧ StoreRule e (.sb rt imm rs) a 1 (s.reg rt) (kernel a) s
    ∧ (s.status = .running → s.interruptDue = false →
        (s.pc.toNat % 4 ≠ 0 ∨ kernel s.pc → Raises (step s) (.addressErrorFetch s.pc) s)
        ∧ (s.pc.toNat % 4 = 0 → ¬kernel s.pc → MissesByte s.allocated s.pc 4 →
            Raises (step s) (.busErrorFetch s.pc) s)
        ∧ (s.pc.toNat % 4 = 0 → ¬kernel s.pc → AllBytes s.allocated s.pc 4 → s.params.smc = .refuse →
            MissesByte s.inText s.pc 4 → Raises (step s) (.fetchOutsideText s.pc) s)
        ∧ (s.pc.toNat % 4 = 0 → ¬kernel s.pc → AllBytes s.allocated s.pc 4 →
            (s.params.smc = .refuse → AllBytes s.inText s.pc 4) →
            s.fetched = wordAt e s s.pc ∧ step s = runWord (wordAt e s s.pc) s))

/-- R54: the bytes and halfwords of a word just stored, in the numbers of the rule. -/
def Obligations.MixedWidths : Prop :=
  ∀ (rt rs : Reg) (imm : Half) (s : State), s.guarded = false → s.reversed = false →
    let a := s.reg rs + imm.signExtend 32
    s.reg rt = 0x11223344 → a.toNat % 4 = 0 → AllBytes s.allocated a 4 →
    (s.params.smc = .refuse → AllBytes (fun x => !s.inText x) a 4) →
    NextIs (exec (.sw rt imm rs) s) fun t =>
      ∀ (k q : Reg) (d : Half),
        let at_ := t.reg k + d.signExtend 32
        (s.params.endian = .little →
          (at_ = a → RegResult (.lbu q d k) q 0x44 t ∧ RegResult (.lhu q d k) q 0x3344 t)
            ∧ (at_ = up a 1 → RegResult (.lbu q d k) q 0x33 t)
            ∧ (at_ = up a 2 → RegResult (.lbu q d k) q 0x22 t ∧ RegResult (.lhu q d k) q 0x1122 t)
            ∧ (at_ = up a 3 → RegResult (.lbu q d k) q 0x11 t))
        ∧ (s.params.endian = .big →
          (at_ = a → RegResult (.lbu q d k) q 0x11 t ∧ RegResult (.lhu q d k) q 0x1122 t)
            ∧ (at_ = up a 1 → RegResult (.lbu q d k) q 0x22 t)
            ∧ (at_ = up a 2 → RegResult (.lbu q d k) q 0x33 t ∧ RegResult (.lhu q d k) q 0x3344 t)
            ∧ (at_ = up a 3 → RegResult (.lbu q d k) q 0x44 t))

/-- R67: with `SMC = coherent` a stored word is fetched as stored, by the very next step if `pc` is there. -/
def Obligations.CoherentStoreIsFetched : Prop :=
  ∀ (rt rs : Reg) (imm : Half) (s : State), s.guarded = false → s.reversed = false → s.params.smc = .coherent →
    let a := s.reg rs + imm.signExtend 32
    a.toNat % 4 = 0 → AllBytes s.allocated a 4 →
    NextIs (exec (.sw rt imm rs) s) fun t =>
      (t.setPc a).fetchExc = none ∧ (t.setPc a).fetched = s.reg rt

/-! ## Branches and jumps -/

/-- R142 to R147. -/
def Obligations.Branches : Prop :=
  ∀ (rs rt : Reg) (imm : Half) (s : State),
    let offset : Word := imm.signExtend 32 <<< 2
    let target := s.pc + 4 + offset
    let next := s.pc + 4
    let a := s.reg rs
    decode (packI 0b000100 rs rt imm) = .instr (.beq rs rt imm)
    ∧ GoesTo (.beq rs rt imm) (if a = s.reg rt then target else next) s
    ∧ decode (packI 0b000101 rs rt imm) = .instr (.bne rs rt imm)
    ∧ GoesTo (.bne rs rt imm) (if a = s.reg rt then next else target) s
    ∧ decode (packI 0b000001 rs 0b00001 imm) = .instr (.bgez rs imm)
    ∧ GoesTo (.bgez rs imm) (if 0 ≤ a.toInt then target else next) s
    ∧ decode (packI 0b000111 rs 0b00000 imm) = .instr (.bgtz rs imm)
    ∧ GoesTo (.bgtz rs imm) (if 0 < a.toInt then target else next) s
    ∧ decode (packI 0b000110 rs 0b00000 imm) = .instr (.blez rs imm)
    ∧ GoesTo (.blez rs imm) (if a.toInt ≤ 0 then target else next) s
    ∧ decode (packI 0b000001 rs 0b00000 imm) = .instr (.bltz rs imm)
    ∧ GoesTo (.bltz rs imm) (if a.toInt < 0 then target else next) s

/-- R148, R149: the link is written whether or not the branch is taken; the condition reads the old register. -/
def Obligations.LinkingBranches : Prop :=
  ∀ (rs : Reg) (imm : Half) (s : State),
    let offset : Word := imm.signExtend 32 <<< 2
    let target := s.pc + 4 + offset
    decode (packI 0b000001 rs 0b10001 imm) = .instr (.bgezal rs imm)
    ∧ LinksTo (.bgezal rs imm) 31 (if 0 ≤ (s.reg rs).toInt then target else s.pc + 4) s
    ∧ decode (packI 0b000001 rs 0b10000 imm) = .instr (.bltzal rs imm)
    ∧ LinksTo (.bltzal rs imm) 31 (if (s.reg rs).toInt < 0 then target else s.pc + 4) s

/-- R150, R151: the region of `pc + 4`, the field, two zeros. -/
def Obligations.JumpsToField : Prop :=
  ∀ (addr26 : BitVec 26) (s : State),
    let target : Word := (s.pc + 4).extractLsb' 28 4 ++ addr26 ++ 0#2
    decode (packJ 0b000010 addr26) = .instr (.j addr26) ∧ GoesTo (.j addr26) target s
    ∧ decode (packJ 0b000011 addr26) = .instr (.jal addr26) ∧ LinksTo (.jal addr26) 31 target s

/-- R152 to R154: the target is the old value of the register. -/
def Obligations.JumpsToRegister : Prop :=
  ∀ (rd rs : Reg) (s : State),
    decode (packR rs 0 0 0 0b001000) = .instr (.jr rs) ∧ GoesTo (.jr rs) (s.reg rs) s
    ∧ decode (packR rs 0 rd 0 0b001001) = .instr (.jalr rd rs) ∧ LinksTo (.jalr rd rs) rd (s.reg rs) s
    ∧ decode (packR rs 0 0b11111 0 0b001001) = .instr (.jalr 31 rs) ∧ LinksTo (.jalr 31 rs) 31 (s.reg rs) s

/-! ## System calls, with `TRAP_MODEL = fault` -/

/-- R213: service 4 appends the bytes up to the first zero byte, or raises at the first byte that does not exist. -/
def Obligations.ServicePrintString : Prop :=
  ∀ (s : State) (n : Nat), s.params.trapModel = .fault → s.reg 2 = 4 →
    let a := s.reg 4
    (∀ j, j < n → s.allocated (up a j) = true ∧ s.byteAt (up a j) ≠ 0) →
    (s.allocated (up a n) = true → s.byteAt (up a n) = 0 →
      NextIs (exec .syscall s) fun t =>
        t.out = s.out ++ [.printString ((List.range n).map fun j => s.byteAt (up a j))] ∧ t.pc = s.pc + 4
          ∧ SameRegs s t ∧ SameHiLo s t ∧ SameMem s t ∧ SameFixed s t ∧ t.input = s.input ∧ t.status = s.status)
    ∧ (s.allocated (up a n) = false → Raises (exec .syscall s) (.busErrorLoad (up a n)) s)

/-- R212, R214: service 1 appends the integer to `out` and changes nothing else (R222); service 5 puts the environment's
answer in `x[2]` and in the event. The answer is the head of `in`, which is taken off, or, where `in` is empty, the next
free value: the model's form of the oracle (logs 5, 6). -/
def Obligations.IntegerServices : Prop :=
  ∀ s : State, s.params.trapModel = .fault →
    (s.reg 2 = 1 →
      NextIs (exec .syscall s) fun t =>
        t.out = s.out ++ [.printInt (s.reg 4)] ∧ t.pc = s.pc + 4 ∧ SameRegs s t ∧ SameHiLo s t ∧ SameMem s t
          ∧ SameFixed s t ∧ t.input = s.input ∧ t.status = s.status)
    ∧ (s.reg 2 = 5 →
      NextIs (exec .syscall s) fun t =>
        t.out = s.out ++ [.readInt (t.reg 2)] ∧ t.pc = s.pc + 4 ∧ (∀ q, q ≠ 2 → t.reg q = s.reg q) ∧ SameHiLo s t
          ∧ SameMem s t ∧ SameFixed s t ∧ t.status = s.status
          ∧ (∀ v vs, s.input = v :: vs → t.reg 2 = v ∧ t.input = vs ∧ t.draws = s.draws)
          ∧ (s.input = [] → t.reg 2 = Config.draw s.draws ∧ t.input = [] ∧ t.draws = s.draws + 1))

/-- R215: service 8 writes the buffer and no byte outside it; the event carries the bytes written; an error where a byte
does not exist or lies in the text image, and then no byte is written. The model's own: the error names the first byte
that does not exist, and only if there is none, the first in the text image (log 21); byte `k` is the low byte of answer
`k` of `in`, as far as `in` reaches, and those answers are taken off (log 6). -/
def Obligations.ServiceReadString : Prop :=
  ∀ (s : State) (j : Nat), s.params.trapModel = .fault → s.reg 2 = 8 →
    let a := s.reg 4
    let n := (s.reg 5).toNat
    (AllBytes s.allocated a n → (s.params.smc = .refuse → AllBytes (fun x => !s.inText x) a n) →
      NextIs (exec .syscall s) fun t =>
        t.out = s.out ++ [.readString a n ((List.range n).map fun k => t.byteAt (up a k))] ∧ t.pc = s.pc + 4
          ∧ (∀ x, (∀ k, k < n → x ≠ up a k) → t.byteAt x = s.byteAt x)
          ∧ SameRegs s t ∧ SameHiLo s t ∧ SameFixed s t ∧ t.status = s.status
          ∧ (∀ k v, k < n → s.input[k]? = some v → t.byteAt (up a k) = v.setWidth 8) ∧ t.input = s.input.drop n)
    ∧ (j < n → AllBytes s.allocated a j → s.allocated (up a j) = false →
        Raises (exec .syscall s) (.busErrorStore (up a j)) s)
    ∧ (j < n → AllBytes s.allocated a n → s.params.smc = .refuse → AllBytes (fun x => !s.inText x) a j →
        s.inText (up a j) = true → Raises (exec .syscall s) (.storeToText (up a j)) s)

/-- R216: service 10 ends the run: the event, the status, `pc` kept; and no further step is taken. -/
def Obligations.ServiceExit : Prop :=
  ∀ s : State, s.params.trapModel = .fault → s.reg 2 = 10 →
    NextIs (exec .syscall s) fun t =>
      t.out = s.out ++ [.exit] ∧ t.status = .exited ∧ t.final = true ∧ t.pc = s.pc ∧ SameRegs s t ∧ SameHiLo s t
        ∧ SameMem s t ∧ SameFixed s t ∧ t.input = s.input ∧ ∀ n, t.after n = t

/-- R217, R210: the whole of `x[2]` is the code; any code but the five raises `UnknownService`. -/
def Obligations.UnknownServiceRaises : Prop :=
  decode 0x0000000C = .instr .syscall
    ∧ ∀ s : State, s.params.trapModel = .fault →
        s.reg 2 ≠ 1 → s.reg 2 ≠ 4 → s.reg 2 ≠ 5 → s.reg 2 ≠ 8 → s.reg 2 ≠ 10 →
        Raises (exec .syscall s) (.unknownService (s.reg 2)) s

/-! ## The assembler and the loader -/

/-- R92, R93: the field of a label exists exactly in the rule's range, and then the instruction goes to the label. -/
def Obligations.LabelFields : Prop :=
  (∀ p l : Word, (branchField p l).isSome = true ↔
      (l - (p + 4)).toInt % 4 = 0 ∧ -2 ^ 17 ≤ (l - (p + 4)).toInt ∧ (l - (p + 4)).toInt ≤ 2 ^ 17 - 4)
    ∧ (∀ (p l : Word) (imm : Half), branchField p l = some imm ↔
        let offset : Word := imm.signExtend 32 <<< 2
        p + 4 + offset = l)
    ∧ (∀ p l : Word, (jumpField p l).isSome = true ↔
        l.extractLsb' 0 2 = 0#2 ∧ l.extractLsb' 28 4 = (p + 4).extractLsb' 28 4)
    ∧ ∀ (p l : Word) (a : BitVec 26), jumpField p l = some a ↔
        ((p + 4).extractLsb' 28 4 ++ a ++ 0#2 : Word) = l

/-- R35, R260: the launch state of an image, whatever the unspecified values are. It meets the invariant if the image
lies in the address space. If moreover no two placements overlap, memory holds the program: each word at its address in
the byte order, each data byte at its address, and every other byte its unspecified value (R35, R261; what overlapping
placements leave is log 28 and not spoken of). Of coprocessor 0 the invariant rests on the model's values (log 19). -/
def Obligations.LaunchState : Prop :=
  ∀ (p : Params) (img : Image) (d : LaunchDraws),
    let s := launch p img d
    s.pc = p.entry ∧ s.reg 29 = p.stackTop ∧ s.reg 0 = 0 ∧ (∀ q : Reg, q ≠ 0 → q ≠ 29 → s.reg q = d.gpr[q.val])
      ∧ s.hi = d.hi ∧ s.lo = d.lo ∧ s.out = [] ∧ s.status = .running ∧ s.text = img.text ∧ s.data = img.data
      ∧ s.params = p
      ∧ ((∀ c ∈ img.code, c.1 + 4 ≤ 2 ^ 32) → (∀ c ∈ img.bytes, c.1 < 2 ^ 32) →
          s.Inv
            ∧ (NoOverlap img →
                (∀ c ∈ img.code, wordAt p.endian s (BitVec.ofNat 32 c.1) = c.2)
                  ∧ (∀ b ∈ img.bytes, s.byteAt (BitVec.ofNat 32 b.1) = b.2)
                  ∧ ∀ a : Word, (∀ c ∈ img.code, a.toNat < c.1 ∨ c.1 + 4 ≤ a.toNat) →
                      (∀ b ∈ img.bytes, b.1 ≠ a.toNat) →
                      s.byteAt a = Config.launchByte a))

/-- R261: a program of any number of instructions, assembled under `.text` and launched, has them at consecutive word
addresses from `TEXT_BASE`, in either byte order: a step at the place of each one runs it, and the run starts at the
first. Under r3000 that no interrupt comes first rests on the model's launch with interrupts off (log 19). -/
def Obligations.LoadedInstructionRuns : Prop :=
  ∀ (p : Params) (is : List Instr) (d : LaunchDraws), (∀ i ∈ is, i.wf = true) → p.textBase.toNat % 4 = 0 →
    p.textBase.toNat + 4 * is.length ≤ 2 ^ 32 → p.entry = p.textBase →
    ∃ s, load? p (.text none :: is.map .instr) d = some s ∧ s.pc = p.textBase
      ∧ ∀ (k : Nat) (i : Instr), is[k]? = some i →
          (s.setPc (up p.textBase (4 * k))).fetched = encode i
            ∧ step (s.setPc (up p.textBase (4 * k))) = exec i (s.setPc (up p.textBase (4 * k)))
end

