-- ==== Sys2Proof/Laws/Encoding.lean ====
section
/-! SUPPORT. The fields of a packed word are what was packed, and a word is packed from its own fields
(spec/30_encoding.md R81 to R83). -/

namespace Sys2Proof

/-! ### Words as numbers -/

theorem toNat_append_eq {m n : Nat} (x : BitVec m) (y : BitVec n) : (x ++ y).toNat = x.toNat * 2 ^ n + y.toNat := by
  rw [BitVec.toNat_append, ← Nat.shiftLeft_add_eq_or_of_lt y.isLt, Nat.shiftLeft_eq]

theorem toNat_extract_eq {n : Nat} (x : BitVec n) (lo len : Nat) :
    (x.extractLsb' lo len).toNat = x.toNat / 2 ^ lo % 2 ^ len := by
  rw [BitVec.extractLsb'_toNat, Nat.shiftRight_eq_div_pow]

theorem regBits_toNat (r : Reg) : (regBits r).toNat = r.val := rfl

theorem packR_toNat (rs rt rd : Reg) (shamt : BitVec 5) (funct : BitVec 6) :
    (packR rs rt rd shamt funct).toNat
      = rs.val * 2 ^ 21 + rt.val * 2 ^ 16 + rd.val * 2 ^ 11 + shamt.toNat * 2 ^ 6 + funct.toNat := by
  simp only [packR, toNat_append_eq, regBits_toNat, BitVec.reduceToNat]
  omega

theorem packI_toNat (op : BitVec 6) (rs rt : Reg) (imm : Half) :
    (packI op rs rt imm).toNat = op.toNat * 2 ^ 26 + rs.val * 2 ^ 21 + rt.val * 2 ^ 16 + imm.toNat := by
  simp only [packI, toNat_append_eq, regBits_toNat]
  omega

theorem packJ_toNat (op : BitVec 6) (a : BitVec 26) : (packJ op a).toNat = op.toNat * 2 ^ 26 + a.toNat :=
  toNat_append_eq op a

theorem opField_toNat (w : Word) : (opField w).toNat = w.toNat / 2 ^ 26 := by
  rw [opField, toNat_extract_eq]; have := w.isLt; omega

theorem shamtField_toNat (w : Word) : (shamtField w).toNat = w.toNat / 2 ^ 6 % 2 ^ 5 := toNat_extract_eq w 6 5

theorem functField_toNat (w : Word) : (functField w).toNat = w.toNat % 2 ^ 6 := by
  rw [functField, toNat_extract_eq]; omega

theorem immField_toNat (w : Word) : (immField w).toNat = w.toNat % 2 ^ 16 := by
  rw [immField, toNat_extract_eq]; omega

theorem addrField_toNat (w : Word) : (addrField w).toNat = w.toNat % 2 ^ 26 := by
  rw [addrField, toNat_extract_eq]; omega

theorem rsField_val (w : Word) : (rsField w).val = w.toNat / 2 ^ 21 % 2 ^ 5 := toNat_extract_eq w 21 5
theorem rtField_val (w : Word) : (rtField w).val = w.toNat / 2 ^ 16 % 2 ^ 5 := toNat_extract_eq w 16 5
theorem rdField_val (w : Word) : (rdField w).val = w.toNat / 2 ^ 11 % 2 ^ 5 := toNat_extract_eq w 11 5

/-! ### Fields of a packed word -/

section R
variable (rs rt rd : Reg) (shamt : BitVec 5) (funct : BitVec 6)

@[simp] theorem packR_op : opField (packR rs rt rd shamt funct) = 0 := by
  apply BitVec.eq_of_toNat_eq
  rw [opField_toNat, packR_toNat]; have := rs.isLt; have := rt.isLt; have := rd.isLt; have := shamt.isLt; have := funct.isLt
  simp only [BitVec.reduceToNat]; omega

@[simp] theorem packR_rs : rsField (packR rs rt rd shamt funct) = rs := by
  apply Fin.ext
  rw [rsField_val, packR_toNat]; have := rs.isLt; have := rt.isLt; have := rd.isLt; have := shamt.isLt; have := funct.isLt
  omega

@[simp] theorem packR_rt : rtField (packR rs rt rd shamt funct) = rt := by
  apply Fin.ext
  rw [rtField_val, packR_toNat]; have := rs.isLt; have := rt.isLt; have := rd.isLt; have := shamt.isLt; have := funct.isLt
  omega

@[simp] theorem packR_rd : rdField (packR rs rt rd shamt funct) = rd := by
  apply Fin.ext
  rw [rdField_val, packR_toNat]; have := rs.isLt; have := rt.isLt; have := rd.isLt; have := shamt.isLt; have := funct.isLt
  omega

@[simp] theorem packR_shamt : shamtField (packR rs rt rd shamt funct) = shamt := by
  apply BitVec.eq_of_toNat_eq
  rw [shamtField_toNat, packR_toNat]; have := shamt.isLt; have := funct.isLt
  omega

@[simp] theorem packR_funct : functField (packR rs rt rd shamt funct) = funct := by
  apply BitVec.eq_of_toNat_eq
  rw [functField_toNat, packR_toNat]; have := funct.isLt
  omega

end R

section I
variable (op : BitVec 6) (rs rt : Reg) (imm : Half)

@[simp] theorem packI_op : opField (packI op rs rt imm) = op := by
  apply BitVec.eq_of_toNat_eq
  rw [opField_toNat, packI_toNat]; have := rs.isLt; have := rt.isLt; have := imm.isLt
  omega

@[simp] theorem packI_rs : rsField (packI op rs rt imm) = rs := by
  apply Fin.ext
  rw [rsField_val, packI_toNat]; have := rs.isLt; have := rt.isLt; have := imm.isLt
  omega

@[simp] theorem packI_rt : rtField (packI op rs rt imm) = rt := by
  apply Fin.ext
  rw [rtField_val, packI_toNat]; have := rt.isLt; have := imm.isLt
  omega

@[simp] theorem packI_imm : immField (packI op rs rt imm) = imm := by
  apply BitVec.eq_of_toNat_eq
  rw [immField_toNat, packI_toNat]; have := imm.isLt
  omega

end I

section J
variable (op : BitVec 6) (a : BitVec 26)

@[simp] theorem packJ_op : opField (packJ op a) = op := by
  apply BitVec.eq_of_toNat_eq
  rw [opField_toNat, packJ_toNat]; have := a.isLt
  omega

@[simp] theorem packJ_addr : addrField (packJ op a) = a := by
  apply BitVec.eq_of_toNat_eq
  rw [addrField_toNat, packJ_toNat]; have := a.isLt
  omega

end J

/-! ### A word from its own fields -/

theorem packR_fields {w : Word} (h : opField w = 0) :
    packR (rsField w) (rtField w) (rdField w) (shamtField w) (functField w) = w := by
  apply BitVec.eq_of_toNat_eq
  have hop : w.toNat / 2 ^ 26 = 0 := by rw [← opField_toNat, h]; rfl
  rw [packR_toNat, rsField_val, rtField_val, rdField_val, shamtField_toNat, functField_toNat]
  omega

theorem packI_fields (w : Word) : packI (opField w) (rsField w) (rtField w) (immField w) = w := by
  apply BitVec.eq_of_toNat_eq
  rw [packI_toNat, rsField_val, rtField_val, opField_toNat, immField_toNat]
  omega

theorem packJ_fields (w : Word) : packJ (opField w) (addrField w) = w := by
  apply BitVec.eq_of_toNat_eq
  rw [packJ_toNat, opField_toNat, addrField_toNat]
  omega

/-! ### The maps, cell by cell -/

/-- A cell of CODE OP that is not blank fixes the opcode: no opcode stands in two cells (R85). -/
theorem codeOp_injective : ∀ a b : BitVec 6, codeOp a = codeOp b → codeOp a ≠ .blank → a = b := by decide

/-- A cell of SPECIAL that is not blank fixes the function code (R86). -/
theorem functOf_injective : ∀ a b : BitVec 6, functOf a = functOf b → functOf a ≠ .blank → a = b := by decide

end Sys2Proof
end

