-- ==== Sys2Proof/Laws/State.lean ====
section
/-! SUPPORT. One lemma per field per update of the state, and per read that the update does not touch, all true by
rfl: later proofs rewrite with these and do not unfold an update. -/

namespace Sys2Proof.Machine

variable (s : State)

/-! ### `setReg` -/

@[simp] theorem setReg_params (r : Reg) (v : Word) : (s.setReg r v).params = s.params := rfl
@[simp] theorem setReg_hi (r : Reg) (v : Word) : (s.setReg r v).hi = s.hi := rfl
@[simp] theorem setReg_lo (r : Reg) (v : Word) : (s.setReg r v).lo = s.lo := rfl
@[simp] theorem setReg_pc (r : Reg) (v : Word) : (s.setReg r v).pc = s.pc := rfl
@[simp] theorem setReg_mem (r : Reg) (v : Word) : (s.setReg r v).mem = s.mem := rfl
@[simp] theorem setReg_text (r : Reg) (v : Word) : (s.setReg r v).text = s.text := rfl
@[simp] theorem setReg_data (r : Reg) (v : Word) : (s.setReg r v).data = s.data := rfl
@[simp] theorem setReg_out (r : Reg) (v : Word) : (s.setReg r v).out = s.out := rfl
@[simp] theorem setReg_input (r : Reg) (v : Word) : (s.setReg r v).input = s.input := rfl
@[simp] theorem setReg_status (r : Reg) (v : Word) : (s.setReg r v).status = s.status := rfl
@[simp] theorem setReg_draws (r : Reg) (v : Word) : (s.setReg r v).draws = s.draws := rfl
@[simp] theorem setReg_cp0 (r : Reg) (v : Word) : (s.setReg r v).cp0 = s.cp0 := rfl
@[simp] theorem setReg_irq (r : Reg) (v : Word) : (s.setReg r v).irq = s.irq := rfl
@[simp] theorem setReg_byteAt (r : Reg) (v : Word) (x : Word) : (s.setReg r v).byteAt x = s.byteAt x := rfl
@[simp] theorem setReg_bytesAt (r : Reg) (v : Word) (x : Word) (n : Nat) : (s.setReg r v).bytesAt x n = s.bytesAt x n := by
  induction n generalizing x with
  | zero => rfl
  | succ n ih => exact congrArg _ (ih (x + 1))
@[simp] theorem setReg_inText (r : Reg) (v : Word) (x : Word) : (s.setReg r v).inText x = s.inText x := rfl
@[simp] theorem setReg_allocated (r : Reg) (v : Word) (x : Word) : (s.setReg r v).allocated x = s.allocated x := rfl
@[simp] theorem setReg_userMode (r : Reg) (v : Word) : (s.setReg r v).userMode = s.userMode := rfl
@[simp] theorem setReg_guarded (r : Reg) (v : Word) : (s.setReg r v).guarded = s.guarded := rfl
@[simp] theorem setReg_reversed (r : Reg) (v : Word) : (s.setReg r v).reversed = s.reversed := rfl
@[simp] theorem setReg_order (r : Reg) (v : Word) : (s.setReg r v).order = s.order := rfl
@[simp] theorem setReg_drawn (r : Reg) (v : Word) : (s.setReg r v).drawn = s.drawn := rfl
@[simp] theorem setReg_answer (r : Reg) (v : Word) : (s.setReg r v).answer = s.answer := rfl
@[simp] theorem setReg_trapVector (r : Reg) (v : Word) : (s.setReg r v).trapVector = s.trapVector := rfl
@[simp] theorem setReg_causeView (r : Reg) (v : Word) : (s.setReg r v).causeView = s.causeView := rfl
@[simp] theorem setReg_cp0Usable (r : Reg) (v : Word) : (s.setReg r v).cp0Usable = s.cp0Usable := rfl

/-! ### `setPc` -/

@[simp] theorem setPc_params (v : Word) : (s.setPc v).params = s.params := rfl
@[simp] theorem setPc_gpr (v : Word) : (s.setPc v).gpr = s.gpr := rfl
@[simp] theorem setPc_hi (v : Word) : (s.setPc v).hi = s.hi := rfl
@[simp] theorem setPc_lo (v : Word) : (s.setPc v).lo = s.lo := rfl
@[simp] theorem setPc_pc (v : Word) : (s.setPc v).pc = v := rfl
@[simp] theorem setPc_mem (v : Word) : (s.setPc v).mem = s.mem := rfl
@[simp] theorem setPc_text (v : Word) : (s.setPc v).text = s.text := rfl
@[simp] theorem setPc_data (v : Word) : (s.setPc v).data = s.data := rfl
@[simp] theorem setPc_out (v : Word) : (s.setPc v).out = s.out := rfl
@[simp] theorem setPc_input (v : Word) : (s.setPc v).input = s.input := rfl
@[simp] theorem setPc_status (v : Word) : (s.setPc v).status = s.status := rfl
@[simp] theorem setPc_draws (v : Word) : (s.setPc v).draws = s.draws := rfl
@[simp] theorem setPc_cp0 (v : Word) : (s.setPc v).cp0 = s.cp0 := rfl
@[simp] theorem setPc_irq (v : Word) : (s.setPc v).irq = s.irq := rfl
@[simp] theorem setPc_reg (v : Word) (q : Reg) : (s.setPc v).reg q = s.reg q := rfl
@[simp] theorem setPc_byteAt (v : Word) (x : Word) : (s.setPc v).byteAt x = s.byteAt x := rfl
@[simp] theorem setPc_bytesAt (v : Word) (x : Word) (n : Nat) : (s.setPc v).bytesAt x n = s.bytesAt x n := by
  induction n generalizing x with
  | zero => rfl
  | succ n ih => exact congrArg _ (ih (x + 1))
@[simp] theorem setPc_inText (v : Word) (x : Word) : (s.setPc v).inText x = s.inText x := rfl
@[simp] theorem setPc_allocated (v : Word) (x : Word) : (s.setPc v).allocated x = s.allocated x := rfl
@[simp] theorem setPc_userMode (v : Word) : (s.setPc v).userMode = s.userMode := rfl
@[simp] theorem setPc_guarded (v : Word) : (s.setPc v).guarded = s.guarded := rfl
@[simp] theorem setPc_reversed (v : Word) : (s.setPc v).reversed = s.reversed := rfl
@[simp] theorem setPc_order (v : Word) : (s.setPc v).order = s.order := rfl
@[simp] theorem setPc_drawn (v : Word) : (s.setPc v).drawn = s.drawn := rfl
@[simp] theorem setPc_answer (v : Word) : (s.setPc v).answer = s.answer := rfl
@[simp] theorem setPc_trapVector (v : Word) : (s.setPc v).trapVector = s.trapVector := rfl
@[simp] theorem setPc_causeView (v : Word) : (s.setPc v).causeView = s.causeView := rfl
@[simp] theorem setPc_cp0Usable (v : Word) : (s.setPc v).cp0Usable = s.cp0Usable := rfl

/-! ### `advance` -/

@[simp] theorem advance_params : (s.advance).params = s.params := rfl
@[simp] theorem advance_gpr : (s.advance).gpr = s.gpr := rfl
@[simp] theorem advance_hi : (s.advance).hi = s.hi := rfl
@[simp] theorem advance_lo : (s.advance).lo = s.lo := rfl
@[simp] theorem advance_pc : (s.advance).pc = nextPc s.pc := rfl
@[simp] theorem advance_mem : (s.advance).mem = s.mem := rfl
@[simp] theorem advance_text : (s.advance).text = s.text := rfl
@[simp] theorem advance_data : (s.advance).data = s.data := rfl
@[simp] theorem advance_out : (s.advance).out = s.out := rfl
@[simp] theorem advance_input : (s.advance).input = s.input := rfl
@[simp] theorem advance_status : (s.advance).status = s.status := rfl
@[simp] theorem advance_draws : (s.advance).draws = s.draws := rfl
@[simp] theorem advance_cp0 : (s.advance).cp0 = s.cp0 := rfl
@[simp] theorem advance_irq : (s.advance).irq = s.irq := rfl
@[simp] theorem advance_reg (q : Reg) : (s.advance).reg q = s.reg q := rfl
@[simp] theorem advance_byteAt (x : Word) : (s.advance).byteAt x = s.byteAt x := rfl
@[simp] theorem advance_bytesAt (x : Word) (n : Nat) : (s.advance).bytesAt x n = s.bytesAt x n := by
  induction n generalizing x with
  | zero => rfl
  | succ n ih => exact congrArg _ (ih (x + 1))
@[simp] theorem advance_inText (x : Word) : (s.advance).inText x = s.inText x := rfl
@[simp] theorem advance_allocated (x : Word) : (s.advance).allocated x = s.allocated x := rfl
@[simp] theorem advance_userMode : (s.advance).userMode = s.userMode := rfl
@[simp] theorem advance_guarded : (s.advance).guarded = s.guarded := rfl
@[simp] theorem advance_reversed : (s.advance).reversed = s.reversed := rfl
@[simp] theorem advance_order : (s.advance).order = s.order := rfl
@[simp] theorem advance_drawn : (s.advance).drawn = s.drawn := rfl
@[simp] theorem advance_answer : (s.advance).answer = s.answer := rfl
@[simp] theorem advance_trapVector : (s.advance).trapVector = s.trapVector := rfl
@[simp] theorem advance_causeView : (s.advance).causeView = s.causeView := rfl
@[simp] theorem advance_cp0Usable : (s.advance).cp0Usable = s.cp0Usable := rfl

/-! ### `setHi` -/

@[simp] theorem setHi_params (v : Word) : (s.setHi v).params = s.params := rfl
@[simp] theorem setHi_gpr (v : Word) : (s.setHi v).gpr = s.gpr := rfl
@[simp] theorem setHi_hi (v : Word) : (s.setHi v).hi = v := rfl
@[simp] theorem setHi_lo (v : Word) : (s.setHi v).lo = s.lo := rfl
@[simp] theorem setHi_pc (v : Word) : (s.setHi v).pc = s.pc := rfl
@[simp] theorem setHi_mem (v : Word) : (s.setHi v).mem = s.mem := rfl
@[simp] theorem setHi_text (v : Word) : (s.setHi v).text = s.text := rfl
@[simp] theorem setHi_data (v : Word) : (s.setHi v).data = s.data := rfl
@[simp] theorem setHi_out (v : Word) : (s.setHi v).out = s.out := rfl
@[simp] theorem setHi_input (v : Word) : (s.setHi v).input = s.input := rfl
@[simp] theorem setHi_status (v : Word) : (s.setHi v).status = s.status := rfl
@[simp] theorem setHi_draws (v : Word) : (s.setHi v).draws = s.draws := rfl
@[simp] theorem setHi_cp0 (v : Word) : (s.setHi v).cp0 = s.cp0 := rfl
@[simp] theorem setHi_irq (v : Word) : (s.setHi v).irq = s.irq := rfl
@[simp] theorem setHi_reg (v : Word) (q : Reg) : (s.setHi v).reg q = s.reg q := rfl
@[simp] theorem setHi_byteAt (v : Word) (x : Word) : (s.setHi v).byteAt x = s.byteAt x := rfl
@[simp] theorem setHi_bytesAt (v : Word) (x : Word) (n : Nat) : (s.setHi v).bytesAt x n = s.bytesAt x n := by
  induction n generalizing x with
  | zero => rfl
  | succ n ih => exact congrArg _ (ih (x + 1))
@[simp] theorem setHi_inText (v : Word) (x : Word) : (s.setHi v).inText x = s.inText x := rfl
@[simp] theorem setHi_allocated (v : Word) (x : Word) : (s.setHi v).allocated x = s.allocated x := rfl
@[simp] theorem setHi_userMode (v : Word) : (s.setHi v).userMode = s.userMode := rfl
@[simp] theorem setHi_guarded (v : Word) : (s.setHi v).guarded = s.guarded := rfl
@[simp] theorem setHi_reversed (v : Word) : (s.setHi v).reversed = s.reversed := rfl
@[simp] theorem setHi_order (v : Word) : (s.setHi v).order = s.order := rfl
@[simp] theorem setHi_drawn (v : Word) : (s.setHi v).drawn = s.drawn := rfl
@[simp] theorem setHi_answer (v : Word) : (s.setHi v).answer = s.answer := rfl
@[simp] theorem setHi_trapVector (v : Word) : (s.setHi v).trapVector = s.trapVector := rfl
@[simp] theorem setHi_causeView (v : Word) : (s.setHi v).causeView = s.causeView := rfl
@[simp] theorem setHi_cp0Usable (v : Word) : (s.setHi v).cp0Usable = s.cp0Usable := rfl

/-! ### `setLo` -/

@[simp] theorem setLo_params (v : Word) : (s.setLo v).params = s.params := rfl
@[simp] theorem setLo_gpr (v : Word) : (s.setLo v).gpr = s.gpr := rfl
@[simp] theorem setLo_hi (v : Word) : (s.setLo v).hi = s.hi := rfl
@[simp] theorem setLo_lo (v : Word) : (s.setLo v).lo = v := rfl
@[simp] theorem setLo_pc (v : Word) : (s.setLo v).pc = s.pc := rfl
@[simp] theorem setLo_mem (v : Word) : (s.setLo v).mem = s.mem := rfl
@[simp] theorem setLo_text (v : Word) : (s.setLo v).text = s.text := rfl
@[simp] theorem setLo_data (v : Word) : (s.setLo v).data = s.data := rfl
@[simp] theorem setLo_out (v : Word) : (s.setLo v).out = s.out := rfl
@[simp] theorem setLo_input (v : Word) : (s.setLo v).input = s.input := rfl
@[simp] theorem setLo_status (v : Word) : (s.setLo v).status = s.status := rfl
@[simp] theorem setLo_draws (v : Word) : (s.setLo v).draws = s.draws := rfl
@[simp] theorem setLo_cp0 (v : Word) : (s.setLo v).cp0 = s.cp0 := rfl
@[simp] theorem setLo_irq (v : Word) : (s.setLo v).irq = s.irq := rfl
@[simp] theorem setLo_reg (v : Word) (q : Reg) : (s.setLo v).reg q = s.reg q := rfl
@[simp] theorem setLo_byteAt (v : Word) (x : Word) : (s.setLo v).byteAt x = s.byteAt x := rfl
@[simp] theorem setLo_bytesAt (v : Word) (x : Word) (n : Nat) : (s.setLo v).bytesAt x n = s.bytesAt x n := by
  induction n generalizing x with
  | zero => rfl
  | succ n ih => exact congrArg _ (ih (x + 1))
@[simp] theorem setLo_inText (v : Word) (x : Word) : (s.setLo v).inText x = s.inText x := rfl
@[simp] theorem setLo_allocated (v : Word) (x : Word) : (s.setLo v).allocated x = s.allocated x := rfl
@[simp] theorem setLo_userMode (v : Word) : (s.setLo v).userMode = s.userMode := rfl
@[simp] theorem setLo_guarded (v : Word) : (s.setLo v).guarded = s.guarded := rfl
@[simp] theorem setLo_reversed (v : Word) : (s.setLo v).reversed = s.reversed := rfl
@[simp] theorem setLo_order (v : Word) : (s.setLo v).order = s.order := rfl
@[simp] theorem setLo_drawn (v : Word) : (s.setLo v).drawn = s.drawn := rfl
@[simp] theorem setLo_answer (v : Word) : (s.setLo v).answer = s.answer := rfl
@[simp] theorem setLo_trapVector (v : Word) : (s.setLo v).trapVector = s.trapVector := rfl
@[simp] theorem setLo_causeView (v : Word) : (s.setLo v).causeView = s.causeView := rfl
@[simp] theorem setLo_cp0Usable (v : Word) : (s.setLo v).cp0Usable = s.cp0Usable := rfl

/-! ### `setByte` -/

@[simp] theorem setByte_params (a : Word) (b : Byte) : (s.setByte a b).params = s.params := rfl
@[simp] theorem setByte_gpr (a : Word) (b : Byte) : (s.setByte a b).gpr = s.gpr := rfl
@[simp] theorem setByte_hi (a : Word) (b : Byte) : (s.setByte a b).hi = s.hi := rfl
@[simp] theorem setByte_lo (a : Word) (b : Byte) : (s.setByte a b).lo = s.lo := rfl
@[simp] theorem setByte_pc (a : Word) (b : Byte) : (s.setByte a b).pc = s.pc := rfl
@[simp] theorem setByte_mem (a : Word) (b : Byte) : (s.setByte a b).mem = memSet s.mem a.toNat b := rfl
@[simp] theorem setByte_text (a : Word) (b : Byte) : (s.setByte a b).text = s.text := rfl
@[simp] theorem setByte_data (a : Word) (b : Byte) : (s.setByte a b).data = s.data := rfl
@[simp] theorem setByte_out (a : Word) (b : Byte) : (s.setByte a b).out = s.out := rfl
@[simp] theorem setByte_input (a : Word) (b : Byte) : (s.setByte a b).input = s.input := rfl
@[simp] theorem setByte_status (a : Word) (b : Byte) : (s.setByte a b).status = s.status := rfl
@[simp] theorem setByte_draws (a : Word) (b : Byte) : (s.setByte a b).draws = s.draws := rfl
@[simp] theorem setByte_cp0 (a : Word) (b : Byte) : (s.setByte a b).cp0 = s.cp0 := rfl
@[simp] theorem setByte_irq (a : Word) (b : Byte) : (s.setByte a b).irq = s.irq := rfl
@[simp] theorem setByte_reg (a : Word) (b : Byte) (q : Reg) : (s.setByte a b).reg q = s.reg q := rfl
@[simp] theorem setByte_inText (a : Word) (b : Byte) (x : Word) : (s.setByte a b).inText x = s.inText x := rfl
@[simp] theorem setByte_allocated (a : Word) (b : Byte) (x : Word) : (s.setByte a b).allocated x = s.allocated x := rfl
@[simp] theorem setByte_userMode (a : Word) (b : Byte) : (s.setByte a b).userMode = s.userMode := rfl
@[simp] theorem setByte_guarded (a : Word) (b : Byte) : (s.setByte a b).guarded = s.guarded := rfl
@[simp] theorem setByte_reversed (a : Word) (b : Byte) : (s.setByte a b).reversed = s.reversed := rfl
@[simp] theorem setByte_order (a : Word) (b : Byte) : (s.setByte a b).order = s.order := rfl
@[simp] theorem setByte_drawn (a : Word) (b : Byte) : (s.setByte a b).drawn = s.drawn := rfl
@[simp] theorem setByte_answer (a : Word) (b : Byte) : (s.setByte a b).answer = s.answer := rfl
@[simp] theorem setByte_trapVector (a : Word) (b : Byte) : (s.setByte a b).trapVector = s.trapVector := rfl
@[simp] theorem setByte_causeView (a : Word) (b : Byte) : (s.setByte a b).causeView = s.causeView := rfl
@[simp] theorem setByte_cp0Usable (a : Word) (b : Byte) : (s.setByte a b).cp0Usable = s.cp0Usable := rfl

/-! ### `emit` -/

@[simp] theorem emit_params (e : Event) : (s.emit e).params = s.params := rfl
@[simp] theorem emit_gpr (e : Event) : (s.emit e).gpr = s.gpr := rfl
@[simp] theorem emit_hi (e : Event) : (s.emit e).hi = s.hi := rfl
@[simp] theorem emit_lo (e : Event) : (s.emit e).lo = s.lo := rfl
@[simp] theorem emit_pc (e : Event) : (s.emit e).pc = s.pc := rfl
@[simp] theorem emit_mem (e : Event) : (s.emit e).mem = s.mem := rfl
@[simp] theorem emit_text (e : Event) : (s.emit e).text = s.text := rfl
@[simp] theorem emit_data (e : Event) : (s.emit e).data = s.data := rfl
@[simp] theorem emit_out (e : Event) : (s.emit e).out = s.out ++ [e] := rfl
@[simp] theorem emit_input (e : Event) : (s.emit e).input = s.input := rfl
@[simp] theorem emit_status (e : Event) : (s.emit e).status = s.status := rfl
@[simp] theorem emit_draws (e : Event) : (s.emit e).draws = s.draws := rfl
@[simp] theorem emit_cp0 (e : Event) : (s.emit e).cp0 = s.cp0 := rfl
@[simp] theorem emit_irq (e : Event) : (s.emit e).irq = s.irq := rfl
@[simp] theorem emit_reg (e : Event) (q : Reg) : (s.emit e).reg q = s.reg q := rfl
@[simp] theorem emit_byteAt (e : Event) (x : Word) : (s.emit e).byteAt x = s.byteAt x := rfl
@[simp] theorem emit_bytesAt (e : Event) (x : Word) (n : Nat) : (s.emit e).bytesAt x n = s.bytesAt x n := by
  induction n generalizing x with
  | zero => rfl
  | succ n ih => exact congrArg _ (ih (x + 1))
@[simp] theorem emit_inText (e : Event) (x : Word) : (s.emit e).inText x = s.inText x := rfl
@[simp] theorem emit_allocated (e : Event) (x : Word) : (s.emit e).allocated x = s.allocated x := rfl
@[simp] theorem emit_userMode (e : Event) : (s.emit e).userMode = s.userMode := rfl
@[simp] theorem emit_guarded (e : Event) : (s.emit e).guarded = s.guarded := rfl
@[simp] theorem emit_reversed (e : Event) : (s.emit e).reversed = s.reversed := rfl
@[simp] theorem emit_order (e : Event) : (s.emit e).order = s.order := rfl
@[simp] theorem emit_drawn (e : Event) : (s.emit e).drawn = s.drawn := rfl
@[simp] theorem emit_answer (e : Event) : (s.emit e).answer = s.answer := rfl
@[simp] theorem emit_trapVector (e : Event) : (s.emit e).trapVector = s.trapVector := rfl
@[simp] theorem emit_causeView (e : Event) : (s.emit e).causeView = s.causeView := rfl
@[simp] theorem emit_cp0Usable (e : Event) : (s.emit e).cp0Usable = s.cp0Usable := rfl

/-! ### `skipDraws` -/

@[simp] theorem skipDraws_params (n : Nat) : (s.skipDraws n).params = s.params := rfl
@[simp] theorem skipDraws_gpr (n : Nat) : (s.skipDraws n).gpr = s.gpr := rfl
@[simp] theorem skipDraws_hi (n : Nat) : (s.skipDraws n).hi = s.hi := rfl
@[simp] theorem skipDraws_lo (n : Nat) : (s.skipDraws n).lo = s.lo := rfl
@[simp] theorem skipDraws_pc (n : Nat) : (s.skipDraws n).pc = s.pc := rfl
@[simp] theorem skipDraws_mem (n : Nat) : (s.skipDraws n).mem = s.mem := rfl
@[simp] theorem skipDraws_text (n : Nat) : (s.skipDraws n).text = s.text := rfl
@[simp] theorem skipDraws_data (n : Nat) : (s.skipDraws n).data = s.data := rfl
@[simp] theorem skipDraws_out (n : Nat) : (s.skipDraws n).out = s.out := rfl
@[simp] theorem skipDraws_input (n : Nat) : (s.skipDraws n).input = s.input := rfl
@[simp] theorem skipDraws_status (n : Nat) : (s.skipDraws n).status = s.status := rfl
@[simp] theorem skipDraws_draws (n : Nat) : (s.skipDraws n).draws = s.draws + n := rfl
@[simp] theorem skipDraws_cp0 (n : Nat) : (s.skipDraws n).cp0 = s.cp0 := rfl
@[simp] theorem skipDraws_irq (n : Nat) : (s.skipDraws n).irq = s.irq := rfl
@[simp] theorem skipDraws_reg (n : Nat) (q : Reg) : (s.skipDraws n).reg q = s.reg q := rfl
@[simp] theorem skipDraws_byteAt (n : Nat) (x : Word) : (s.skipDraws n).byteAt x = s.byteAt x := rfl
@[simp] theorem skipDraws_bytesAt (n : Nat) (x : Word) (k : Nat) : (s.skipDraws n).bytesAt x k = s.bytesAt x k := by
  induction k generalizing x with
  | zero => rfl
  | succ k ih => exact congrArg _ (ih (x + 1))
@[simp] theorem skipDraws_inText (n : Nat) (x : Word) : (s.skipDraws n).inText x = s.inText x := rfl
@[simp] theorem skipDraws_allocated (n : Nat) (x : Word) : (s.skipDraws n).allocated x = s.allocated x := rfl
@[simp] theorem skipDraws_userMode (n : Nat) : (s.skipDraws n).userMode = s.userMode := rfl
@[simp] theorem skipDraws_guarded (n : Nat) : (s.skipDraws n).guarded = s.guarded := rfl
@[simp] theorem skipDraws_reversed (n : Nat) : (s.skipDraws n).reversed = s.reversed := rfl
@[simp] theorem skipDraws_order (n : Nat) : (s.skipDraws n).order = s.order := rfl
@[simp] theorem skipDraws_trapVector (n : Nat) : (s.skipDraws n).trapVector = s.trapVector := rfl
@[simp] theorem skipDraws_causeView (n : Nat) : (s.skipDraws n).causeView = s.causeView := rfl
@[simp] theorem skipDraws_cp0Usable (n : Nat) : (s.skipDraws n).cp0Usable = s.cp0Usable := rfl

/-! ### `leaveTrap` -/

@[simp] theorem leaveTrap_params : (s.leaveTrap).params = s.params := rfl
@[simp] theorem leaveTrap_gpr : (s.leaveTrap).gpr = s.gpr := rfl
@[simp] theorem leaveTrap_hi : (s.leaveTrap).hi = s.hi := rfl
@[simp] theorem leaveTrap_lo : (s.leaveTrap).lo = s.lo := rfl
@[simp] theorem leaveTrap_pc : (s.leaveTrap).pc = s.pc := rfl
@[simp] theorem leaveTrap_mem : (s.leaveTrap).mem = s.mem := rfl
@[simp] theorem leaveTrap_text : (s.leaveTrap).text = s.text := rfl
@[simp] theorem leaveTrap_data : (s.leaveTrap).data = s.data := rfl
@[simp] theorem leaveTrap_out : (s.leaveTrap).out = s.out := rfl
@[simp] theorem leaveTrap_input : (s.leaveTrap).input = s.input := rfl
@[simp] theorem leaveTrap_status : (s.leaveTrap).status = s.status := rfl
@[simp] theorem leaveTrap_draws : (s.leaveTrap).draws = s.draws := rfl
@[simp] theorem leaveTrap_irq : (s.leaveTrap).irq = s.irq := rfl
@[simp] theorem leaveTrap_reg (q : Reg) : (s.leaveTrap).reg q = s.reg q := rfl
@[simp] theorem leaveTrap_byteAt (x : Word) : (s.leaveTrap).byteAt x = s.byteAt x := rfl
@[simp] theorem leaveTrap_bytesAt (x : Word) (n : Nat) : (s.leaveTrap).bytesAt x n = s.bytesAt x n := by
  induction n generalizing x with
  | zero => rfl
  | succ n ih => exact congrArg _ (ih (x + 1))
@[simp] theorem leaveTrap_inText (x : Word) : (s.leaveTrap).inText x = s.inText x := rfl
@[simp] theorem leaveTrap_allocated (x : Word) : (s.leaveTrap).allocated x = s.allocated x := rfl
@[simp] theorem leaveTrap_drawn : (s.leaveTrap).drawn = s.drawn := rfl
@[simp] theorem leaveTrap_answer : (s.leaveTrap).answer = s.answer := rfl

/-! ### `enterTrap` -/

@[simp] theorem enterTrap_params (e : Exc) (c : BitVec 5) : (s.enterTrap e c).params = s.params := rfl
@[simp] theorem enterTrap_gpr (e : Exc) (c : BitVec 5) : (s.enterTrap e c).gpr = s.gpr := rfl
@[simp] theorem enterTrap_hi (e : Exc) (c : BitVec 5) : (s.enterTrap e c).hi = s.hi := rfl
@[simp] theorem enterTrap_lo (e : Exc) (c : BitVec 5) : (s.enterTrap e c).lo = s.lo := rfl
@[simp] theorem enterTrap_pc (e : Exc) (c : BitVec 5) : (s.enterTrap e c).pc = s.trapVector := rfl
@[simp] theorem enterTrap_mem (e : Exc) (c : BitVec 5) : (s.enterTrap e c).mem = s.mem := rfl
@[simp] theorem enterTrap_text (e : Exc) (c : BitVec 5) : (s.enterTrap e c).text = s.text := rfl
@[simp] theorem enterTrap_data (e : Exc) (c : BitVec 5) : (s.enterTrap e c).data = s.data := rfl
@[simp] theorem enterTrap_out (e : Exc) (c : BitVec 5) : (s.enterTrap e c).out = s.out := rfl
@[simp] theorem enterTrap_input (e : Exc) (c : BitVec 5) : (s.enterTrap e c).input = s.input := rfl
@[simp] theorem enterTrap_status (e : Exc) (c : BitVec 5) : (s.enterTrap e c).status = s.status := rfl
@[simp] theorem enterTrap_draws (e : Exc) (c : BitVec 5) : (s.enterTrap e c).draws = s.draws + causeDraws e := rfl
@[simp] theorem enterTrap_irq (e : Exc) (c : BitVec 5) : (s.enterTrap e c).irq = s.irq := rfl
@[simp] theorem enterTrap_reg (e : Exc) (c : BitVec 5) (q : Reg) : (s.enterTrap e c).reg q = s.reg q := rfl
@[simp] theorem enterTrap_byteAt (e : Exc) (c : BitVec 5) (x : Word) : (s.enterTrap e c).byteAt x = s.byteAt x := rfl
@[simp] theorem enterTrap_bytesAt (e : Exc) (c : BitVec 5) (x : Word) (n : Nat) : (s.enterTrap e c).bytesAt x n = s.bytesAt x n := by
  induction n generalizing x with
  | zero => rfl
  | succ n ih => exact congrArg _ (ih (x + 1))
@[simp] theorem enterTrap_inText (e : Exc) (c : BitVec 5) (x : Word) : (s.enterTrap e c).inText x = s.inText x := rfl
@[simp] theorem enterTrap_allocated (e : Exc) (c : BitVec 5) (x : Word) : (s.enterTrap e c).allocated x = s.allocated x := rfl

/-! ### `afterFault` -/

@[simp] theorem afterFault_params (f : Fault) : (s.afterFault f).params = s.params := rfl
@[simp] theorem afterFault_gpr (f : Fault) : (s.afterFault f).gpr = s.gpr := rfl
@[simp] theorem afterFault_hi (f : Fault) : (s.afterFault f).hi = s.hi := rfl
@[simp] theorem afterFault_lo (f : Fault) : (s.afterFault f).lo = s.lo := rfl
@[simp] theorem afterFault_pc (f : Fault) : (s.afterFault f).pc = s.pc := rfl
@[simp] theorem afterFault_mem (f : Fault) : (s.afterFault f).mem = s.mem := rfl
@[simp] theorem afterFault_text (f : Fault) : (s.afterFault f).text = s.text := rfl
@[simp] theorem afterFault_data (f : Fault) : (s.afterFault f).data = s.data := rfl
@[simp] theorem afterFault_out (f : Fault) : (s.afterFault f).out = s.out := rfl
@[simp] theorem afterFault_input (f : Fault) : (s.afterFault f).input = s.input := rfl
@[simp] theorem afterFault_status (f : Fault) : (s.afterFault f).status = .faulted f := rfl
@[simp] theorem afterFault_draws (f : Fault) : (s.afterFault f).draws = s.draws := rfl
@[simp] theorem afterFault_cp0 (f : Fault) : (s.afterFault f).cp0 = s.cp0 := rfl
@[simp] theorem afterFault_irq (f : Fault) : (s.afterFault f).irq = s.irq := rfl
@[simp] theorem afterFault_reg (f : Fault) (q : Reg) : (s.afterFault f).reg q = s.reg q := rfl
@[simp] theorem afterFault_byteAt (f : Fault) (x : Word) : (s.afterFault f).byteAt x = s.byteAt x := rfl
@[simp] theorem afterFault_bytesAt (f : Fault) (x : Word) (n : Nat) : (s.afterFault f).bytesAt x n = s.bytesAt x n := by
  induction n generalizing x with
  | zero => rfl
  | succ n ih => exact congrArg _ (ih (x + 1))
@[simp] theorem afterFault_inText (f : Fault) (x : Word) : (s.afterFault f).inText x = s.inText x := rfl
@[simp] theorem afterFault_allocated (f : Fault) (x : Word) : (s.afterFault f).allocated x = s.allocated x := rfl
@[simp] theorem afterFault_userMode (f : Fault) : (s.afterFault f).userMode = s.userMode := rfl
@[simp] theorem afterFault_guarded (f : Fault) : (s.afterFault f).guarded = s.guarded := rfl
@[simp] theorem afterFault_reversed (f : Fault) : (s.afterFault f).reversed = s.reversed := rfl
@[simp] theorem afterFault_order (f : Fault) : (s.afterFault f).order = s.order := rfl
@[simp] theorem afterFault_drawn (f : Fault) : (s.afterFault f).drawn = s.drawn := rfl
@[simp] theorem afterFault_answer (f : Fault) : (s.afterFault f).answer = s.answer := rfl
@[simp] theorem afterFault_trapVector (f : Fault) : (s.afterFault f).trapVector = s.trapVector := rfl
@[simp] theorem afterFault_causeView (f : Fault) : (s.afterFault f).causeView = s.causeView := rfl
@[simp] theorem afterFault_cp0Usable (f : Fault) : (s.afterFault f).cp0Usable = s.cp0Usable := rfl

/-! ### Fields of the trap's own updates -/

@[simp] theorem leaveTrap_cp0_sr : s.leaveTrap.cp0.sr = popMode s.cp0.sr := rfl
@[simp] theorem leaveTrap_cp0_cause : s.leaveTrap.cp0.cause = s.cp0.cause := rfl
@[simp] theorem leaveTrap_cp0_epc : s.leaveTrap.cp0.epc = s.cp0.epc := rfl
@[simp] theorem leaveTrap_cp0_badVAddr : s.leaveTrap.cp0.badVAddr = s.cp0.badVAddr := rfl
@[simp] theorem enterTrap_cp0_sr (e : Exc) (c : BitVec 5) : (s.enterTrap e c).cp0.sr = pushMode s.cp0.sr := rfl
@[simp] theorem enterTrap_cp0_epc (e : Exc) (c : BitVec 5) : (s.enterTrap e c).cp0.epc = s.pc := rfl
@[simp] theorem enterTrap_cp0_cause (e : Exc) (c : BitVec 5) :
    (s.enterTrap e c).cp0.cause = causeWord (s.causeCE e) (s.cp0.cause.extractLsb' 8 2) c := rfl
@[simp] theorem enterTrap_cp0_badVAddr (e : Exc) (c : BitVec 5) :
    (s.enterTrap e c).cp0.badVAddr = (excBadAddr e).getD s.cp0.badVAddr := rfl

/-! ### Registers -/

/-- Register 0 reads zero (R21). -/
@[simp] theorem reg_zero : s.reg 0 = 0 := rfl

/-- A register written reads as written, unless it is register 0; every other reads as before (R21). -/
theorem setReg_reg (r q : Reg) (v : Word) :
    (s.setReg r v).reg q = if q = r ∧ r ≠ 0 then v else s.reg q := by
  unfold State.reg State.setReg
  by_cases hr : r = 0
  · simp [hr]
  · by_cases hq : q = 0
    · subst hq
      simp [Ne.symm hr]
    · by_cases hqr : q = r
      · subst hqr; simp [hr]
      · have : r.val ≠ q.val := fun h => hqr (Fin.ext h.symm)
        simp [hr, hq, hqr, Vector.getElem_set_ne _ _ this]

@[simp] theorem setReg_reg_same {r : Reg} (h : r ≠ 0) (v : Word) : (s.setReg r v).reg r = v := by
  simp [setReg_reg, h]

@[simp] theorem setReg_reg_ne {r q : Reg} (h : q ≠ r) (v : Word) : (s.setReg r v).reg q = s.reg q := by
  simp [setReg_reg, h]

/-- A write to register 0 has no effect at all (R21). -/
@[simp] theorem setReg_zero (v : Word) : s.setReg 0 v = s := rfl

/-- The storage of register 0 is never written. -/
theorem setReg_gpr_zero (r : Reg) (v : Word) : (s.setReg r v).gpr[0] = s.gpr[0] := by
  unfold State.setReg
  by_cases hr : r = 0
  · simp [hr]
  · have : r.val ≠ 0 := fun h => hr (Fin.ext h)
    simp [hr, Vector.getElem_set_ne _ _ this]

/-! ### Answers of the environment -/

section
variable {s}

theorem answered_eq : s.answered = s.skipDraws 1 ∨ s.answered = { s with input := s.input.tail } := by
  unfold State.answered
  split
  · exact .inl rfl
  · rename_i h; exact .inr (by simp [h])
theorem answered_input : s.answered.input = s.input.tail := by
  unfold State.answered
  split <;> simp_all
@[simp] theorem answered_params : s.answered.params = s.params := by unfold State.answered; split <;> rfl
@[simp] theorem answered_gpr : s.answered.gpr = s.gpr := by unfold State.answered; split <;> rfl
@[simp] theorem answered_hi : s.answered.hi = s.hi := by unfold State.answered; split <;> rfl
@[simp] theorem answered_lo : s.answered.lo = s.lo := by unfold State.answered; split <;> rfl
@[simp] theorem answered_pc : s.answered.pc = s.pc := by unfold State.answered; split <;> rfl
@[simp] theorem answered_mem : s.answered.mem = s.mem := by unfold State.answered; split <;> rfl
@[simp] theorem answered_text : s.answered.text = s.text := by unfold State.answered; split <;> rfl
@[simp] theorem answered_data : s.answered.data = s.data := by unfold State.answered; split <;> rfl
@[simp] theorem answered_out : s.answered.out = s.out := by unfold State.answered; split <;> rfl
@[simp] theorem answered_status : s.answered.status = s.status := by unfold State.answered; split <;> rfl
@[simp] theorem answered_cp0 : s.answered.cp0 = s.cp0 := by unfold State.answered; split <;> rfl
@[simp] theorem answered_irq : s.answered.irq = s.irq := by unfold State.answered; split <;> rfl
@[simp] theorem answered_reg (q : Reg) : s.answered.reg q = s.reg q := by simp [State.reg]

end

end Sys2Proof.Machine
end

