-- ==== Sys2Proof/Laws/Memory.lean ====
section
/-! SUPPORT. Memory: a byte written reads back, every other byte is as before, the canonical form is kept, and a number
written reads back in either byte order (spec/20_memory.md R50, R53, R64). -/

namespace Sys2Proof.Machine

/-! ### The list of written bytes -/

theorem memGet_memSet (m : Memory) (a x : Nat) (b : Byte) :
    memGet (memSet m a b) x = if x = a then some b else memGet m x := by
  induction m with
  | nil =>
    by_cases h : x = a
    · simp [memSet, memGet, h]
    · simp [memSet, memGet, h, Ne.symm h]
  | cons c m ih =>
    obtain ⟨k, c⟩ := c
    unfold memSet
    split
    · by_cases h : x = a
      · simp [memGet, h]
      · simp [memGet, h, Ne.symm h]
    · split
      · rename_i h; subst h
        by_cases h : x = a
        · simp [memGet, h]
        · simp [memGet, h, Ne.symm h]
      · rename_i h1 h2
        by_cases h : x = a
        · subst h; simp [memGet, Ne.symm h2, ih]
        · by_cases hk : k = x <;> simp [memGet, hk, h, ih]

theorem mem_memSet {m : Memory} {a : Nat} {b : Byte} {c : Host.Cell} (h : c ∈ memSet m a b) :
    c = (a, b) ∨ c ∈ m := by
  induction m with
  | nil => simpa [memSet] using h
  | cons d m ih =>
    unfold memSet at h
    split at h
    · simpa using h
    · split at h
      · rcases List.mem_cons.1 h with h | h
        · exact .inl h
        · exact .inr (List.mem_cons_of_mem _ h)
      · rcases List.mem_cons.1 h with h | h
        · exact .inr (h ▸ List.mem_cons_self)
        · exact (ih h).imp_right (List.mem_cons_of_mem _)

/-- A write keeps the canonical form. -/
theorem memSet_wf {m : Memory} (h : m.wf) {a : Nat} (ha : a < 2 ^ 32) (b : Byte) : (memSet m a b).wf := by
  refine ⟨?_, fun c hc => ?_⟩
  · obtain ⟨h, -⟩ := h
    induction m with
    | nil => simp [memSet]
    | cons d m ih =>
      obtain ⟨hd, hm⟩ := List.pairwise_cons.1 h
      unfold memSet
      split
      · rename_i hlt
        refine List.pairwise_cons.2 ⟨fun c hc => ?_, h⟩
        rcases List.mem_cons.1 hc with rfl | hc
        · exact hlt
        · exact lt_trans hlt (hd c hc)
      · split
        · rename_i heq; exact List.pairwise_cons.2 ⟨fun c hc => heq ▸ hd c hc, hm⟩
        · rename_i h1 h2
          refine List.pairwise_cons.2 ⟨fun c hc => ?_, ih hm⟩
          rcases mem_memSet hc with rfl | hc
          · exact lt_of_le_of_ne (not_lt.1 h1) (Ne.symm h2)
          · exact hd c hc
  · rcases mem_memSet hc with rfl | hc
    · exact ha
    · exact h.2 c hc

theorem setByte_wf {s : State} (h : s.mem.wf) (a : Word) (b : Byte) : (s.setByte a b).mem.wf :=
  memSet_wf h a.isLt b

/-! ### One byte -/

theorem setByte_byteAt (s : State) (a x : Word) (b : Byte) :
    (s.setByte a b).byteAt x = if x = a then b else s.byteAt x := by
  by_cases h : x = a
  · simp [State.byteAt, memGet_memSet, h]
  · have : x.toNat ≠ a.toNat := fun e => h (BitVec.eq_of_toNat_eq e)
    simp [State.byteAt, memGet_memSet, h, this]

/-! ### Runs of bytes -/

@[simp] theorem setBytes_params (s : State) (a : Word) (bs : List Byte) : (s.setBytes a bs).params = s.params := by
  induction bs generalizing s a with
  | nil => rfl
  | cons b bs ih => exact ih ..

@[simp] theorem setBytes_gpr (s : State) (a : Word) (bs : List Byte) : (s.setBytes a bs).gpr = s.gpr := by
  induction bs generalizing s a with
  | nil => rfl
  | cons b bs ih => exact ih ..

@[simp] theorem setBytes_hi (s : State) (a : Word) (bs : List Byte) : (s.setBytes a bs).hi = s.hi := by
  induction bs generalizing s a with
  | nil => rfl
  | cons b bs ih => exact ih ..

@[simp] theorem setBytes_lo (s : State) (a : Word) (bs : List Byte) : (s.setBytes a bs).lo = s.lo := by
  induction bs generalizing s a with
  | nil => rfl
  | cons b bs ih => exact ih ..

@[simp] theorem setBytes_pc (s : State) (a : Word) (bs : List Byte) : (s.setBytes a bs).pc = s.pc := by
  induction bs generalizing s a with
  | nil => rfl
  | cons b bs ih => exact ih ..

@[simp] theorem setBytes_text (s : State) (a : Word) (bs : List Byte) : (s.setBytes a bs).text = s.text := by
  induction bs generalizing s a with
  | nil => rfl
  | cons b bs ih => exact ih ..

@[simp] theorem setBytes_data (s : State) (a : Word) (bs : List Byte) : (s.setBytes a bs).data = s.data := by
  induction bs generalizing s a with
  | nil => rfl
  | cons b bs ih => exact ih ..

@[simp] theorem setBytes_out (s : State) (a : Word) (bs : List Byte) : (s.setBytes a bs).out = s.out := by
  induction bs generalizing s a with
  | nil => rfl
  | cons b bs ih => exact ih ..

@[simp] theorem setBytes_input (s : State) (a : Word) (bs : List Byte) : (s.setBytes a bs).input = s.input := by
  induction bs generalizing s a with
  | nil => rfl
  | cons b bs ih => exact ih ..

@[simp] theorem setBytes_status (s : State) (a : Word) (bs : List Byte) : (s.setBytes a bs).status = s.status := by
  induction bs generalizing s a with
  | nil => rfl
  | cons b bs ih => exact ih ..

@[simp] theorem setBytes_draws (s : State) (a : Word) (bs : List Byte) : (s.setBytes a bs).draws = s.draws := by
  induction bs generalizing s a with
  | nil => rfl
  | cons b bs ih => exact ih ..

@[simp] theorem setBytes_cp0 (s : State) (a : Word) (bs : List Byte) : (s.setBytes a bs).cp0 = s.cp0 := by
  induction bs generalizing s a with
  | nil => rfl
  | cons b bs ih => exact ih ..

@[simp] theorem setBytes_irq (s : State) (a : Word) (bs : List Byte) : (s.setBytes a bs).irq = s.irq := by
  induction bs generalizing s a with
  | nil => rfl
  | cons b bs ih => exact ih ..

@[simp] theorem setBytes_reg (s : State) (a : Word) (bs : List Byte) (q : Reg) :
    (s.setBytes a bs).reg q = s.reg q := by
  induction bs generalizing s a with
  | nil => rfl
  | cons b bs ih => exact ih ..

@[simp] theorem setBytes_inText (s : State) (a : Word) (bs : List Byte) (x : Word) :
    (s.setBytes a bs).inText x = s.inText x := by
  induction bs generalizing s a with
  | nil => rfl
  | cons b bs ih => exact ih ..

@[simp] theorem setBytes_allocated (s : State) (a : Word) (bs : List Byte) (x : Word) :
    (s.setBytes a bs).allocated x = s.allocated x := by
  induction bs generalizing s a with
  | nil => rfl
  | cons b bs ih => exact ih ..

@[simp] theorem setBytes_userMode (s : State) (a : Word) (bs : List Byte) :
    (s.setBytes a bs).userMode = s.userMode := by
  induction bs generalizing s a with
  | nil => rfl
  | cons b bs ih => exact ih ..

@[simp] theorem setBytes_guarded (s : State) (a : Word) (bs : List Byte) :
    (s.setBytes a bs).guarded = s.guarded := by
  simp [State.guarded]

@[simp] theorem setBytes_reversed (s : State) (a : Word) (bs : List Byte) :
    (s.setBytes a bs).reversed = s.reversed := by
  simp [State.reversed]

@[simp] theorem setBytes_order (s : State) (a : Word) (bs : List Byte) :
    (s.setBytes a bs).order = s.order := by
  induction bs generalizing s a with
  | nil => rfl
  | cons b bs ih => exact ih ..

@[simp] theorem setBytes_answer (s : State) (a : Word) (bs : List Byte) :
    (s.setBytes a bs).answer = s.answer := by
  induction bs generalizing s a with
  | nil => rfl
  | cons b bs ih => exact ih ..

@[simp] theorem writeNum_params (s : State) (a : Word) (n v : Nat) : (s.writeNum a n v).params = s.params := setBytes_params ..
@[simp] theorem writeNum_gpr (s : State) (a : Word) (n v : Nat) : (s.writeNum a n v).gpr = s.gpr := setBytes_gpr ..
@[simp] theorem writeNum_hi (s : State) (a : Word) (n v : Nat) : (s.writeNum a n v).hi = s.hi := setBytes_hi ..
@[simp] theorem writeNum_lo (s : State) (a : Word) (n v : Nat) : (s.writeNum a n v).lo = s.lo := setBytes_lo ..
@[simp] theorem writeNum_pc (s : State) (a : Word) (n v : Nat) : (s.writeNum a n v).pc = s.pc := setBytes_pc ..
@[simp] theorem writeNum_text (s : State) (a : Word) (n v : Nat) : (s.writeNum a n v).text = s.text := setBytes_text ..
@[simp] theorem writeNum_data (s : State) (a : Word) (n v : Nat) : (s.writeNum a n v).data = s.data := setBytes_data ..
@[simp] theorem writeNum_out (s : State) (a : Word) (n v : Nat) : (s.writeNum a n v).out = s.out := setBytes_out ..
@[simp] theorem writeNum_input (s : State) (a : Word) (n v : Nat) : (s.writeNum a n v).input = s.input := setBytes_input ..
@[simp] theorem writeNum_status (s : State) (a : Word) (n v : Nat) : (s.writeNum a n v).status = s.status := setBytes_status ..
@[simp] theorem writeNum_draws (s : State) (a : Word) (n v : Nat) : (s.writeNum a n v).draws = s.draws := setBytes_draws ..
@[simp] theorem writeNum_cp0 (s : State) (a : Word) (n v : Nat) : (s.writeNum a n v).cp0 = s.cp0 := setBytes_cp0 ..
@[simp] theorem writeNum_irq (s : State) (a : Word) (n v : Nat) : (s.writeNum a n v).irq = s.irq := setBytes_irq ..
@[simp] theorem writeNum_reg (s : State) (a : Word) (n v : Nat) (q : Reg) :
    (s.writeNum a n v).reg q = s.reg q := setBytes_reg ..
@[simp] theorem writeNum_inText (s : State) (a : Word) (n v : Nat) (x : Word) :
    (s.writeNum a n v).inText x = s.inText x := setBytes_inText ..
@[simp] theorem writeNum_allocated (s : State) (a : Word) (n v : Nat) (x : Word) :
    (s.writeNum a n v).allocated x = s.allocated x := setBytes_allocated ..
@[simp] theorem writeNum_userMode (s : State) (a : Word) (n v : Nat) :
    (s.writeNum a n v).userMode = s.userMode := setBytes_userMode ..
@[simp] theorem writeNum_guarded (s : State) (a : Word) (n v : Nat) :
    (s.writeNum a n v).guarded = s.guarded := setBytes_guarded ..
@[simp] theorem writeNum_reversed (s : State) (a : Word) (n v : Nat) :
    (s.writeNum a n v).reversed = s.reversed := setBytes_reversed ..
@[simp] theorem writeNum_order (s : State) (a : Word) (n v : Nat) :
    (s.writeNum a n v).order = s.order := setBytes_order ..
@[simp] theorem writeNum_answer (s : State) (a : Word) (n v : Nat) :
    (s.writeNum a n v).answer = s.answer := setBytes_answer ..

theorem setBytes_wf {s : State} (h : s.mem.wf) (a : Word) (bs : List Byte) : (s.setBytes a bs).mem.wf := by
  induction bs generalizing s a with
  | nil => exact h
  | cons b bs ih => exact ih (setByte_wf h a b) _

theorem writeNum_wf {s : State} (h : s.mem.wf) (a : Word) (n v : Nat) : (s.writeNum a n v).mem.wf :=
  setBytes_wf h a _

/-- An address of a run is its first or one of the rest. -/
theorem inRun_succ (a x : Word) (n : Nat) (hn : n < 2 ^ 32) :
    inRun a (n + 1) x = (x == a || inRun (a + 1) n x) := by
  have key : (inRun a (n + 1) x = true) ↔ (x = a ∨ inRun (a + 1) n x = true) := by
    have hx := x.isLt
    have ha := a.isLt
    simp only [inRun, decide_eq_true_eq, ← BitVec.toNat_inj, BitVec.toNat_sub, BitVec.toNat_add, BitVec.reduceToNat]
    omega
  rw [Bool.eq_iff_iff, key, Bool.or_eq_true, beq_iff_eq]

theorem inRun_zero (a x : Word) : inRun a 0 x = false := by simp [inRun]

/-- Bytes written reach no address outside their run. -/
theorem setBytes_byteAt_out (s : State) (a x : Word) (bs : List Byte) (hl : bs.length ≤ 2 ^ 32)
    (h : inRun a bs.length x = false) : (s.setBytes a bs).byteAt x = s.byteAt x := by
  induction bs generalizing s a with
  | nil => rfl
  | cons b bs ih =>
    rw [List.length_cons, inRun_succ a x bs.length (by simp at hl; omega)] at h
    simp only [Bool.or_eq_false_iff, beq_eq_false_iff_ne] at h
    rw [State.setBytes, ih _ _ (by simp at hl; omega) h.2, setByte_byteAt, if_neg h.1]

/-- The bytes of a run, one by one. -/
theorem bytesAt_congr {s t : State} {a : Word} {n : Nat}
    (h : ∀ k < n, s.byteAt (a + BitVec.ofNat 32 k) = t.byteAt (a + BitVec.ofNat 32 k)) :
    s.bytesAt a n = t.bytesAt a n := by
  induction n generalizing a with
  | zero => rfl
  | succ n ih =>
    have h0 := h 0 (Nat.succ_pos n)
    simp only [BitVec.add_zero] at h0
    rw [State.bytesAt, State.bytesAt, h0]
    congr 1
    refine ih fun k hk => ?_
    have := h (k + 1) (by omega)
    rwa [show a + BitVec.ofNat 32 (k + 1) = a + 1 + BitVec.ofNat 32 k from by
      apply BitVec.eq_of_toNat_eq; simp [BitVec.toNat_add]; omega] at this

@[simp] theorem bytesAt_length (s : State) (a : Word) (n : Nat) : (s.bytesAt a n).length = n := by
  induction n generalizing a with
  | zero => rfl
  | succ n ih => simp [State.bytesAt, ih]

/-- What was written at a run reads back. -/
theorem setBytes_bytesAt (s : State) (a : Word) (bs : List Byte) (hl : bs.length ≤ 2 ^ 32) :
    (s.setBytes a bs).bytesAt a bs.length = bs := by
  induction bs generalizing s a with
  | nil => rfl
  | cons b bs ih =>
    have hlen : bs.length < 2 ^ 32 := by simp at hl; omega
    have out : inRun (a + 1) bs.length a = false := by
      have ha := a.isLt
      simp only [inRun, decide_eq_false_iff_not, not_lt, BitVec.toNat_sub, BitVec.toNat_add, BitVec.reduceToNat]
      omega
    simp only [List.length_cons, State.setBytes, State.bytesAt]
    rw [setBytes_byteAt_out _ _ _ _ hlen.le out, setByte_byteAt, if_pos rfl, ih _ _ hlen.le]

/-! ### Byte order (R53) -/

@[simp] theorem littleBytes_length (n v : Nat) : (littleBytes n v).length = n := by
  induction n generalizing v with
  | zero => rfl
  | succ n ih => simp [littleBytes, ih]

@[simp] theorem bytesOf_length (e : Endian) (n v : Nat) : (bytesOf e n v).length = n := by
  cases e <;> simp [bytesOf]

theorem littleValue_littleBytes (n v : Nat) : littleValue (littleBytes n v) = v % 256 ^ n := by
  induction n generalizing v with
  | zero => simp [littleBytes, littleValue, Nat.mod_one]
  | succ n ih =>
    rw [littleBytes, littleValue, ih, pow_succ', Nat.mod_mul, BitVec.toNat_ofNat]

theorem valueOf_bytesOf (e : Endian) (n v : Nat) : valueOf e (bytesOf e n v) = v % 256 ^ n := by
  cases e <;> simp [valueOf, bytesOf, littleValue_littleBytes]

theorem littleValue_lt (bs : List Byte) : littleValue bs < 256 ^ bs.length := by
  induction bs with
  | nil => simp [littleValue]
  | cons b bs ih =>
    have := b.isLt
    rw [littleValue, List.length_cons, pow_succ]
    omega

theorem readNum_lt (s : State) (a : Word) (n : Nat) : s.readNum a n < 256 ^ n := by
  have h : ∀ bs : List Byte, bs.length = n → valueOf s.order bs < 256 ^ n := by
    intro bs hb
    cases s.order
    · simpa [valueOf, hb] using littleValue_lt bs
    · simpa [valueOf, hb] using littleValue_lt bs.reverse
  exact h _ (bytesAt_length ..)

/-- The low bytes of a number written at an address read back from it. -/
theorem writeNum_readNum (s : State) (a : Word) (n v : Nat) (hn : n ≤ 2 ^ 32) :
    (s.writeNum a n v).readNum a n = v % 256 ^ n := by
  have h := setBytes_bytesAt s a (bytesOf s.order n v) (by simpa using hn)
  rw [bytesOf_length] at h
  rw [State.readNum, writeNum_order, State.writeNum, h, valueOf_bytesOf]

/-- A number written changes no byte outside its own. -/
theorem writeNum_byteAt_out (s : State) (a x : Word) (n v : Nat) (hn : n ≤ 2 ^ 32) (h : inRun a n x = false) :
    (s.writeNum a n v).byteAt x = s.byteAt x :=
  setBytes_byteAt_out s a x _ (by simpa using hn) (by simpa using h)

/-! ### Searches over a run -/

theorem allInRun_iff (p : Word → Bool) (a : Word) (n : Nat) :
    allInRun p a n = true ↔ ∀ k < n, p (a + BitVec.ofNat 32 k) = true := by
  induction n generalizing a with
  | zero => simp [allInRun]
  | succ n ih =>
    have shift : ∀ k, a + BitVec.ofNat 32 (k + 1) = a + 1 + BitVec.ofNat 32 k := fun k => by
      apply BitVec.eq_of_toNat_eq; simp [BitVec.toNat_add]; omega
    rw [allInRun, Bool.and_eq_true, ih]
    constructor
    · rintro ⟨h0, h⟩ k hk
      cases k with
      | zero => simpa using h0
      | succ k => rw [shift]; exact h k (by omega)
    · intro h
      refine ⟨by simpa using h 0 (by omega), fun k hk => ?_⟩
      rw [← shift]; exact h (k + 1) (by omega)

theorem firstInRun_none_iff (p : Word → Bool) (a : Word) (n : Nat) :
    firstInRun p a n = none ↔ ∀ k < n, p (a + BitVec.ofNat 32 k) = false := by
  induction n generalizing a with
  | zero => simp [firstInRun]
  | succ n ih =>
    have shift : ∀ k, a + BitVec.ofNat 32 (k + 1) = a + 1 + BitVec.ofNat 32 k := fun k => by
      apply BitVec.eq_of_toNat_eq; simp [BitVec.toNat_add]; omega
    rw [firstInRun]
    by_cases h0 : p a = true
    · simp only [h0, if_true, reduceCtorEq, false_iff]
      intro h
      have := h 0 (by omega)
      simp [h0] at this
    · rw [if_neg h0, ih]
      constructor
      · intro h k hk
        cases k with
        | zero => simpa using h0
        | succ k => rw [shift]; exact h k (by omega)
      · intro h k hk
        rw [← shift]; exact h (k + 1) (by omega)

/-! ### Answers, byte by byte (R215) -/

@[simp] theorem answerBytes_length (s : State) (n : Nat) : (s.answerBytes n).1.length = n := by
  induction n generalizing s with
  | zero => rfl
  | succ n ih => simp [State.answerBytes, ih]

/-- The answers taken are those at the head of `in`, as far as it reaches. -/
@[simp] theorem answerBytes_input (s : State) (n : Nat) : (s.answerBytes n).2.input = s.input.drop n := by
  induction n generalizing s with
  | zero => rfl
  | succ n ih => simp [State.answerBytes, ih, answered_input]

/-- Byte `k` is the low byte of answer `k` of `in`, where there is one. -/
theorem answerBytes_get {s : State} {n k : Nat} (hk : k < n) {v : Word} (h : s.input[k]? = some v) :
    (s.answerBytes n).1[k]? = some (v.setWidth 8) := by
  induction n generalizing s k with
  | zero => omega
  | succ n ih =>
    cases k with
    | zero => simp [State.answerBytes, State.answer, List.headD_eq_head?_getD, List.head?_eq_getElem?, h]
    | succ k =>
      simp only [State.answerBytes, List.getElem?_cons_succ]
      exact ih (by omega) (by rw [answered_input, List.getElem?_tail, h])

@[simp] theorem answerBytes_params (s : State) (n : Nat) : (s.answerBytes n).2.params = s.params := by
  induction n generalizing s with
  | zero => rfl
  | succ n ih => simp [State.answerBytes, ih]

@[simp] theorem answerBytes_gpr (s : State) (n : Nat) : (s.answerBytes n).2.gpr = s.gpr := by
  induction n generalizing s with
  | zero => rfl
  | succ n ih => simp [State.answerBytes, ih]

@[simp] theorem answerBytes_hi (s : State) (n : Nat) : (s.answerBytes n).2.hi = s.hi := by
  induction n generalizing s with
  | zero => rfl
  | succ n ih => simp [State.answerBytes, ih]

@[simp] theorem answerBytes_lo (s : State) (n : Nat) : (s.answerBytes n).2.lo = s.lo := by
  induction n generalizing s with
  | zero => rfl
  | succ n ih => simp [State.answerBytes, ih]

@[simp] theorem answerBytes_pc (s : State) (n : Nat) : (s.answerBytes n).2.pc = s.pc := by
  induction n generalizing s with
  | zero => rfl
  | succ n ih => simp [State.answerBytes, ih]

@[simp] theorem answerBytes_mem (s : State) (n : Nat) : (s.answerBytes n).2.mem = s.mem := by
  induction n generalizing s with
  | zero => rfl
  | succ n ih => simp [State.answerBytes, ih]

@[simp] theorem answerBytes_text (s : State) (n : Nat) : (s.answerBytes n).2.text = s.text := by
  induction n generalizing s with
  | zero => rfl
  | succ n ih => simp [State.answerBytes, ih]

@[simp] theorem answerBytes_data (s : State) (n : Nat) : (s.answerBytes n).2.data = s.data := by
  induction n generalizing s with
  | zero => rfl
  | succ n ih => simp [State.answerBytes, ih]

@[simp] theorem answerBytes_out (s : State) (n : Nat) : (s.answerBytes n).2.out = s.out := by
  induction n generalizing s with
  | zero => rfl
  | succ n ih => simp [State.answerBytes, ih]

@[simp] theorem answerBytes_status (s : State) (n : Nat) : (s.answerBytes n).2.status = s.status := by
  induction n generalizing s with
  | zero => rfl
  | succ n ih => simp [State.answerBytes, ih]

@[simp] theorem answerBytes_cp0 (s : State) (n : Nat) : (s.answerBytes n).2.cp0 = s.cp0 := by
  induction n generalizing s with
  | zero => rfl
  | succ n ih => simp [State.answerBytes, ih]

@[simp] theorem answerBytes_irq (s : State) (n : Nat) : (s.answerBytes n).2.irq = s.irq := by
  induction n generalizing s with
  | zero => rfl
  | succ n ih => simp [State.answerBytes, ih]

end Sys2Proof.Machine
end

