-- ==== Sys2Proof/Laws/Ops.lean ====
section
/-! SUPPORT. For each shared operation, what it can answer: later proofs cite these and do not unfold the operation. -/

namespace Sys2Proof.Machine

variable {s t : State}

/-! ### Taking an exception -/

/-- With `TRAP_MODEL = fault` an exception ends the run (R231). -/
theorem raise_fault (e : Exc) (h : s.params.trapModel = .fault) : raise e s = .fault (.raised e s.pc) := by
  unfold raise; split <;> simp_all

/-- With r3000 an exception that has a code enters the trap (R252). -/
theorem raise_r3000 {e : Exc} {c : BitVec 5} (h : s.params.trapModel = .r3000) (hc : excCode e = some c) :
    raise e s = .next (s.enterTrap e c) := by
  unfold raise; split <;> simp_all

/-- An exception answers a next state only by entering the trap. -/
theorem raise_next {e : Exc} (h : raise e s = .next t) :
    s.params.trapModel = .r3000 ∧ ∃ c, excCode e = some c ∧ t = s.enterTrap e c := by
  unfold raise at h
  split at h
  · rename_i c hm hc; cases h; exact ⟨hm, c, hc, rfl⟩
  · cases h
  · cases h

/-- An exception is a next state or a fault at this `pc`, never a refusal. -/
theorem raise_cases (e : Exc) (s : State) :
    (∃ c, s.params.trapModel = .r3000 ∧ excCode e = some c ∧ raise e s = .next (s.enterTrap e c))
      ∨ raise e s = .fault (.raised e s.pc) := by
  unfold raise; split <;> simp_all

/-! ### Checks -/

theorem loadExc_none {a : Word} {n : Nat} :
    s.loadExc a n = none ↔ aligned a n = true ∧ s.kernelOnly a = false ∧ allInRun s.allocated a n = true := by
  unfold State.loadExc
  cases aligned a n <;> cases s.kernelOnly a <;> cases allInRun s.allocated a n <;> simp

theorem storeExc_none {a : Word} {n : Nat} :
    s.storeExc a n = none ↔ aligned a n = true ∧ s.kernelOnly a = false ∧ allInRun s.allocated a n = true
      ∧ (s.params.smc = .refuse → firstInRun s.inText a n = none) := by
  unfold State.storeExc
  cases aligned a n <;> cases s.kernelOnly a <;> cases allInRun s.allocated a n <;> cases s.params.smc
    <;> cases firstInRun s.inText a n <;> simp

theorem fetchExc_none :
    s.fetchExc = none ↔ aligned s.pc 4 = true ∧ s.kernelOnly s.pc = false ∧ allInRun s.allocated s.pc 4 = true
      ∧ (s.params.smc = .refuse → allInRun s.inText s.pc 4 = true) := by
  unfold State.fetchExc
  cases aligned s.pc 4 <;> cases s.kernelOnly s.pc <;> cases allInRun s.allocated s.pc 4 <;> cases s.params.smc
    <;> cases allInRun s.inText s.pc 4 <;> simp

/-- Without user mode no address is the kernel's only, and the byte order is the parameter. -/
theorem kernelOnly_of_not_guarded (h : s.guarded = false) (a : Word) : s.kernelOnly a = false := by
  simp [State.kernelOnly, h]

theorem order_of_not_reversed (h : s.reversed = false) : s.order = s.params.endian := by
  simp [State.order, h]

theorem guarded_of_not_userMode (h : s.userMode = false) : s.guarded = false := by simp [State.guarded, h]

theorem reversed_of_not_userMode (h : s.userMode = false) : s.reversed = false := by simp [State.reversed, h]

theorem userMode_of_fault (h : s.params.trapModel = .fault) : s.userMode = false := by
  simp [State.userMode, h]

theorem interruptDue_of_fault (h : s.params.trapModel = .fault) : s.interruptDue = false := by
  simp [State.interruptDue, h]

/-! ### Shapes of instructions -/

theorem finish_eq (r : Reg) (v : Word) (s : State) : finish r v s = .next (s.setReg r v).advance := rfl

theorem finishHiLo_eq (h l : Word) (s : State) : finishHiLo h l s = .next ((s.setHi h).setLo l).advance := rfl

theorem branch_eq (c : Bool) (imm : Half) (s : State) :
    branch c imm s = .next (s.setPc (if c then branchTarget s.pc imm else nextPc s.pc)) := rfl

theorem branchLink_eq (c : Bool) (imm : Half) (s : State) :
    branchLink c imm s
      = .next ((s.setReg 31 (nextPc s.pc)).setPc (if c then branchTarget s.pc imm else nextPc s.pc)) := rfl

theorem finishUnless_next {c : Bool} {r : Reg} {v : Word} (h : finishUnless c r v s = .next t) :
    (c = true ∧ raise .overflow s = .next t) ∨ (c = false ∧ t = (s.setReg r v).advance) := by
  unfold finishUnless at h
  cases c with
  | true => exact .inl ⟨rfl, h⟩
  | false => cases h; exact .inr ⟨rfl, rfl⟩

/-- A load takes an exception, or writes its register and goes on. -/
theorem load_next {r : Reg} {a : Word} {n : Nat} {widen : Nat → Word} (h : load r a n widen s = .next t) :
    (∃ e, s.loadExc a n = some e ∧ raise e s = .next t)
      ∨ (s.loadExc a n = none ∧ t = (s.setReg r (widen (s.readNum a n))).advance) := by
  unfold load at h
  split at h
  · rename_i e he; exact .inl ⟨e, he, h⟩
  · rename_i he; cases h; exact .inr ⟨he, rfl⟩

/-- A store takes an exception, or writes its bytes and goes on. -/
theorem store_next {a : Word} {n : Nat} {v : Word} (h : store a n v s = .next t) :
    (∃ e, s.storeExc a n = some e ∧ raise e s = .next t)
      ∨ (s.storeExc a n = none ∧ t = (s.writeNum a n v.toNat).advance) := by
  unfold store at h
  split at h
  · rename_i e he; exact .inl ⟨e, he, h⟩
  · rename_i he; cases h; exact .inr ⟨he, rfl⟩

/-! ### One step -/

/-- A step that answers a next state takes an interrupt, raises at the fetch, or executes the word fetched. -/
theorem step_next (h : step s = .next t) :
    s.status = .running ∧
      ((s.interruptDue = true ∧ raise .interrupt s = .next t)
        ∨ (s.interruptDue = false ∧ ∃ e, s.fetchExc = some e ∧ raise e s = .next t)
        ∨ (s.interruptDue = false ∧ s.fetchExc = none ∧ runWord s.fetched s = .next t)) := by
  unfold step at h
  split at h
  · cases h
  · cases h
  · rename_i hr
    refine ⟨hr, ?_⟩
    split at h
    · rename_i hi; exact .inl ⟨hi, h⟩
    · rename_i hi
      rw [Bool.not_eq_true] at hi
      split at h
      · rename_i e he; exact .inr (.inl ⟨hi, e, he, h⟩)
      · rename_i he; exact .inr (.inr ⟨hi, he, h⟩)

/-- The word executed: an instruction by its meaning, or a reserved word. -/
theorem runWord_next {w : Word} (h : runWord w s = .next t) :
    (∃ i, decode w = .instr i ∧ exec i s = .next t)
      ∨ (∃ r, decode w = .reserved r ∧ execReserved w s = .next t) := by
  unfold runWord at h
  split at h
  · rename_i i hi; exact .inl ⟨i, hi, h⟩
  · rename_i r hr; exact .inr ⟨r, hr, h⟩

/-- A reserved word is a coprocessor 0 move of r3000, or raises `ReservedInstruction`. -/
theorem execReserved_next {w : Word} (h : execReserved w s = .next t) :
    (∃ m, s.params.trapModel = .r3000 ∧ decodeCp0 w = some m ∧ execCp0Move m s = .next t)
      ∨ raise (.reservedInstruction w) s = .next t := by
  unfold execReserved at h
  split at h
  · rename_i m hm hd; exact .inl ⟨m, hm, hd, h⟩
  · exact .inr h

/-- A coprocessor 0 move raises Coprocessor Unusable, or moves. -/
theorem execCp0Move_next {m : Cp0Move} (h : execCp0Move m s = .next t) :
    (s.cp0Usable = false ∧ raise (.coprocessorUnusable 0) s = .next t)
      ∨ (s.cp0Usable = true ∧
          ((∃ rt rd, m = .mfc0 rt rd ∧
              t = ((if cp0Described rd then s else s.skipDraws 1).setReg rt (s.readCp0 rd)).advance)
            ∨ ∃ rt rd, m = .mtc0 rt rd ∧ t = (s.writeCp0 rd (s.reg rt)).advance)) := by
  unfold execCp0Move at h
  split at h
  · rename_i hu
    refine .inr ⟨hu, ?_⟩
    split at h
    · cases h; exact .inl ⟨_, _, rfl, rfl⟩
    · cases h; exact .inr ⟨_, _, rfl, rfl⟩
  · rename_i hu; exact .inl ⟨by simpa using hu, h⟩

end Sys2Proof.Machine
end

