-- ==== Sys2Proof/Laws/Exec.lean ====
section
/-! SUPPORT. Said once for all instructions: what `exec` can answer with a next state. Later proofs take cases on
`ExecNext` and do not unfold a meaning. -/

namespace Sys2Proof.Machine

/-- Where an instruction that writes no coprocessor 0 register and no memory can go: on, to a branch or jump target, or,
for `jr` and `jalr`, to a register's value. -/
inductive PcTarget (i : Instr) (s : State) : Word → Prop
  | next : PcTarget i s (nextPc s.pc)
  | branch (imm : Half) : PcTarget i s (branchTarget s.pc imm)
  | jump (a : BitVec 26) : PcTarget i s (jumpTarget s.pc a)
  | jr (rs : Reg) (h : i = .jr rs) : PcTarget i s (s.reg rs)
  | jalr (rd rs : Reg) (h : i = .jalr rd rs) : PcTarget i s (s.reg rs)

/-- The instructions that write `HI` or `LO` (R28). -/
inductive WritesHiLo (s : State) : Instr → Word → Word → Prop
  | mult (rs rt : Reg) (h l : Word) : WritesHiLo s (.mult rs rt) h l
  | multu (rs rt : Reg) (h l : Word) : WritesHiLo s (.multu rs rt) h l
  | div (rs rt : Reg) (h l : Word) : WritesHiLo s (.div rs rt) h l
  | divu (rs rt : Reg) (h l : Word) : WritesHiLo s (.divu rs rt) h l
  | mthi (rs : Reg) : WritesHiLo s (.mthi rs) (s.reg rs) s.lo
  | mtlo (rs : Reg) : WritesHiLo s (.mtlo rs) s.hi (s.reg rs)

/-- The instructions that store (R51), each with the width it stores. -/
inductive Stores : Instr → Nat → Prop
  | sw (rt : Reg) (imm : Half) (rs : Reg) : Stores (.sw rt imm rs) 4
  | sh (rt : Reg) (imm : Half) (rs : Reg) : Stores (.sh rt imm rs) 2
  | sb (rt : Reg) (imm : Half) (rs : Reg) : Stores (.sb rt imm rs) 1

theorem Stores.le {i : Instr} {n : Nat} (h : Stores i n) : n ≤ 4 := by cases h <;> decide

/-- What a next state of an instruction is. -/
inductive ExecNext (i : Instr) (s : State) : State → Prop
  /-- A trap of r3000 (R252). -/
  | trap (e : Exc) (c : BitVec 5) (hm : s.params.trapModel = .r3000) (hc : excCode e = some c) :
      ExecNext i s (s.enterTrap e c)
  /-- A register, or none (register 0), and `pc`. -/
  | reg (r : Reg) (v p : Word) (hp : PcTarget i s p) : ExecNext i s ((s.setReg r v).setPc p)
  /-- `HI` and `LO`, after `n` draws. -/
  | hilo (h l : Word) (n : Nat) (hw : WritesHiLo s i h l) : ExecNext i s (((s.skipDraws n).setHi h).setLo l).advance
  /-- A store whose checks pass (R59). -/
  | store (a : Word) (n v : Nat) (hs : Stores i n) (hx : s.storeExc a n = none) :
      ExecNext i s (s.writeNum a n v).advance
  /-- A service of the environment (R210). -/
  | service (t : State) (hi : i = .syscall) (hm : s.params.trapModel = .fault) (ht : serve s = .next t) :
      ExecNext i s t
  /-- The return from an exception (R254). -/
  | rfe (hi : i = .rfe) (hm : s.params.trapModel = .r3000) (hu : s.cp0Usable = true) :
      ExecNext i s s.leaveTrap.advance

variable {i : Instr} {s t : State}

theorem ExecNext.ofRaise {e : Exc} (h : raise e s = .next t) : ExecNext i s t := by
  obtain ⟨hm, c, hc, rfl⟩ := raise_next h
  exact .trap e c hm hc

theorem ExecNext.ofFinish {r : Reg} {v : Word} (h : finish r v s = .next t) : ExecNext i s t := by
  cases h; exact .reg r v _ .next

theorem ExecNext.ofLoad {r : Reg} {a : Word} {n : Nat} {w : Nat → Word} (h : load r a n w s = .next t) :
    ExecNext i s t := by
  obtain ⟨e, -, h⟩ | ⟨-, rfl⟩ := load_next h
  · exact .ofRaise h
  · exact .reg r _ _ .next

theorem ExecNext.ofStore {a : Word} {n : Nat} {v : Word} (hs : Stores i n) (h : Machine.store a n v s = .next t) :
    ExecNext i s t := by
  obtain ⟨e, -, h⟩ | ⟨hx, rfl⟩ := store_next h
  · exact .ofRaise h
  · exact .store a n _ hs hx

theorem ExecNext.ofUnless {c : Bool} {r : Reg} {v : Word} (h : finishUnless c r v s = .next t) : ExecNext i s t := by
  obtain ⟨-, h⟩ | ⟨-, rfl⟩ := finishUnless_next h
  · exact .ofRaise h
  · exact .reg r v _ .next

theorem ExecNext.ofPc {p : Word} (hp : PcTarget i s p) (h : (Host.Outcome.next (s.setPc p) : Outcome) = .next t) :
    ExecNext i s t := by
  have e : s.setPc p = (s.setReg 0 0).setPc p := by rw [setReg_zero]
  cases h; rw [e]; exact .reg 0 0 p hp

theorem ExecNext.ofBranch {c : Bool} {imm : Half} (h : branch c imm s = .next t) : ExecNext i s t := by
  cases c with
  | true => exact .ofPc (.branch imm) h
  | false => exact .ofPc .next h

theorem ExecNext.ofLink {c : Bool} {imm : Half} (h : branchLink c imm s = .next t) : ExecNext i s t := by
  cases c with
  | true => cases h; exact .reg 31 _ _ (.branch imm)
  | false => cases h; exact .reg 31 _ _ .next

theorem ExecNext.ofUndefinedDiv (hw : ∀ h l, WritesHiLo s i h l) (h : finishUndefinedDiv s = .next t) :
    ExecNext i s t := by
  cases h; exact .hilo _ _ 2 (hw _ _)

theorem ExecNext.ofHiLo {a b : Word} (hw : WritesHiLo s i a b) (h : finishHiLo a b s = .next t) : ExecNext i s t := by
  cases h; exact .hilo a b 0 hw

/-- Every next state of `exec` is one of those of `ExecNext`. -/
theorem exec_next (h : exec i s = .next t) : ExecNext i s t := by
  cases i with
  | mfhi | mflo | lui => exact .ofFinish h
  | addu | subu | addiu => exact .ofFinish h
  | or | and | xor | nor | ori | andi | xori => exact .ofFinish h
  | sllv | srlv | srav | sll | srl | sra => exact .ofFinish h
  | slt | sltu | slti | sltiu => exact .ofFinish h
  | mthi rs => exact .ofHiLo (.mthi rs) h
  | mtlo rs => exact .ofHiLo (.mtlo rs) h
  | lw | lh | lhu | lb | lbu =>
    simp only [exec, execLw, execLh, execLhu, execLb, execLbu] at h
    exact .ofLoad h
  | sw => exact .ofStore (.sw ..) h
  | sh => exact .ofStore (.sh ..) h
  | sb => exact .ofStore (.sb ..) h
  | beq | bne | bgez | bgtz | blez | bltz => exact .ofBranch h
  | bgezal | bltzal => exact .ofLink h
  | j a => exact .ofPc (.jump a) h
  | jal a => cases h; exact .reg 31 _ _ (.jump a)
  | jr rs => exact .ofPc (.jr rs rfl) h
  | jalr rd rs => cases h; exact .reg rd _ _ (.jalr rd rs rfl)
  | add | sub | addi =>
    simp only [exec, execAdd, execSub, execAddi] at h
    exact .ofUnless h
  | mult rs rt => exact .ofHiLo (.mult rs rt _ _) h
  | multu rs rt => exact .ofHiLo (.multu rs rt _ _) h
  | div rs rt =>
    simp only [exec, execDiv] at h
    split at h
    · exact .ofUndefinedDiv (.div rs rt) h
    · exact .ofHiLo (.div rs rt _ _) h
  | divu rs rt =>
    simp only [exec, execDivu] at h
    split at h
    · exact .ofUndefinedDiv (.divu rs rt) h
    · exact .ofHiLo (.divu rs rt _ _) h
  | syscall =>
    simp only [exec, execSyscall] at h
    split at h
    · rename_i hm; exact .service t rfl hm h
    · exact .ofRaise h
  | brk => exact .ofRaise h
  | rfe =>
    simp only [exec, execRfe] at h
    split at h
    · exact .ofRaise h
    · rename_i hm
      split at h
      · rename_i hu; cases h; exact .rfe rfl hm hu
      · exact .ofRaise h

/-- What a service leaves when it answers (R212 to R216): the string, the buffer and the answers are the only parts
that differ from service to service. -/
inductive ServeNext (s : State) : State → Prop
  | printInt (h : s.reg 2 = 1) : ServeNext s (s.emit (.printInt (s.reg 4))).advance
  | printString (h : s.reg 2 = 4) (bs : List Byte) : ServeNext s (s.emit (.printString bs)).advance
  | readInt (h : s.reg 2 = 5) : ServeNext s ((s.answered.setReg 2 s.answer).emit (.readInt s.answer)).advance
  | readString (h : s.reg 2 = 8) (hb : s.bufferExc (s.reg 4) (s.reg 5).toNat = none) :
      ServeNext s (((s.answerBytes (s.reg 5).toNat).2.setBytes (s.reg 4) (s.answerBytes (s.reg 5).toNat).1).emit
        (.readString (s.reg 4) (s.reg 5).toNat (s.answerBytes (s.reg 5).toNat).1)).advance
  | exit (h : s.reg 2 = 10) : ServeNext s { s.emit .exit with status := .exited }

/-- The code of a service. -/
theorem serviceOf_some {code : Word} {v : Service} (h : serviceOf code = some v) :
    (v = .printInt ∧ code = 1) ∨ (v = .printString ∧ code = 4) ∨ (v = .readInt ∧ code = 5)
      ∨ (v = .readString ∧ code = 8) ∨ (v = .exit ∧ code = 10) := by
  unfold serviceOf at h
  repeat' split at h
  all_goals first
    | (cases h; done)
    | (cases h; simp_all)

theorem serve_next (hm : s.params.trapModel = .fault) (h : serve s = .next t) : ServeNext s t := by
  have noRaise : ∀ e, raise e s ≠ .next t := fun e he => by rw [raise_fault e hm] at he; cases he
  unfold serve at h
  split at h <;> rename_i hv
  · obtain ⟨-, h2⟩ | ⟨h1, -⟩ | ⟨h1, -⟩ | ⟨h1, -⟩ | ⟨h1, -⟩ := serviceOf_some hv <;> first | cases h1 | skip
    cases h; exact .printInt h2
  · obtain ⟨h1, -⟩ | ⟨-, h2⟩ | ⟨h1, -⟩ | ⟨h1, -⟩ | ⟨h1, -⟩ := serviceOf_some hv <;> first | cases h1 | skip
    unfold servePrintString at h
    split at h
    · cases h; exact .printString h2 _
    · exact absurd h (noRaise _)
    · cases h
  · obtain ⟨h1, -⟩ | ⟨h1, -⟩ | ⟨-, h2⟩ | ⟨h1, -⟩ | ⟨h1, -⟩ := serviceOf_some hv <;> first | cases h1 | skip
    cases h; exact .readInt h2
  · obtain ⟨h1, -⟩ | ⟨h1, -⟩ | ⟨h1, -⟩ | ⟨-, h2⟩ | ⟨h1, -⟩ := serviceOf_some hv <;> first | cases h1 | skip
    unfold serveReadString at h
    simp only at h
    split at h
    · exact absurd h (noRaise _)
    · rename_i hb; cases h; exact .readString h2 hb
  · obtain ⟨h1, -⟩ | ⟨h1, -⟩ | ⟨h1, -⟩ | ⟨h1, -⟩ | ⟨-, h2⟩ := serviceOf_some hv <;> first | cases h1 | skip
    cases h; exact .exit h2
  · exact absurd h (noRaise _)

end Sys2Proof.Machine
end

