-- ==== Sys2Proof/Laws/Loader.lean ====
section
/-! SUPPORT. What the loader places: where bytes stand, and what memory with a list of bytes written answers. -/

namespace Sys2Proof.Machine

theorem memSetAll_cons (m : Memory) (c : Nat × Byte) (l : List (Nat × Byte)) :
    memSetAll m (c :: l) = memSetAll (memSet m c.1 c.2) l := rfl

theorem memSetAll_wf {m : Memory} (h : m.wf) {l : List (Nat × Byte)} (hl : ∀ c ∈ l, c.1 < 2 ^ 32) :
    (memSetAll m l).wf := by
  induction l generalizing m with
  | nil => exact h
  | cons c l ih => exact ih (memSet_wf h (hl c (by simp)) _) fun x hx => hl x (by simp [hx])

/-- An address that no entry names keeps its byte. -/
theorem memGet_memSetAll_other (m : Memory) {l : List (Nat × Byte)} {a : Nat} (h : ∀ x ∈ l, x.1 ≠ a) :
    memGet (memSetAll m l) a = memGet m a := by
  induction l generalizing m with
  | nil => rfl
  | cons c l ih =>
    rw [memSetAll_cons, ih _ fun x hx => h x (by simp [hx]), memGet_memSet, if_neg fun e => h c (by simp) e.symm]

/-- An address that some entry names holds the byte, if all entries that name it agree. -/
theorem memGet_memSetAll (m : Memory) {l : List (Nat × Byte)} {a : Nat} {b : Byte} (h : ∀ x ∈ l, x.1 = a → x.2 = b)
    (hx : ∃ x ∈ l, x.1 = a) : memGet (memSetAll m l) a = some b := by
  induction l generalizing m with
  | nil => simp at hx
  | cons c l ih =>
    rw [memSetAll_cons]
    by_cases hl : ∃ x ∈ l, x.1 = a
    · exact ih _ (fun x hx => h x (by simp [hx])) hl
    · rw [memGet_memSetAll_other _ fun x hx e => hl ⟨x, hx, e⟩, memGet_memSet]
      have hc : c.1 = a := by
        obtain ⟨x, hx, e⟩ := hx
        rcases List.mem_cons.1 hx with rfl | hx
        · exact e
        · exact absurd ⟨x, hx, e⟩ hl
      rw [if_pos hc.symm, h c (by simp) hc]

/-- The bytes a directive defines stand at consecutive addresses. -/
theorem mem_definedBytes {a : Nat} {l : List Byte} {x : Nat × Byte} :
    x ∈ definedBytes a (l.map some) ↔ ∃ k, x.1 = a + k ∧ l[k]? = some x.2 := by
  induction l generalizing a with
  | nil => simp [definedBytes]
  | cons b l ih =>
    simp only [List.map_cons, definedBytes, List.mem_cons, ih]
    constructor
    · rintro (rfl | ⟨k, h1, h2⟩)
      · exact ⟨0, rfl, rfl⟩
      · exact ⟨k + 1, by omega, by simpa using h2⟩
    · rintro ⟨k, h1, h2⟩
      cases k with
      | zero => exact .inl (Prod.ext h1 (by simpa using h2.symm))
      | succ k => exact .inr ⟨k, by omega, by simpa using h2⟩

/-- The bytes of the instruction words: each word's four bytes at its address, in the byte order. -/
theorem mem_codeBytes {e : Endian} {ws : List (Nat × Word)} {x : Nat × Byte} :
    x ∈ codeBytes e ws ↔ ∃ c ∈ ws, ∃ k, x.1 = c.1 + k ∧ (bytesOf e 4 c.2.toNat)[k]? = some x.2 := by
  simp [codeBytes, mem_definedBytes]

end Sys2Proof.Machine
end

