-- ==== Sys2Proof/Laws/PerInstr.lean ====
section
/-! SUPPORT. For each instruction: the word of a well-formed one fits the row of spec/opcode_table.json that bears its
mnemonic (spec/30_encoding.md R89). -/

namespace Sys2Proof.Laws

/-- The masks of a row, field by field. -/
theorem packR_and (rs rt rd : Reg) (shamt : BitVec 5) (funct m0 m5 : BitVec 6) (m1 m2 m3 m4 : BitVec 5) :
    packR rs rt rd shamt funct &&& (m0 ++ m1 ++ m2 ++ m3 ++ m4 ++ m5)
      = (0#6 &&& m0) ++ (regBits rs &&& m1) ++ (regBits rt &&& m2) ++ (regBits rd &&& m3) ++ (shamt &&& m4)
        ++ (funct &&& m5) := by
  simp only [← BitVec.and_append]; rfl

theorem packI_and (op : BitVec 6) (rs rt : Reg) (imm : Half) (m0 : BitVec 6) (m1 m2 : BitVec 5) (m3 : Half) :
    packI op rs rt imm &&& (m0 ++ m1 ++ m2 ++ m3)
      = (op &&& m0) ++ (regBits rs &&& m1) ++ (regBits rt &&& m2) ++ (imm &&& m3) := by
  simp only [← BitVec.and_append]; rfl

theorem packJ_and (op : BitVec 6) (a : BitVec 26) (m0 : BitVec 6) (m1 : BitVec 26) :
    packJ op a &&& (m0 ++ m1) = (op &&& m0) ++ (a &&& m1) := by
  simp only [← BitVec.and_append]; rfl

/-- The word of the instruction fits a row with its mnemonic. -/
def TableRow.Statement (i : Instr) : Prop :=
  i.wf = true → ∃ r ∈ opcodeTable, r.mnemonic = i.mnemonic ∧ r.fits (encode i) = true

/-- A row shown by its place in the table, and the masked word. -/
theorem TableRow.intro {i : Instr} (r : OpcodeRow) (hr : r ∈ opcodeTable) (hm : r.mnemonic = i.mnemonic)
    (hw : encode i &&& r.mask = r.pattern) : TableRow.Statement i :=
  fun _ => ⟨r, hr, hm, by simpa [OpcodeRow.fits] using hw⟩

theorem TableRow.mfhi (rd : Reg) : TableRow.Statement (.mfhi rd) :=
  TableRow.intro ⟨"mfhi", 0x00000010, 0xFFFF07FF⟩ (by decide) rfl (by
    rw [show (0xFFFF07FF : Word) = 63#6 ++ 31#5 ++ 31#5 ++ 0#5 ++ 31#5 ++ 63#6 from by decide]
    exact (packR_and ..).trans (by simp only [BitVec.and_zero]; decide))

theorem TableRow.mflo (rd : Reg) : TableRow.Statement (.mflo rd) :=
  TableRow.intro ⟨"mflo", 0x00000012, 0xFFFF07FF⟩ (by decide) rfl (by
    rw [show (0xFFFF07FF : Word) = 63#6 ++ 31#5 ++ 31#5 ++ 0#5 ++ 31#5 ++ 63#6 from by decide]
    exact (packR_and ..).trans (by simp only [BitVec.and_zero]; decide))

theorem TableRow.mthi (rs : Reg) : TableRow.Statement (.mthi rs) :=
  TableRow.intro ⟨"mthi", 0x00000011, 0xFC1FFFFF⟩ (by decide) rfl (by
    rw [show (0xFC1FFFFF : Word) = 63#6 ++ 0#5 ++ 31#5 ++ 31#5 ++ 31#5 ++ 63#6 from by decide]
    exact (packR_and ..).trans (by simp only [BitVec.and_zero]; decide))

theorem TableRow.mtlo (rs : Reg) : TableRow.Statement (.mtlo rs) :=
  TableRow.intro ⟨"mtlo", 0x00000013, 0xFC1FFFFF⟩ (by decide) rfl (by
    rw [show (0xFC1FFFFF : Word) = 63#6 ++ 0#5 ++ 31#5 ++ 31#5 ++ 31#5 ++ 63#6 from by decide]
    exact (packR_and ..).trans (by simp only [BitVec.and_zero]; decide))

theorem TableRow.lui (rt : Reg) (imm : Half) : TableRow.Statement (.lui rt imm) :=
  TableRow.intro ⟨"lui", 0x3C000000, 0xFFE00000⟩ (by decide) rfl (by
    rw [show (0xFFE00000 : Word) = 63#6 ++ 31#5 ++ 0#5 ++ 0#16 from by decide]
    exact (packI_and ..).trans (by simp only [BitVec.and_zero]; decide))

theorem TableRow.lw (rt : Reg) (imm : Half) (rs : Reg) : TableRow.Statement (.lw rt imm rs) :=
  TableRow.intro ⟨"lw", 0x8C000000, 0xFC000000⟩ (by decide) rfl (by
    rw [show (0xFC000000 : Word) = 63#6 ++ 0#5 ++ 0#5 ++ 0#16 from by decide]
    exact (packI_and ..).trans (by simp only [BitVec.and_zero]; decide))

theorem TableRow.sw (rt : Reg) (imm : Half) (rs : Reg) : TableRow.Statement (.sw rt imm rs) :=
  TableRow.intro ⟨"sw", 0xAC000000, 0xFC000000⟩ (by decide) rfl (by
    rw [show (0xFC000000 : Word) = 63#6 ++ 0#5 ++ 0#5 ++ 0#16 from by decide]
    exact (packI_and ..).trans (by simp only [BitVec.and_zero]; decide))

theorem TableRow.lh (rt : Reg) (imm : Half) (rs : Reg) : TableRow.Statement (.lh rt imm rs) :=
  TableRow.intro ⟨"lh", 0x84000000, 0xFC000000⟩ (by decide) rfl (by
    rw [show (0xFC000000 : Word) = 63#6 ++ 0#5 ++ 0#5 ++ 0#16 from by decide]
    exact (packI_and ..).trans (by simp only [BitVec.and_zero]; decide))

theorem TableRow.lhu (rt : Reg) (imm : Half) (rs : Reg) : TableRow.Statement (.lhu rt imm rs) :=
  TableRow.intro ⟨"lhu", 0x94000000, 0xFC000000⟩ (by decide) rfl (by
    rw [show (0xFC000000 : Word) = 63#6 ++ 0#5 ++ 0#5 ++ 0#16 from by decide]
    exact (packI_and ..).trans (by simp only [BitVec.and_zero]; decide))

theorem TableRow.sh (rt : Reg) (imm : Half) (rs : Reg) : TableRow.Statement (.sh rt imm rs) :=
  TableRow.intro ⟨"sh", 0xA4000000, 0xFC000000⟩ (by decide) rfl (by
    rw [show (0xFC000000 : Word) = 63#6 ++ 0#5 ++ 0#5 ++ 0#16 from by decide]
    exact (packI_and ..).trans (by simp only [BitVec.and_zero]; decide))

theorem TableRow.lb (rt : Reg) (imm : Half) (rs : Reg) : TableRow.Statement (.lb rt imm rs) :=
  TableRow.intro ⟨"lb", 0x80000000, 0xFC000000⟩ (by decide) rfl (by
    rw [show (0xFC000000 : Word) = 63#6 ++ 0#5 ++ 0#5 ++ 0#16 from by decide]
    exact (packI_and ..).trans (by simp only [BitVec.and_zero]; decide))

theorem TableRow.lbu (rt : Reg) (imm : Half) (rs : Reg) : TableRow.Statement (.lbu rt imm rs) :=
  TableRow.intro ⟨"lbu", 0x90000000, 0xFC000000⟩ (by decide) rfl (by
    rw [show (0xFC000000 : Word) = 63#6 ++ 0#5 ++ 0#5 ++ 0#16 from by decide]
    exact (packI_and ..).trans (by simp only [BitVec.and_zero]; decide))

theorem TableRow.sb (rt : Reg) (imm : Half) (rs : Reg) : TableRow.Statement (.sb rt imm rs) :=
  TableRow.intro ⟨"sb", 0xA0000000, 0xFC000000⟩ (by decide) rfl (by
    rw [show (0xFC000000 : Word) = 63#6 ++ 0#5 ++ 0#5 ++ 0#16 from by decide]
    exact (packI_and ..).trans (by simp only [BitVec.and_zero]; decide))

theorem TableRow.beq (rs : Reg) (rt : Reg) (imm : Half) : TableRow.Statement (.beq rs rt imm) :=
  TableRow.intro ⟨"beq", 0x10000000, 0xFC000000⟩ (by decide) rfl (by
    rw [show (0xFC000000 : Word) = 63#6 ++ 0#5 ++ 0#5 ++ 0#16 from by decide]
    exact (packI_and ..).trans (by simp only [BitVec.and_zero]; decide))

theorem TableRow.bne (rs : Reg) (rt : Reg) (imm : Half) : TableRow.Statement (.bne rs rt imm) :=
  TableRow.intro ⟨"bne", 0x14000000, 0xFC000000⟩ (by decide) rfl (by
    rw [show (0xFC000000 : Word) = 63#6 ++ 0#5 ++ 0#5 ++ 0#16 from by decide]
    exact (packI_and ..).trans (by simp only [BitVec.and_zero]; decide))

theorem TableRow.bgez (rs : Reg) (imm : Half) : TableRow.Statement (.bgez rs imm) :=
  TableRow.intro ⟨"bgez", 0x04010000, 0xFC1F0000⟩ (by decide) rfl (by
    rw [show (0xFC1F0000 : Word) = 63#6 ++ 0#5 ++ 31#5 ++ 0#16 from by decide]
    exact (packI_and ..).trans (by simp only [BitVec.and_zero]; decide))

theorem TableRow.bgtz (rs : Reg) (imm : Half) : TableRow.Statement (.bgtz rs imm) :=
  TableRow.intro ⟨"bgtz", 0x1C000000, 0xFC1F0000⟩ (by decide) rfl (by
    rw [show (0xFC1F0000 : Word) = 63#6 ++ 0#5 ++ 31#5 ++ 0#16 from by decide]
    exact (packI_and ..).trans (by simp only [BitVec.and_zero]; decide))

theorem TableRow.blez (rs : Reg) (imm : Half) : TableRow.Statement (.blez rs imm) :=
  TableRow.intro ⟨"blez", 0x18000000, 0xFC1F0000⟩ (by decide) rfl (by
    rw [show (0xFC1F0000 : Word) = 63#6 ++ 0#5 ++ 31#5 ++ 0#16 from by decide]
    exact (packI_and ..).trans (by simp only [BitVec.and_zero]; decide))

theorem TableRow.bltz (rs : Reg) (imm : Half) : TableRow.Statement (.bltz rs imm) :=
  TableRow.intro ⟨"bltz", 0x04000000, 0xFC1F0000⟩ (by decide) rfl (by
    rw [show (0xFC1F0000 : Word) = 63#6 ++ 0#5 ++ 31#5 ++ 0#16 from by decide]
    exact (packI_and ..).trans (by simp only [BitVec.and_zero]; decide))

theorem TableRow.bgezal (rs : Reg) (imm : Half) : TableRow.Statement (.bgezal rs imm) :=
  TableRow.intro ⟨"bgezal", 0x04110000, 0xFC1F0000⟩ (by decide) rfl (by
    rw [show (0xFC1F0000 : Word) = 63#6 ++ 0#5 ++ 31#5 ++ 0#16 from by decide]
    exact (packI_and ..).trans (by simp only [BitVec.and_zero]; decide))

theorem TableRow.bltzal (rs : Reg) (imm : Half) : TableRow.Statement (.bltzal rs imm) :=
  TableRow.intro ⟨"bltzal", 0x04100000, 0xFC1F0000⟩ (by decide) rfl (by
    rw [show (0xFC1F0000 : Word) = 63#6 ++ 0#5 ++ 31#5 ++ 0#16 from by decide]
    exact (packI_and ..).trans (by simp only [BitVec.and_zero]; decide))

theorem TableRow.j (addr26 : BitVec 26) : TableRow.Statement (.j addr26) :=
  TableRow.intro ⟨"j", 0x08000000, 0xFC000000⟩ (by decide) rfl (by
    rw [show (0xFC000000 : Word) = 63#6 ++ 0#26 from by decide]
    exact (packJ_and ..).trans (by simp only [BitVec.and_zero]; decide))

theorem TableRow.jal (addr26 : BitVec 26) : TableRow.Statement (.jal addr26) :=
  TableRow.intro ⟨"jal", 0x0C000000, 0xFC000000⟩ (by decide) rfl (by
    rw [show (0xFC000000 : Word) = 63#6 ++ 0#26 from by decide]
    exact (packJ_and ..).trans (by simp only [BitVec.and_zero]; decide))

theorem TableRow.jr (rs : Reg) : TableRow.Statement (.jr rs) :=
  TableRow.intro ⟨"jr", 0x00000008, 0xFC1FFFFF⟩ (by decide) rfl (by
    rw [show (0xFC1FFFFF : Word) = 63#6 ++ 0#5 ++ 31#5 ++ 31#5 ++ 31#5 ++ 63#6 from by decide]
    exact (packR_and ..).trans (by simp only [BitVec.and_zero]; decide))

theorem TableRow.jalr (rd : Reg) (rs : Reg) : TableRow.Statement (.jalr rd rs) :=
  TableRow.intro ⟨"jalr", 0x00000009, 0xFC1F07FF⟩ (by decide) rfl (by
    rw [show (0xFC1F07FF : Word) = 63#6 ++ 0#5 ++ 31#5 ++ 0#5 ++ 31#5 ++ 63#6 from by decide]
    exact (packR_and ..).trans (by simp only [BitVec.and_zero]; decide))

theorem TableRow.add (rd : Reg) (rs : Reg) (rt : Reg) : TableRow.Statement (.add rd rs rt) :=
  TableRow.intro ⟨"add", 0x00000020, 0xFC0007FF⟩ (by decide) rfl (by
    rw [show (0xFC0007FF : Word) = 63#6 ++ 0#5 ++ 0#5 ++ 0#5 ++ 31#5 ++ 63#6 from by decide]
    exact (packR_and ..).trans (by simp only [BitVec.and_zero]; decide))

theorem TableRow.sub (rd : Reg) (rs : Reg) (rt : Reg) : TableRow.Statement (.sub rd rs rt) :=
  TableRow.intro ⟨"sub", 0x00000022, 0xFC0007FF⟩ (by decide) rfl (by
    rw [show (0xFC0007FF : Word) = 63#6 ++ 0#5 ++ 0#5 ++ 0#5 ++ 31#5 ++ 63#6 from by decide]
    exact (packR_and ..).trans (by simp only [BitVec.and_zero]; decide))

theorem TableRow.addu (rd : Reg) (rs : Reg) (rt : Reg) : TableRow.Statement (.addu rd rs rt) :=
  TableRow.intro ⟨"addu", 0x00000021, 0xFC0007FF⟩ (by decide) rfl (by
    rw [show (0xFC0007FF : Word) = 63#6 ++ 0#5 ++ 0#5 ++ 0#5 ++ 31#5 ++ 63#6 from by decide]
    exact (packR_and ..).trans (by simp only [BitVec.and_zero]; decide))

theorem TableRow.subu (rd : Reg) (rs : Reg) (rt : Reg) : TableRow.Statement (.subu rd rs rt) :=
  TableRow.intro ⟨"subu", 0x00000023, 0xFC0007FF⟩ (by decide) rfl (by
    rw [show (0xFC0007FF : Word) = 63#6 ++ 0#5 ++ 0#5 ++ 0#5 ++ 31#5 ++ 63#6 from by decide]
    exact (packR_and ..).trans (by simp only [BitVec.and_zero]; decide))

theorem TableRow.addi (rt : Reg) (rs : Reg) (imm : Half) : TableRow.Statement (.addi rt rs imm) :=
  TableRow.intro ⟨"addi", 0x20000000, 0xFC000000⟩ (by decide) rfl (by
    rw [show (0xFC000000 : Word) = 63#6 ++ 0#5 ++ 0#5 ++ 0#16 from by decide]
    exact (packI_and ..).trans (by simp only [BitVec.and_zero]; decide))

theorem TableRow.addiu (rt : Reg) (rs : Reg) (imm : Half) : TableRow.Statement (.addiu rt rs imm) :=
  TableRow.intro ⟨"addiu", 0x24000000, 0xFC000000⟩ (by decide) rfl (by
    rw [show (0xFC000000 : Word) = 63#6 ++ 0#5 ++ 0#5 ++ 0#16 from by decide]
    exact (packI_and ..).trans (by simp only [BitVec.and_zero]; decide))

theorem TableRow.mult (rs : Reg) (rt : Reg) : TableRow.Statement (.mult rs rt) :=
  TableRow.intro ⟨"mult", 0x00000018, 0xFC00FFFF⟩ (by decide) rfl (by
    rw [show (0xFC00FFFF : Word) = 63#6 ++ 0#5 ++ 0#5 ++ 31#5 ++ 31#5 ++ 63#6 from by decide]
    exact (packR_and ..).trans (by simp only [BitVec.and_zero]; decide))

theorem TableRow.multu (rs : Reg) (rt : Reg) : TableRow.Statement (.multu rs rt) :=
  TableRow.intro ⟨"multu", 0x00000019, 0xFC00FFFF⟩ (by decide) rfl (by
    rw [show (0xFC00FFFF : Word) = 63#6 ++ 0#5 ++ 0#5 ++ 31#5 ++ 31#5 ++ 63#6 from by decide]
    exact (packR_and ..).trans (by simp only [BitVec.and_zero]; decide))

theorem TableRow.div (rs : Reg) (rt : Reg) : TableRow.Statement (.div rs rt) :=
  TableRow.intro ⟨"div", 0x0000001A, 0xFC00FFFF⟩ (by decide) rfl (by
    rw [show (0xFC00FFFF : Word) = 63#6 ++ 0#5 ++ 0#5 ++ 31#5 ++ 31#5 ++ 63#6 from by decide]
    exact (packR_and ..).trans (by simp only [BitVec.and_zero]; decide))

theorem TableRow.divu (rs : Reg) (rt : Reg) : TableRow.Statement (.divu rs rt) :=
  TableRow.intro ⟨"divu", 0x0000001B, 0xFC00FFFF⟩ (by decide) rfl (by
    rw [show (0xFC00FFFF : Word) = 63#6 ++ 0#5 ++ 0#5 ++ 31#5 ++ 31#5 ++ 63#6 from by decide]
    exact (packR_and ..).trans (by simp only [BitVec.and_zero]; decide))

theorem TableRow.or (rd : Reg) (rs : Reg) (rt : Reg) : TableRow.Statement (.or rd rs rt) :=
  TableRow.intro ⟨"or", 0x00000025, 0xFC0007FF⟩ (by decide) rfl (by
    rw [show (0xFC0007FF : Word) = 63#6 ++ 0#5 ++ 0#5 ++ 0#5 ++ 31#5 ++ 63#6 from by decide]
    exact (packR_and ..).trans (by simp only [BitVec.and_zero]; decide))

theorem TableRow.and (rd : Reg) (rs : Reg) (rt : Reg) : TableRow.Statement (.and rd rs rt) :=
  TableRow.intro ⟨"and", 0x00000024, 0xFC0007FF⟩ (by decide) rfl (by
    rw [show (0xFC0007FF : Word) = 63#6 ++ 0#5 ++ 0#5 ++ 0#5 ++ 31#5 ++ 63#6 from by decide]
    exact (packR_and ..).trans (by simp only [BitVec.and_zero]; decide))

theorem TableRow.xor (rd : Reg) (rs : Reg) (rt : Reg) : TableRow.Statement (.xor rd rs rt) :=
  TableRow.intro ⟨"xor", 0x00000026, 0xFC0007FF⟩ (by decide) rfl (by
    rw [show (0xFC0007FF : Word) = 63#6 ++ 0#5 ++ 0#5 ++ 0#5 ++ 31#5 ++ 63#6 from by decide]
    exact (packR_and ..).trans (by simp only [BitVec.and_zero]; decide))

theorem TableRow.nor (rd : Reg) (rs : Reg) (rt : Reg) : TableRow.Statement (.nor rd rs rt) :=
  TableRow.intro ⟨"nor", 0x00000027, 0xFC0007FF⟩ (by decide) rfl (by
    rw [show (0xFC0007FF : Word) = 63#6 ++ 0#5 ++ 0#5 ++ 0#5 ++ 31#5 ++ 63#6 from by decide]
    exact (packR_and ..).trans (by simp only [BitVec.and_zero]; decide))

theorem TableRow.ori (rt : Reg) (rs : Reg) (imm : Half) : TableRow.Statement (.ori rt rs imm) :=
  TableRow.intro ⟨"ori", 0x34000000, 0xFC000000⟩ (by decide) rfl (by
    rw [show (0xFC000000 : Word) = 63#6 ++ 0#5 ++ 0#5 ++ 0#16 from by decide]
    exact (packI_and ..).trans (by simp only [BitVec.and_zero]; decide))

theorem TableRow.andi (rt : Reg) (rs : Reg) (imm : Half) : TableRow.Statement (.andi rt rs imm) :=
  TableRow.intro ⟨"andi", 0x30000000, 0xFC000000⟩ (by decide) rfl (by
    rw [show (0xFC000000 : Word) = 63#6 ++ 0#5 ++ 0#5 ++ 0#16 from by decide]
    exact (packI_and ..).trans (by simp only [BitVec.and_zero]; decide))

theorem TableRow.xori (rt : Reg) (rs : Reg) (imm : Half) : TableRow.Statement (.xori rt rs imm) :=
  TableRow.intro ⟨"xori", 0x38000000, 0xFC000000⟩ (by decide) rfl (by
    rw [show (0xFC000000 : Word) = 63#6 ++ 0#5 ++ 0#5 ++ 0#16 from by decide]
    exact (packI_and ..).trans (by simp only [BitVec.and_zero]; decide))

theorem TableRow.sllv (rd : Reg) (rt : Reg) (rs : Reg) : TableRow.Statement (.sllv rd rt rs) :=
  TableRow.intro ⟨"sllv", 0x00000004, 0xFC0007FF⟩ (by decide) rfl (by
    rw [show (0xFC0007FF : Word) = 63#6 ++ 0#5 ++ 0#5 ++ 0#5 ++ 31#5 ++ 63#6 from by decide]
    exact (packR_and ..).trans (by simp only [BitVec.and_zero]; decide))

theorem TableRow.srlv (rd : Reg) (rt : Reg) (rs : Reg) : TableRow.Statement (.srlv rd rt rs) :=
  TableRow.intro ⟨"srlv", 0x00000006, 0xFC0007FF⟩ (by decide) rfl (by
    rw [show (0xFC0007FF : Word) = 63#6 ++ 0#5 ++ 0#5 ++ 0#5 ++ 31#5 ++ 63#6 from by decide]
    exact (packR_and ..).trans (by simp only [BitVec.and_zero]; decide))

theorem TableRow.srav (rd : Reg) (rt : Reg) (rs : Reg) : TableRow.Statement (.srav rd rt rs) :=
  TableRow.intro ⟨"srav", 0x00000007, 0xFC0007FF⟩ (by decide) rfl (by
    rw [show (0xFC0007FF : Word) = 63#6 ++ 0#5 ++ 0#5 ++ 0#5 ++ 31#5 ++ 63#6 from by decide]
    exact (packR_and ..).trans (by simp only [BitVec.and_zero]; decide))

theorem TableRow.sll (rd : Reg) (rt : Reg) (shamt : Nat) : TableRow.Statement (.sll rd rt shamt) :=
  TableRow.intro ⟨"sll", 0x00000000, 0xFFE0003F⟩ (by decide) rfl (by
    rw [show (0xFFE0003F : Word) = 63#6 ++ 31#5 ++ 0#5 ++ 0#5 ++ 0#5 ++ 63#6 from by decide]
    exact (packR_and ..).trans (by simp only [BitVec.and_zero]; decide))

theorem TableRow.srl (rd : Reg) (rt : Reg) (shamt : Nat) : TableRow.Statement (.srl rd rt shamt) :=
  TableRow.intro ⟨"srl", 0x00000002, 0xFFE0003F⟩ (by decide) rfl (by
    rw [show (0xFFE0003F : Word) = 63#6 ++ 31#5 ++ 0#5 ++ 0#5 ++ 0#5 ++ 63#6 from by decide]
    exact (packR_and ..).trans (by simp only [BitVec.and_zero]; decide))

theorem TableRow.sra (rd : Reg) (rt : Reg) (shamt : Nat) : TableRow.Statement (.sra rd rt shamt) :=
  TableRow.intro ⟨"sra", 0x00000003, 0xFFE0003F⟩ (by decide) rfl (by
    rw [show (0xFFE0003F : Word) = 63#6 ++ 31#5 ++ 0#5 ++ 0#5 ++ 0#5 ++ 63#6 from by decide]
    exact (packR_and ..).trans (by simp only [BitVec.and_zero]; decide))

theorem TableRow.slt (rd : Reg) (rs : Reg) (rt : Reg) : TableRow.Statement (.slt rd rs rt) :=
  TableRow.intro ⟨"slt", 0x0000002A, 0xFC0007FF⟩ (by decide) rfl (by
    rw [show (0xFC0007FF : Word) = 63#6 ++ 0#5 ++ 0#5 ++ 0#5 ++ 31#5 ++ 63#6 from by decide]
    exact (packR_and ..).trans (by simp only [BitVec.and_zero]; decide))

theorem TableRow.sltu (rd : Reg) (rs : Reg) (rt : Reg) : TableRow.Statement (.sltu rd rs rt) :=
  TableRow.intro ⟨"sltu", 0x0000002B, 0xFC0007FF⟩ (by decide) rfl (by
    rw [show (0xFC0007FF : Word) = 63#6 ++ 0#5 ++ 0#5 ++ 0#5 ++ 31#5 ++ 63#6 from by decide]
    exact (packR_and ..).trans (by simp only [BitVec.and_zero]; decide))

theorem TableRow.slti (rt : Reg) (rs : Reg) (imm : Half) : TableRow.Statement (.slti rt rs imm) :=
  TableRow.intro ⟨"slti", 0x28000000, 0xFC000000⟩ (by decide) rfl (by
    rw [show (0xFC000000 : Word) = 63#6 ++ 0#5 ++ 0#5 ++ 0#16 from by decide]
    exact (packI_and ..).trans (by simp only [BitVec.and_zero]; decide))

theorem TableRow.sltiu (rt : Reg) (rs : Reg) (imm : Half) : TableRow.Statement (.sltiu rt rs imm) :=
  TableRow.intro ⟨"sltiu", 0x2C000000, 0xFC000000⟩ (by decide) rfl (by
    rw [show (0xFC000000 : Word) = 63#6 ++ 0#5 ++ 0#5 ++ 0#16 from by decide]
    exact (packI_and ..).trans (by simp only [BitVec.and_zero]; decide))

theorem TableRow.syscall : TableRow.Statement (.syscall) :=
  TableRow.intro ⟨"syscall", 0x0000000C, 0xFFFFFFFF⟩ (by decide) rfl (by decide)

theorem TableRow.brk : TableRow.Statement (.brk) :=
  TableRow.intro ⟨"break", 0x0000000D, 0xFFFFFFFF⟩ (by decide) rfl (by decide)

theorem TableRow.rfe : TableRow.Statement (.rfe) :=
  TableRow.intro ⟨"rfe", 0x42000010, 0xFFFFFFFF⟩ (by decide) rfl (by decide)

end Sys2Proof.Laws
end

