-- ==== Sys2Proof/Laws/Values.lean ====
section
/-! SUPPORT. What the value computations and the services' scans answer: one lemma each, to cite instead of unfolding
them. -/

namespace Sys2Proof.Machine

/-! ### Flags.lean and Operands.lean -/

theorem addOverflows_iff (a b : Word) : addOverflows a b = true ↔ a.msb = b.msb ∧ (a + b).msb ≠ a.msb := by
  simp [addOverflows]

theorem subOverflows_iff (a b : Word) : subOverflows a b = true ↔ a.msb ≠ b.msb ∧ (a - b).msb ≠ a.msb := by
  simp [subOverflows]

theorem boolWord_lessSigned (a b : Word) : boolWord (lessSigned a b) = if a.toInt < b.toInt then 1 else 0 := by
  by_cases h : a.toInt < b.toInt <;> simp [boolWord, lessSigned, h]

theorem boolWord_lessUnsigned (a b : Word) : boolWord (lessUnsigned a b) = if a.toNat < b.toNat then 1 else 0 := by
  by_cases h : a.toNat < b.toNat <;> simp [boolWord, lessUnsigned, h]

theorem ltZero_iff (v : Word) : ltZero v = true ↔ v.toInt < 0 := by
  simp [ltZero, BitVec.msb_eq_toInt]

theorem geZero_iff (v : Word) : geZero v = true ↔ 0 ≤ v.toInt := by
  simp [geZero, BitVec.msb_eq_toInt]

theorem leZero_iff (v : Word) : leZero v = true ↔ v.toInt ≤ 0 := by
  have e : v = 0 ↔ v.toInt = 0 := ⟨fun h => by rw [h]; rfl, fun h => BitVec.eq_of_toInt_eq h⟩
  simp only [leZero, BitVec.msb_eq_toInt, Bool.or_eq_true, decide_eq_true_eq, beq_iff_eq, e]
  omega

theorem gtZero_iff (v : Word) : gtZero v = true ↔ 0 < v.toInt := by
  have h := leZero_iff v
  rw [show gtZero v = !leZero v by simp [gtZero, leZero, bne], Bool.not_eq_true', ← Bool.not_eq_true, h]
  omega

theorem zext_half (v : Half) : zext v = 0#16 ++ v := by
  apply BitVec.eq_of_toNat_eq
  rw [toNat_append_eq]
  have := v.isLt
  simp [zext]
  omega

theorem shiftAmount_eq (v : Word) : shiftAmount v = v.toNat % 32 := by
  simp [shiftAmount, BitVec.extractLsb', Nat.shiftRight_eq_div_pow]

/-! ### Runs of bytes -/

theorem add_one_ofNat (a : Word) (j : Nat) : a + 1 + BitVec.ofNat 32 j = a + BitVec.ofNat 32 (j + 1) := by
  apply BitVec.eq_of_toNat_eq
  simp only [BitVec.toNat_add, BitVec.toNat_ofNat, show (1 : Word).toNat = 1 from rfl]
  omega

theorem firstInRun_eq (p : Word → Bool) (a : Word) (n j : Nat) (hj : j < n)
    (h : ∀ k, k < j → p (a + BitVec.ofNat 32 k) = false) (hp : p (a + BitVec.ofNat 32 j) = true) :
    firstInRun p a n = some (a + BitVec.ofNat 32 j) := by
  induction j generalizing a n with
  | zero =>
    obtain ⟨m, rfl⟩ : ∃ k, n = k + 1 := ⟨n - 1, by omega⟩
    rw [BitVec.add_zero] at hp ⊢
    simp [firstInRun, hp]
  | succ j ih =>
    obtain ⟨m, rfl⟩ : ∃ k, n = k + 1 := ⟨n - 1, by omega⟩
    have h0 := h 0 (by omega)
    rw [BitVec.add_zero] at h0
    rw [firstInRun, if_neg (by simp [h0]), ih (a + 1) m (by omega)
      (fun k hk => by rw [add_one_ofNat]; exact h (k + 1) (by omega)) (by rw [add_one_ofNat]; exact hp), add_one_ofNat]

/-! ### The services -/

theorem serve_printString {s : State} (h : s.reg 2 = 4) : serve s = servePrintString s := by
  have : serviceOf (s.reg 2) = some .printString := by rw [h]; rfl
  unfold serve
  rw [this]

/-- What a scan of at least `n + 1` bytes answers when the first `n` exist and are not zero, and the next one is the
terminator. -/
theorem scan_ended (s : State) (a : Word) (n fuel : Nat) (hm : n < fuel)
    (h : ∀ j, j < n → s.allocated (a + BitVec.ofNat 32 j) = true ∧ s.byteAt (a + BitVec.ofNat 32 j) ≠ 0)
    (hn : s.allocated (a + BitVec.ofNat 32 n) = true) (hz : s.byteAt (a + BitVec.ofNat 32 n) = 0) :
    s.scan a fuel = .ended ((List.range n).map fun j => s.byteAt (a + BitVec.ofNat 32 j)) := by
  induction n generalizing a fuel with
  | zero =>
    obtain ⟨m, rfl⟩ : ∃ k, fuel = k + 1 := ⟨fuel - 1, by omega⟩
    rw [BitVec.add_zero] at hn hz
    simp [State.scan, hn, hz]
  | succ n ih =>
    obtain ⟨m, rfl⟩ : ∃ k, fuel = k + 1 := ⟨fuel - 1, by omega⟩
    have h0 : s.allocated a = true ∧ s.byteAt a ≠ 0 := by simpa using h 0 (by omega)
    rw [State.scan, if_neg (by simp [h0.1]), if_neg h0.2, ih (a + 1) m (by omega)
      (fun j hj => by rw [add_one_ofNat]; exact h (j + 1) (by omega)) (by rw [add_one_ofNat]; exact hn)
      (by rw [add_one_ofNat]; exact hz)]
    simp only [Scan.cons, List.range_succ_eq_map, List.map_cons, List.map_map, Function.comp_def, add_one_ofNat]
    simp

/-- The same where the next byte does not exist. -/
theorem scan_missing (s : State) (a : Word) (n fuel : Nat) (hm : n < fuel)
    (h : ∀ j, j < n → s.allocated (a + BitVec.ofNat 32 j) = true ∧ s.byteAt (a + BitVec.ofNat 32 j) ≠ 0)
    (hn : s.allocated (a + BitVec.ofNat 32 n) = false) : s.scan a fuel = .missing (a + BitVec.ofNat 32 n) := by
  induction n generalizing a fuel with
  | zero =>
    obtain ⟨m, rfl⟩ : ∃ k, fuel = k + 1 := ⟨fuel - 1, by omega⟩
    rw [BitVec.add_zero] at hn ⊢
    simp [State.scan, hn]
  | succ n ih =>
    obtain ⟨m, rfl⟩ : ∃ k, fuel = k + 1 := ⟨fuel - 1, by omega⟩
    have h0 : s.allocated a = true ∧ s.byteAt a ≠ 0 := by simpa using h 0 (by omega)
    rw [State.scan, if_neg (by simp [h0.1]), if_neg h0.2, ih (a + 1) m (by omega)
      (fun j hj => by rw [add_one_ofNat]; exact h (j + 1) (by omega)) (by rw [add_one_ofNat]; exact hn), add_one_ofNat]
    rfl

theorem bufferExc_none {s : State} {a : Word} {n : Nat} (h : s.bufferExc a n = none) :
    firstInRun (fun x => !s.allocated x) a n = none ∧ (s.params.smc = .refuse → firstInRun s.inText a n = none) := by
  unfold State.bufferExc at h
  split at h
  · cases h
  · next h0 =>
    refine ⟨h0, fun hs => ?_⟩
    rw [if_pos hs] at h
    exact Option.map_eq_none_iff.mp h

end Sys2Proof.Machine
end

