-- ==== Sys2Proof/Tests/Slice0.lean ====
section
/-! SUPPORT. Tests. Every expected value is copied from the examples of the instruction rules or from
spec/95_test_vectors.md (the vector's id stands beside the test), or worked out by hand from the rule named. -/

namespace Sys2Proof.Tests

open Sys2Proof.Machine

/-! ### Well-formedness: the three checks refuse an amount of 32 (R94) -/

theorem test_wf_sll : Instr.wf (.sll 8 9 32) = false ∧ Instr.wf (.sll 8 9 31) = true := by decide
theorem test_wf_srl : Instr.wf (.srl 8 9 32) = false ∧ Instr.wf (.srl 8 9 31) = true := by decide
theorem test_wf_sra : Instr.wf (.sra 8 9 32) = false ∧ Instr.wf (.sra 8 9 31) = true := by decide

/-! ### Decoding: the example word of every instruction's rule -/

/-- The word decodes to the instruction, and the instruction encodes to the word. -/
def agree (c : Word × Instr) : Bool := decode c.1 = .instr c.2 && encode c.2 = c.1

theorem test_decode_transfers : [
    (0x00004010, .mfhi 8), (0x00004812, .mflo 9), (0x01400011, .mthi 10), (0x01600013, .mtlo 11),
    (0x3C081234, .lui 8 0x1234), (0x8FA80004, .lw 8 4 29), (0xAFBF0000, .sw 31 0 29),
    (0x8489FFFE, .lh 9 0xFFFE 4), (0x94890002, .lhu 9 2 4), (0xA4AA0006, .sh 10 6 5),
    (0x808BFFFF, .lb 11 0xFFFF 4), (0x908B0003, .lbu 11 3 4), (0xA0AC0000, .sb 12 0 5)].all agree = true := by
  decide

theorem test_decode_branches : [
    (0x11090003, .beq 8 9 3), (0x1500FFFD, .bne 8 0 0xFFFD), (0x04810001, .bgez 4 1), (0x1C800001, .bgtz 4 1),
    (0x18800001, .blez 4 1), (0x0480FFFF, .bltz 4 0xFFFF), (0x0491003B, .bgezal 4 0x3B),
    (0x0490003B, .bltzal 4 0x3B), (0x08100010, .j 0x0100010), (0x0C100040, .jal 0x0100040),
    (0x03E00008, .jr 31), (0x03208009, .jalr 16 25), (0x0320F809, .jalr 31 25)].all agree = true := by
  decide

theorem test_decode_arith : [
    (0x012A4020, .add 8 9 10), (0x012A4022, .sub 8 9 10), (0x00851021, .addu 2 4 5), (0x00851023, .subu 2 4 5),
    (0x23BDFFF8, .addi 29 29 0xFFF8), (0x25080001, .addiu 8 8 1), (0x00850018, .mult 4 5), (0x00850019, .multu 4 5),
    (0x0109001A, .div 8 9), (0x0109001B, .divu 8 9)].all agree = true := by
  decide

theorem test_decode_logic : [
    (0x012A4025, .or 8 9 10), (0x012A4024, .and 8 9 10), (0x012A4026, .xor 8 9 10), (0x012A4027, .nor 8 9 10),
    (0x35085678, .ori 8 8 0x5678), (0x310900FF, .andi 9 8 0xFF), (0x3909FFFF, .xori 9 8 0xFFFF),
    (0x01494004, .sllv 8 9 10), (0x01494006, .srlv 8 9 10), (0x01494007, .srav 8 9 10), (0x00094100, .sll 8 9 4),
    (0x00094102, .srl 8 9 4), (0x00094103, .sra 8 9 4), (0x0085402A, .slt 8 4 5), (0x0085402B, .sltu 8 4 5),
    (0x2888FFFF, .slti 8 4 0xFFFF), (0x2C88FFFF, .sltiu 8 4 0xFFFF)].all agree = true := by
  decide

theorem test_decode_system :
    [(0x0000000C, .syscall), (0x0000000D, .brk), (0x42000010, .rfe)].all agree = true := by
  decide

/-- Reserved words, one row each of V-D3 to V-D17. -/
theorem test_decode_reserved :
    decode 0x0000003F = .reserved .blankFunct ∧ decode 0x44000000 = .reserved .blankOpcode
      ∧ decode 0x04020000 = .reserved .blankBcond ∧ decode 0x42000018 = .reserved .coproWord
      ∧ decode 0x00200000 = .reserved .unusedField ∧ decode 0x01095044 = .reserved .unusedField
      ∧ decode 0x0000004C = .reserved .unusedField ∧ decode 0x03E00808 = .reserved .unusedField
      ∧ decode 0x0320F849 = .reserved .unusedField ∧ decode 0x01090818 = .reserved .unusedField
      ∧ decode 0x00004050 = .reserved .unusedField ∧ decode 0x01000811 = .reserved .unusedField
      ∧ decode 0x3C200000 = .reserved .unusedField ∧ decode 0x18810000 = .reserved .unusedField := by
  decide

/-- A word fits at most one row, on the words of V-D1 to V-D19. -/
theorem test_table_rows : opcodeTable.length = 55
    ∧ (opcodeTable.filter fun r => r.fits 0x00000000).map (·.mnemonic) = ["sll"]
    ∧ opcodeTable.filter (fun r => r.fits 0x04080000) = [] := by
  decide

theorem test_decodeTableWord : decodeTableWord 32 0x8FA80004 = some (.lw 8 4 29) ∧ decodeTableWord 32 1 = none := by
  decide

/-! ### One step -/

/-- A state with registers set. -/
def withRegs (s : State) (l : List (Reg × Word)) : State := l.foldl (fun s c => s.setReg c.1 c.2) s

/-- The eight data bytes of the transfer vectors, at 0x10010000, as the whole data image. -/
def dataState : State :=
  { State.reset.setBytes 0x10010000 [0x80, 0x91, 0xA2, 0xB3, 0x04, 0x15, 0x26, 0x37] with
    data := [⟨0x10010000, 8⟩] }

/-- One step on a word at `pc`. -/
def go (s : State) (w : Nat) : Outcome := step (s.withFetchWord 32 w)

/-- The outcome is a next state with a property. -/
def nextWith (o : Outcome) (p : State → Bool) : Bool :=
  match o with
  | .next t => p t
  | .fault _ => false
  | .refused _ => false

/-- The outcome is the fault of a cause at the program's first word. -/
def raises (o : Outcome) (e : Exc) : Bool :=
  match o with
  | .fault f => f = .raised e 0x00400000
  | .next _ => false
  | .refused _ => false

/-- The outcome is a next state at `pc` with a register's value. -/
def gives (o : Outcome) (r : Reg) (v : Word) : Bool := nextWith o fun t => t.reg r = v && t.pc = 0x00400004

/-- The outcome is a next state with `HI` and `LO`. -/
def givesHiLo (o : Outcome) (h l : Word) : Bool := nextWith o fun t => t.hi = h && t.lo = l && t.pc = 0x00400004

/-- The outcome is a next state at a `pc`. -/
def goesTo (o : Outcome) (a : Word) : Bool := nextWith o fun t => t.pc = a

/-- The bytes at 0x10010000. -/
def dataBytes (t : State) : List Byte := t.bytesAt 0x10010000 8

def r (l : List (Reg × Word)) : State := withRegs State.reset l
def d (l : List (Reg × Word)) : State := withRegs dataState l
def big (s : State) : State := { s with params := { s.params with endian := .big } }

/- Transfers -/
theorem test_mfhi : gives (go ((r []).setHi 0xDEADBEEF) 0x00004010) 8 0xDEADBEEF = true := by decide -- V-T1
theorem test_mflo_zero : gives (go ((r []).setLo 0x12345678) 0x00000012) 0 0 = true := by decide -- V-T2
theorem test_mthi : givesHiLo (go (((r [(10, 0x12345678)]).setHi 5).setLo 6) 0x01400011) 0x12345678 6 = true := by decide -- V-T3
theorem test_mtlo : givesHiLo (go (((r []).setHi 5).setLo 6) 0x00000013) 5 0 = true := by decide -- V-T4
theorem test_lui : gives (go (r [(8, 7)]) 0x3C08FFFF) 8 0xFFFF0000 = true := by decide -- V-T5
theorem test_lw : gives (go (d [(4, 0x10010008)]) 0x8C88FFFC) 8 0x37261504 = true := by decide -- V-T11
theorem test_lw_big_same_reg : gives (go (big (d [(4, 0x10010000)])) 0x8C840000) 4 0x8091A2B3 = true := by decide -- V-T19
theorem test_lh : gives (go (d [(4, 0x10010000)]) 0x84880002) 8 0xFFFFB3A2 = true := by decide -- V-T14
theorem test_lh_misaligned : raises (go (d [(4, 0x10010000)]) 0x84880001) (.addressErrorLoad 0x10010001) = true := by decide -- V-T31
theorem test_lhu : gives (go (big (d [(4, 0x10010000)])) 0x94880006) 8 0x00002637 = true := by decide -- V-T15
theorem test_lb : gives (go (d [(4, 0x10010000)]) 0x80880000) 8 0xFFFFFF80 = true := by decide -- V-T16
theorem test_lb_missing : raises (go (d [(4, 0x10010000)]) 0x8088FFFF) (.busErrorLoad 0x1000FFFF) = true := by decide -- V-T35
theorem test_lbu : gives (go (d [(4, 0x10010000)]) 0x90880000) 8 0x00000080 = true := by decide -- V-T17
theorem test_lw_own_word : gives (go (d [(4, 0x00400000)]) 0x8C880000) 8 0x8C880000 = true := by decide -- V-T39
theorem test_sw : nextWith (go (d [(4, 0x10010000), (9, 0xCAFEF00D)]) 0xAC890004)
    (fun t => dataBytes t = [0x80, 0x91, 0xA2, 0xB3, 0x0D, 0xF0, 0xFE, 0xCA]) = true := by decide -- V-T20
theorem test_sw_to_text : raises (go (d [(4, 0x00400000)]) 0xAC880000) (.storeToText 0x00400000) = true := by decide -- V-T37
theorem test_sh_big : nextWith (go (big (d [(4, 0x10010000), (9, 0xCAFEF00D)])) 0xA4890002)
    (fun t => dataBytes t = [0x80, 0x91, 0xF0, 0x0D, 0x04, 0x15, 0x26, 0x37]) = true := by decide -- V-T21
theorem test_sb : nextWith (go (d [(4, 0x10010000), (9, 0xCAFEF00D)]) 0xA0890001)
    (fun t => dataBytes t = [0x80, 0x0D, 0xA2, 0xB3, 0x04, 0x15, 0x26, 0x37]) = true := by decide -- V-T22
theorem test_sb_missing : raises (go (d [(4, 0x10010000)]) 0xA0880008) (.busErrorStore 0x10010008) = true := by decide -- V-T36

/- Branches and jumps: `imm = 7`, taken means pc = 0x00400020 -/
theorem test_beq : goesTo (go (r [(8, 5), (9, 5)]) 0x11090007) 0x00400020 = true := by decide -- V-B27
theorem test_beq_back : goesTo (go (r []) 0x10008000) 0x003E0004 = true := by decide -- V-B33
theorem test_bne : goesTo (go (r [(8, 5), (9, 6)]) 0x15090007) 0x00400020 = true := by decide -- V-B31
theorem test_bgez : goesTo (go (r [(4, 0)]) 0x04810007) 0x00400020 = true
    ∧ goesTo (go (r [(4, 0x80000000)]) 0x04810007) 0x00400004 = true := by decide -- V-B1, V-B13
theorem test_bgtz : goesTo (go (r [(4, 0)]) 0x1C800007) 0x00400004 = true
    ∧ goesTo (go (r [(4, 0x7FFFFFFF)]) 0x1C800007) 0x00400020 = true := by decide -- V-B2, V-B10
theorem test_blez : goesTo (go (r [(4, 0)]) 0x18800007) 0x00400020 = true
    ∧ goesTo (go (r [(4, 1)]) 0x18800007) 0x00400004 = true := by decide -- V-B3, V-B7
theorem test_bltz : goesTo (go (r [(4, 0)]) 0x04800007) 0x00400004 = true
    ∧ goesTo (go (r [(4, 0xFFFFFFFF)]) 0x04800007) 0x00400020 = true := by decide -- V-B4, V-B20
theorem test_bgezal_untaken : gives (go (r [(4, 0xFFFFFFFF), (31, 0x11111111)]) 0x04910007) 31 0x00400004 = true := by decide -- V-B22
theorem test_bgezal_ra : gives (go (r [(31, 0x80000000)]) 0x07F10007) 31 0x00400004 = true := by decide -- V-B25
theorem test_bltzal : nextWith (go (r [(31, 0x80000000)]) 0x07F00007)
    (fun t => t.pc = 0x00400020 && t.reg 31 = 0x00400004) = true := by decide -- V-B26
theorem test_j_region : goesTo (exec (.j 0x0100010) ((r []).setPc 0x8FFFFFFC)) 0x90400040 = true := by decide -- V-B38
theorem test_jal : nextWith (go (r [(31, 1)]) 0x0C100040)
    (fun t => t.pc = 0x00400100 && t.reg 31 = 0x00400004) = true := by decide -- V-B39
theorem test_jr : goesTo (go (r [(8, 0x00400002)]) 0x01000008) 0x00400002 = true := by decide -- V-B41
theorem test_fetch_misaligned : step ((r []).setPc 0x00400002) = .fault (.raised (.addressErrorFetch 0x00400002) 0x00400002) := by
  rfl -- V-B41, the next step
theorem test_jalr_same : nextWith (go (r [(8, 0x00400200)]) 0x01004009)
    (fun t => t.pc = 0x00400200 && t.reg 8 = 0x00400004) = true := by decide -- V-B45

/- Arithmetic -/
theorem test_add : gives (go (r [(8, 0x7FFFFFFF), (9, 0x80000000)]) 0x01095020) 10 0xFFFFFFFF = true := by decide -- V-A4
theorem test_add_zero_overflow : raises (go (r [(8, 0x7FFFFFFF), (9, 1)]) 0x01090020) .overflow = true := by decide -- V-A20
theorem test_sub : gives (go (r [(8, 0xFFFFFFFF), (9, 0x80000000)]) 0x01095022) 10 0x7FFFFFFF = true := by decide -- V-A16
theorem test_sub_overflow : raises (go (r [(8, 0), (9, 0x80000000)]) 0x01095022) .overflow = true := by decide -- V-A14
theorem test_addu : gives (go (r [(8, 0x7FFFFFFF), (9, 1)]) 0x01095021) 10 0x80000000 = true := by decide -- V-A8
theorem test_subu : gives (go (r [(8, 0), (9, 1)]) 0x01095023) 10 0xFFFFFFFF = true := by decide -- V-A17
theorem test_addi : gives (go (r [(8, 0x7FFF8000)]) 0x21097FFF) 9 0x7FFFFFFF = true := by decide -- V-A35
theorem test_addi_overflow : raises (go (r [(8, 0x80007FFF)]) 0x21098000) .overflow = true := by decide -- V-A37
theorem test_addiu : gives (go (r [(8, 0x80000000)]) 0x2509FFFF) 9 0x7FFFFFFF = true := by decide -- V-A40
theorem test_mult : givesHiLo (go (r [(8, 0x80000000), (9, 0xFFFFFFFF)]) 0x01090018) 0 0x80000000 = true := by decide -- V-A55
theorem test_multu : givesHiLo (go (r [(8, 0x80000000), (9, 0xFFFFFFFF)]) 0x01090019) 0x7FFFFFFF 0x80000000 = true := by decide -- V-A61
theorem test_div : givesHiLo (go (r [(8, 0xFFFFFFF9), (9, 2)]) 0x0109001A) 0xFFFFFFFF 0xFFFFFFFD = true := by decide -- V-A64
theorem test_div_by_zero : goesTo (go (r [(8, 5)]) 0x0109001A) 0x00400004 = true := by decide -- V-A73
theorem test_divu : givesHiLo (go (r [(8, 0x80000000), (9, 0xFFFFFFFF)]) 0x0109001B) 0x80000000 0 = true := by decide -- V-A77

/- Logical, shift, compare -/
def la : State := r [(8, 0xF0F0A5A5), (9, 0x0FF0FF00)]
theorem test_or : gives (go la 0x01095025) 10 0xFFF0FFA5 = true := by decide -- V-L1
theorem test_and : gives (go la 0x01095024) 10 0x00F0A500 = true := by decide -- V-L2
theorem test_xor : gives (go la 0x01095026) 10 0xFF005AA5 = true := by decide -- V-L3
theorem test_nor : gives (go la 0x01095027) 10 0x000F005A = true := by decide -- V-L4
theorem test_ori : gives (go la 0x350A8000) 10 0xF0F0A5A5 = true := by decide -- V-L11
theorem test_andi : gives (go la 0x310AFFFF) 10 0x0000A5A5 = true := by decide -- V-L10
theorem test_xori : gives (go la 0x390A8000) 10 0xF0F025A5 = true := by decide -- V-L11
def sv : State := r [(9, 0x80000001), (8, 0x00000024)]
theorem test_sllv : gives (go sv 0x01095004) 10 0x00000010 = true := by decide -- V-L35
theorem test_srlv : gives (go sv 0x01095006) 10 0x08000000 = true := by decide -- V-L35
theorem test_srav : gives (go sv 0x01095007) 10 0xF8000000 = true := by decide -- V-L35
theorem test_sll : gives (go sv 0x000957C0) 10 0x80000000 = true := by decide -- V-L23
theorem test_srl : gives (go sv 0x000957C2) 10 0x00000001 = true := by decide -- V-L23
theorem test_sra : gives (go sv 0x000957C3) 10 0xFFFFFFFF = true := by decide -- V-L23
theorem test_slt : gives (go (r [(8, 0x80000000), (9, 0x7FFFFFFF)]) 0x0109502A) 10 1 = true := by decide -- V-L45
theorem test_sltu : gives (go (r [(8, 0x80000000), (9, 0x7FFFFFFF)]) 0x0109502B) 10 0 = true := by decide -- V-L45
theorem test_slti : gives (go (r [(8, 0x00008000)]) 0x290A8000) 10 0 = true := by decide -- V-L60
theorem test_sltiu : gives (go (r [(8, 0x00008000)]) 0x2D0A8000) 10 1 = true := by decide -- V-L60

/- System -/
theorem test_print_int : nextWith (go (r [(2, 1), (4, 0x37)]) 0x0C)
    (fun t => t.out = [.printInt 0x37] && t.pc = 0x00400004) = true := by decide -- V-S1

/-- The data of V-S3: "Hi", a line feed, the terminator. -/
def hiState : State :=
  { State.reset.setBytes 0x10010000 [0x48, 0x69, 0x0A, 0x00] with data := [⟨0x10010000, 4⟩] }
theorem test_print_string : nextWith (go (withRegs hiState [(2, 4), (4, 0x10010000)]) 0x0C)
    (fun t => t.out = [.printString [0x48, 0x69, 0x0A]]) = true := by decide -- V-S3
theorem test_read_int : nextWith (go ({ r [(2, 5)] with input := [0xFFFFFFFD] }) 0x0C)
    (fun t => t.reg 2 = 0xFFFFFFFD && t.out = [.readInt 0xFFFFFFFD]) = true := by decide -- V-S6, v = -3
theorem test_read_string_missing : raises (go (d [(2, 8), (4, 0x10010006), (5, 4)]) 0x0C) (.busErrorStore 0x10010008) = true := by decide -- V-S9
theorem test_exit : nextWith (go (r [(2, 10)]) 0x0C)
    (fun t => t.out = [.exit] && t.status = .exited && t.pc = 0x00400000) = true := by decide -- V-S11
theorem test_unknown_service : raises (go (r [(2, 0x00010001)]) 0x0C) (.unknownService 0x00010001) = true := by decide -- V-S12
theorem test_break : raises (go (r []) 0x0D) .breakpoint = true := by decide -- V-S13
theorem test_rfe : raises (go (r []) 0x42000010) (.coprocessorUnusable 0) = true := by decide -- V-S14
theorem test_reserved_mfc0 : raises (go (r []) 0x40086000) (.reservedInstruction 0x40086000) = true := by decide -- R221

/-! ### The optional trap mechanism (by hand from R246 to R254) -/

/-- The reset state with `TRAP_MODEL = r3000` and a `Status`. -/
def k (sr : Word) (l : List (Reg × Word)) : State :=
  { r l with params := { Params.default with trapModel := .r3000 }, cp0 := { resetCp0 with sr := sr } }

/-- `break` from user mode: EPC, the mode stack pushed (000011 to 001100), the vector of BEV = 0. -/
theorem test_trap_break : nextWith (go (k 0x00000003 []) 0x0D)
    (fun t => t.pc = 0x80000080 && t.cp0.epc = 0x00400000 && t.cp0.sr = 0x0000000C) = true := by decide
/-- `rfe` from user mode without `CU0`: ExcCode 11 with CE = 0, at the vector of BEV = 1. -/
theorem test_trap_unusable : nextWith (go (k 0x00400002 []) 0x42000010)
    (fun t => t.pc = 0xBFC00180 && t.cp0.cause = 0x2C && t.cp0.sr = 0x00400008) = true := by decide
/-- `rfe` in kernel mode: 101100 to 101011. -/
theorem test_trap_rfe : nextWith (go (k 0x0000002C []) 0x42000010)
    (fun t => t.cp0.sr = 0x0000002B && t.pc = 0x00400004) = true := by decide
/-- `mfc0 $8, $12` reads `Status`; `mtc0 $8, $13` writes the software interrupt bits only. -/
theorem test_trap_moves : nextWith (go (k 0x00400000 []) 0x40086000) (fun t => t.reg 8 = 0x00400000) = true
    ∧ nextWith (go (k 0 [(8, 0xFFFFFFFF)]) 0x40886800) (fun t => t.cp0.cause = 0x300) = true := by decide
/-- A software interrupt that is enabled is taken before the next instruction, at its address. -/
theorem test_trap_interrupt : nextWith (go ({ k 0x00000101 [] with cp0 := ⟨0x00000101, 0x100, 0, 0⟩ }) 0x0D)
    (fun t => t.pc = 0x80000080 && t.cp0.epc = 0x00400000 && t.cp0.sr = 0x104) = true := by decide

/-! ### Assembler and loader -/

/-- Statements of P1 that take labels, and their words (95_test_vectors.md P1); the launch enters at the first. -/
theorem test_load : (load? Params.default
      [.text none, .instr (.addiu 8 0 10), .label "loop", .instr (.addu 9 9 8), .toLabel (.bgtz 8 0) "loop"]
      ⟨Vector.replicate 32 7, 1, 2, []⟩).all
        (fun s => s.pc = 0x00400000 && s.reg 29 = 0x7FFFEFFC && s.reg 0 = 0 && s.text = [⟨0x00400000, 12⟩]
          && s.readNum 0x00400000 4 = 0x2408000A && s.readNum 0x00400008 4 = 0x1D00FFFE) = true := by decide
/-- The data image of P2, little-endian: `44 33 22 11 01 80 80 7F` and four unspecified bytes. -/
theorem test_data : (assemble Params.default
      [.data none, .datum (.word [0x11223344]), .datum (.half [0x8001]), .datum (.byte [0x80, 0x7F]),
       .datum (.space 4)]).map (fun m => (m.bytes.length, m.data)) = some (8, [⟨0x10010000, 12⟩]) := by decide
/-- 0.15625 is 0x3E200000 (S2). -/
theorem test_single : singleWord ⟨0, 124, 0x200000⟩ = 0x3E200000 ∧ realExponent (singleOf 0x3E200000) = -3 := by decide
/-- It encodes 5/32 (S2), and `.float` of that word stores `00 00 20 3E` little-endian (S2). -/
theorem test_single_value : singleValue 0x3E200000 = some (5 / 32)
    ∧ (Datum.float [0x3E200000]).content .little = [some 0x00, some 0x00, some 0x20, some 0x3E] := by
  refine ⟨?_, by decide⟩
  have e : singleOf 0x3E200000 = ⟨0, 124, 0x200000⟩ := by decide
  have p : powerOfTwo (realExponent ⟨0, 124, 0x200000⟩) = 1 / 2 ^ 3 := rfl
  rw [singleValue, e, Single.value, if_neg (by decide), if_neg (by decide), Single.significand, p,
    show (0x200000 : BitVec 23).toNat = 2097152 from rfl]
  norm_num
/-- `.asciiz "A"` stores `41 00` (S1); a character without an ASCII code is refused (log 29). -/
theorem test_ascii : asciiCode 'A' = some 65 ∧ (Datum.asciiz ['A']).content .little = [some 0x41, some 0x00]
    ∧ (Datum.ascii ['é']).supported = false := by decide

/-! ### Witnesses: for each statement with hypotheses, a state and operands that meet them, clause by clause at the
clauses' boundaries. `nextWith o p = true` says that `o` is a next state with the property. -/

/-- The text word 0 at 0x00400000 beside the eight data bytes, and registers set. -/
def wd (l : List (Reg × Word)) : State := (d l).withFetchWord 32 0
/-- The same in another mode of `SMC`, in user mode under r3000, and under r3000 with a `Status`. -/
def coherent (s : State) : State := { s with params := { s.params with smc := .coherent } }
def trapping (sr : Word) (s : State) : State :=
  { s with params := { s.params with trapModel := .r3000 }, cp0 := { s.cp0 with sr := sr } }
/-- User mode with `RE = 1`, with the readings of R251 and R247 in force (logs 15, 14). -/
def user (s : State) : State :=
  trapping 0x02000002 { s with params := { s.params with guardKernel := true, reReverses := true } }

/-- R247: the byte order is reversed; R251: the lowest kernel address is an address error, whose address `BadVAddr` has. -/
theorem test_user_mode : nextWith (exec (.lw 8 0 4) (user (d [(4, 0x10010000)]))) (fun t => t.reg 8 = 0x8091A2B3) = true
    ∧ nextWith (exec (.lw 8 0 4) (user (d [(4, 0x80000000)])))
        (fun t => t.pc = 0x80000080 && t.cp0.badVAddr = 0x80000000) = true := by decide
/-- R53 and R61: in the default reading neither is so; the access is a bus error, which leaves `BadVAddr`. -/
theorem test_user_mode_default :
    nextWith (exec (.lw 8 0 4) (trapping 0x02000002 (d [(4, 0x10010000)]))) (fun t => t.reg 8 = 0xB3A29180) = true
    ∧ nextWith (exec (.lw 8 0 4) (trapping 0x02000002 (d [(4, 0x80000000)])))
        (fun t => t.pc = 0x80000080 && t.cp0.badVAddr = 0) = true := by decide

theorem witness_EncodeThenDecode : Instr.wf (.sra 31 31 31) = true ∧ Instr.wf (.beq 0 31 0xFFFF) = true := by decide

/-- A word that decodes, a row that it fits, and a word that fits none. -/
theorem witness_DecodeFollowsTable : decode 0 = .instr (.sll 0 0 0)
    ∧ (∃ q ∈ opcodeTable, (0 : Word) &&& q.mask = q.pattern)
    ∧ ∀ q ∈ opcodeTable, (0xFFFFFFFF : Word) &&& q.mask ≠ q.pattern := by
  refine ⟨by decide, ⟨opcodeTable.find? (fun q => q.fits 0) |>.get (by decide), by decide, by decide⟩, by decide⟩

theorem witness_ReservedWordRaises :
    (let s := (r []).withFetchWord 32 0x0000003F
     s.status = .running ∧ s.interruptDue = false ∧ s.fetchExc = none ∧ s.fetched = 0x3F
      ∧ decode 0x3F = .reserved .blankFunct ∧ s.params.trapModel = .fault)
    ∧ (let s := (k 0 []).withFetchWord 32 0x0000003F
       s.status = .running ∧ s.interruptDue = false ∧ s.fetchExc = none ∧ s.fetched = 0x3F
        ∧ decodeCp0 0x3F = none) := by decide

theorem witness_CoproWordsReserved : (0x42000011 : Word).extractLsb' 26 6 = 0b010000
    ∧ (0x42000011 : Word) ≠ 0x42000010 ∧ State.reset.params.trapModel = .fault := by decide

theorem witness_StepRunsDecodedInstruction :
    let s := (r []).withFetchWord 32 0x0109001A
    s.status = .running ∧ s.interruptDue = false ∧ s.fetchExc = none ∧ decode s.fetched = .instr (.div 8 9) := by
  decide

/-- Misaligned by one; the first word that does not exist, above the data; the data, outside the text; the text. -/
theorem witness_FetchRule :
    (∀ s ∈ [(wd []).setPc 0x00400001, (wd []).setPc 0x10010008, (wd []).setPc 0x10010004, wd []],
      s.status = .running ∧ s.interruptDue = false ∧ s.guarded = false ∧ s.reversed = false)
    ∧ ((wd []).setPc 0x00400001).pc.toNat % 4 ≠ 0
    ∧ MissesByte ((wd []).setPc 0x10010008).allocated 0x10010008 4
    ∧ (AllBytes ((wd []).setPc 0x10010004).allocated 0x10010004 4 ∧ (wd []).params.smc = .refuse
        ∧ MissesByte ((wd []).setPc 0x10010004).inText 0x10010004 4)
    ∧ (AllBytes (wd []).allocated 0x00400000 4 ∧ AllBytes (wd []).inText 0x00400000 4) := by
  refine ⟨by decide, by decide, ⟨0, by decide, by decide⟩, ⟨by unfold AllBytes; decide, by decide, ⟨0, by decide, by decide⟩⟩,
    by unfold AllBytes; decide, by unfold AllBytes; decide⟩

theorem witness_FaultOutcome : State.reset.params.trapModel = .fault
    ∧ (k 0 []).params.trapModel = .r3000 ∧ excCode (.storeToText 0) = none
    ∧ step State.reset = .fault (.raised (.busErrorFetch 0x00400000) 0x00400000) := ⟨by decide, by decide, by decide, by rfl⟩

theorem witness_StepKeepsInvariant : (wd []).Inv ∧ nextWith (step (wd [])) (fun t => t.pc = 0x00400004) = true :=
  ⟨⟨by decide, by decide, by decide, by decide⟩, by decide⟩

/-- Also of `StepKeepsParameters`. -/
theorem witness_TextImageNeverChanges : (wd []).params.smc = .refuse ∧ nextWith (step (wd [])) (fun _ => true) = true
    ∧ (wd []).inText 0x00400003 = true := by decide

/-- Also of `HiLoWriters`, and of the first half of `TargetAlignment`. -/
theorem witness_MemoryWriters : nextWith (exec (.addu 8 4 4) (wd [])) (fun _ => true) = true
    ∧ nextWith (exec .syscall (wd [(2, 1)])) (fun _ => true) = true ∧ (wd [(2, 1)]).reg 2 ≠ 8
    ∧ nextWith (exec (.mthi 8) (wd [])) (fun _ => true) = true ∧ (wd []).pc.toNat % 4 = 0 := by decide

/-- A step inside a service, one that ends the run, and one outside. -/
theorem witness_EnvironmentActsOnlyInSyscall : nextWith (go (r [(2, 1)]) 0x0C) (fun _ => true) = true
    ∧ nextWith (go (r [(2, 10)]) 0x0C) (fun _ => true) = true ∧ nextWith (go (r []) 0) (fun _ => true) = true := by
  decide

theorem witness_DefaultModelHasNoControlRegister : (wd []).params.trapModel = .fault
    ∧ nextWith (step (wd [])) (fun _ => true) = true
    ∧ step State.reset = .fault (.raised (.busErrorFetch 0x00400000) 0x00400000)
    ∧ step { State.reset with status := .exited } = .refused .runOver := ⟨by decide, by decide, by rfl, by rfl⟩

/-- Also of `UserModeCannotWriteKernelBytes`, at the lowest kernel address. -/
theorem witness_UserModeLeftOnlyByTrap :
    let s := user (wd [])
    s.userMode = true ∧ s.params.guardKernel = true ∧ s.cp0.sr.getLsbD 28 = false ∧ nextWith (step s) (fun t => t.cp0 = s.cp0) = true
      ∧ nextWith (go s 0x0D) (fun t => t.userMode = false) = true ∧ (0x80000000 : Word).msb = true := by decide

theorem witness_TargetAlignment :
    let s := wd [(8, 0x00400003)]
    (s.reg 8).toNat % 4 ≠ 0 ∧ s.status = .running ∧ s.interruptDue = false := by decide

/-- Also of `TrapThenReturn`, `BreakRaises`, `SyscallTrapsUnderR3000`. -/
theorem witness_TrapEntry : (k 0x3F []).params.trapModel = .r3000 ∧ excCode (.addressErrorStore 1) = some 5
    ∧ nextWith (raise .overflow (k 0x3F [])) (fun _ => true) = true := by decide

theorem witness_InterruptTaken :
    let s := { k 0x00008001 [] with irq := 0b100000 }
    s.status = .running ∧ s.interruptDue = true := by decide

/-- Coprocessor 0 unusable, usable in kernel mode, usable in user mode by `CU0`. Also of `RfeRule`. -/
theorem witness_Cp0Moves : (k 0x2 []).params.trapModel = .r3000 ∧ (k 0x2 []).cp0Usable = false
    ∧ (k 0 []).cp0Usable = true ∧ (k 0x10000002 []).cp0Usable = true ∧ (r []).params.trapModel = .fault
    ∧ ((k 0x2 []).cp0.sr.getLsbD 1 = true ∧ (k 0x2 []).cp0.sr.getLsbD 28 = false)
    ∧ (k 0x10000002 []).cp0.sr.getLsbD 28 = true := by decide

/-- The largest sum that fits and the first that does not; the same for the difference and the immediate. -/
theorem witness_AddSubAddi :
    (let s := r [(8, 0x7FFFFFFF), (9, 1)]
     (s.reg 8).msb = (s.reg 9).msb ∧ (s.reg 8 + s.reg 9).msb ≠ (s.reg 8).msb)
    ∧ (let s := r [(8, 0x7FFFFFFE), (9, 1)]
       ¬((s.reg 8).msb = (s.reg 9).msb ∧ (s.reg 8 + s.reg 9).msb ≠ (s.reg 8).msb))
    ∧ (let s := r [(8, 0x80000000), (9, 1)]
       (s.reg 8).msb ≠ (s.reg 9).msb ∧ (s.reg 8 - s.reg 9).msb ≠ (s.reg 8).msb)
    ∧ (let s := r [(8, 0x80000001), (9, 1)]
       ¬((s.reg 8).msb ≠ (s.reg 9).msb ∧ (s.reg 8 - s.reg 9).msb ≠ (s.reg 8).msb))
    ∧ (let s := r [(8, 0x80007FFF)]
       (s.reg 8).msb = ((0x8000 : Half).signExtend 32 : Word).msb
        ∧ (s.reg 8 + (0x8000 : Half).signExtend 32).msb ≠ (s.reg 8).msb)
    ∧ (let s := r [(8, 0x80008000)]
       ¬(s.reg 8 + (0x8000 : Half).signExtend 32).msb ≠ (s.reg 8).msb) := by decide

/-- Defined and undefined, signed and unsigned; also of `DivisionLaws` and `DivisionTable`. -/
theorem witness_DivDivu :
    (let s := r [(8, 0x80000001), (9, 0xFFFFFFFF)]
     ¬((s.reg 9).toInt = 0 ∨ (s.reg 8).toInt = -2 ^ 31 ∧ (s.reg 9).toInt = -1)
      ∧ nextWith (exec (.div 8 9) s) (fun _ => true) = true ∧ (s.reg 9).toNat ≠ 0
      ∧ nextWith (exec (.divu 8 9) s) (fun _ => true) = true)
    ∧ (let s := r [(8, 0x80000000), (9, 0xFFFFFFFF)]
       (s.reg 8).toInt = -2 ^ 31 ∧ (s.reg 9).toInt = -1)
    ∧ (r [(8, 5)]).reg 9 = 0
    ∧ ((r [(8, 0xFFFFFFF9), (9, 2)]).reg 8 = BitVec.ofInt 32 (-7) ∧ (r [(8, 0xFFFFFFF9), (9, 2)]).reg 9 = BitVec.ofInt 32 2) := by
  decide

theorem witness_ConstantShifts : 31 < 32 ∧ 0 < 32 := by decide

/-- Of the load statements: an address error, a bus error one past the last word, the last word that exists. -/
theorem witness_LoadWord : (d []).guarded = false ∧ (d []).reversed = false ∧ (0x10010005 : Word).toNat % 4 ≠ 0 ∧ (0x10010007 : Word).toNat % 2 ≠ 0
    ∧ MissesByte (d []).allocated 0x10010008 4 ∧ MissesByte (d []).allocated 0x10010008 2
    ∧ MissesByte (d []).allocated 0x10010008 1 ∧ AllBytes (d []).allocated 0x10010004 4
    ∧ AllBytes (d []).allocated 0x10010006 2 ∧ AllBytes (d []).allocated 0x10010007 1 := by
  refine ⟨by decide, by decide, by decide, by decide, ⟨0, by decide, by decide⟩, ⟨0, by decide, by decide⟩,
    ⟨0, by decide, by decide⟩, ?_⟩
  unfold AllBytes
  decide

/-- Of the store statements, the other two cases: the text image, and the data. -/
theorem witness_StoreWord : (wd []).guarded = false ∧ (wd []).reversed = false ∧ (wd []).params.smc = .refuse
    ∧ AllBytes (wd []).allocated 0x00400000 4 ∧ ¬AllBytes (fun x => !(wd []).inText x) 0x00400000 4
    ∧ AllBytes (wd []).allocated 0x10010004 4 ∧ AllBytes (fun x => !(wd []).inText x) 0x10010004 4 := by
  unfold AllBytes
  decide

/-- The highest user address that can hold a word and the lowest kernel one; the fetch at a kernel address, at the first
word that does not exist, at the data, at the text. -/
theorem witness_UserModeAccesses :
    (user (wd [])).userMode = true ∧ (user (wd [])).params.guardKernel = true ∧ (0x80000000 : Word).msb = true
    ∧ ¬((0x7FFFFFFC : Word).toNat % 4 ≠ 0 ∨ (0x7FFFFFFC : Word).msb = true)
    ∧ AllBytes (user (wd [])).allocated 0x10010004 4
    ∧ (∀ s ∈ [(user (wd [])).setPc 0x80000000, (user (wd [])).setPc 0x10010008, (user (wd [])).setPc 0x10010004,
        user (wd [])], s.status = .running ∧ s.interruptDue = false ∧ s.pc.toNat % 4 = 0)
    ∧ (user (wd [])).allocated 0x10010008 = false ∧ (user (wd [])).params.smc = .refuse
    ∧ (user (wd [])).inText 0x10010004 = false ∧ AllBytes (user (wd [])).inText 0x00400000 4 := by
  unfold AllBytes
  decide

/-- Register 4 reaches all four bytes of the word stored, by displacements 0 to 3. -/
theorem witness_MixedWidths :
    let s := wd [(9, 0x11223344), (4, 0x10010004)]
    s.guarded = false ∧ s.reversed = false ∧ s.reg 9 = 0x11223344 ∧ (s.reg 4 + (0 : Half).signExtend 32).toNat % 4 = 0
      ∧ AllBytes s.allocated 0x10010004 4 ∧ AllBytes (fun x => !s.inText x) 0x10010004 4
      ∧ s.params.endian = .little ∧ (big s).params.endian = .big
      ∧ nextWith (exec (.sw 9 0 4) s) (fun t => t.reg 4 + (0 : Half).signExtend 32 = 0x10010004
          ∧ t.reg 4 + (1 : Half).signExtend 32 = up 0x10010004 1 ∧ t.reg 4 + (2 : Half).signExtend 32 = up 0x10010004 2
          ∧ t.reg 4 + (3 : Half).signExtend 32 = up 0x10010004 3) = true := by
  unfold AllBytes
  decide

theorem witness_CoherentStoreIsFetched :
    let s := coherent (wd [(4, 0x00400000)])
    s.guarded = false ∧ s.reversed = false ∧ s.params.smc = .coherent ∧ (s.reg 4 + (0 : Half).signExtend 32).toNat % 4 = 0
      ∧ AllBytes s.allocated 0x00400000 4 := by
  unfold AllBytes
  decide

theorem witness_IntegerServices : (r [(2, 1)]).params.trapModel = .fault ∧ (r [(2, 1)]).reg 2 = 1
    ∧ (r [(2, 5)]).reg 2 = 5 ∧ (r [(2, 5)]).input = []
    ∧ { r [(2, 5)] with input := [7] }.input = [7] := by decide

/-- The empty string at a terminator, and the byte after the data, which does not exist. -/
theorem witness_ServicePrintString :
    (let s := withRegs hiState [(2, 4), (4, 0x10010000)]
     s.params.trapModel = .fault ∧ s.reg 2 = 4
      ∧ (∀ j, j < 3 → s.allocated (up 0x10010000 j) = true ∧ s.byteAt (up 0x10010000 j) ≠ 0)
      ∧ s.allocated (up 0x10010000 3) = true ∧ s.byteAt (up 0x10010000 3) = 0)
    ∧ (let s := d [(2, 4), (4, 0x10010000)]
       (∀ j, j < 8 → s.allocated (up 0x10010000 j) = true ∧ s.byteAt (up 0x10010000 j) ≠ 0)
        ∧ s.allocated (up 0x10010000 8) = false) := by decide

/-- The whole buffer writable, of eight bytes and of none, with one answer ready; its ninth byte missing; its first byte
text. -/
theorem witness_ServiceReadString :
    (let s := { wd [(2, 8), (4, 0x10010000), (5, 8)] with input := [7] }
     s.input[0]? = some 7 ∧ s.params.trapModel = .fault ∧ s.reg 2 = 8 ∧ (s.reg 5).toNat = 8 ∧ AllBytes s.allocated 0x10010000 8
      ∧ AllBytes (fun x => !s.inText x) 0x10010000 8)
    ∧ AllBytes (wd []).allocated 0 0
    ∧ (let s := wd [(2, 8), (4, 0x10010000), (5, 9)]
       8 < (s.reg 5).toNat ∧ AllBytes s.allocated 0x10010000 8 ∧ s.allocated (up 0x10010000 8) = false)
    ∧ (let s := wd [(2, 8), (4, 0x00400000), (5, 4)]
       0 < (s.reg 5).toNat ∧ AllBytes s.allocated 0x00400000 4 ∧ s.params.smc = .refuse
        ∧ AllBytes (fun x => !s.inText x) 0x00400000 0 ∧ s.inText (up 0x00400000 0) = true) := by
  unfold AllBytes
  decide

/-- Also of `UnknownServiceRaises`: the code 9, between two services. -/
theorem witness_ServiceExit : (r [(2, 10)]).params.trapModel = .fault ∧ (r [(2, 10)]).reg 2 = 10
    ∧ (r [(2, 9)]).reg 2 ≠ 8 ∧ (r [(2, 9)]).reg 2 ≠ 10 ∧ (r [(2, 9)]).reg 2 ≠ 1 ∧ (r [(2, 9)]).reg 2 ≠ 4
    ∧ (r [(2, 9)]).reg 2 ≠ 5 := by decide

/-- The farthest labels that have a field, and the nearest that have none (R92, R93). -/
theorem witness_LabelFields : branchField 0x00400000 0x00420000 = some 0x7FFF ∧ branchField 0x00400000 0x00420004 = none
    ∧ branchField 0x00400000 0x003E0004 = some 0x8000 ∧ branchField 0x00400000 0x003E0000 = none
    ∧ jumpField 0x0FFFFFF8 0x0FFFFFFC = some 0x3FFFFFF ∧ jumpField 0x0FFFFFFC 0x0FFFFFFC = none := by decide

/-- A word and a data byte side by side at the top of the address space, and the free byte above them. -/
theorem witness_LaunchState :
    let img : Image := ⟨[(0xFFFFFFF8, 0)], [(0xFFFFFFFC, 0)], [], []⟩
    (∀ c ∈ img.code, c.1 + 4 ≤ 2 ^ 32) ∧ (∀ b ∈ img.bytes, b.1 < 2 ^ 32) ∧ NoOverlap img
      ∧ (∀ c ∈ img.code, (0xFFFFFFFD : Word).toNat < c.1 ∨ c.1 + 4 ≤ (0xFFFFFFFD : Word).toNat)
      ∧ ∀ b ∈ img.bytes, b.1 ≠ (0xFFFFFFFD : Word).toNat := by
  unfold NoOverlap
  decide

theorem witness_LoadedInstructionRuns :
    (∀ i ∈ [Instr.sra 8 9 31, Instr.syscall], i.wf = true) ∧ Params.default.textBase.toNat % 4 = 0
    ∧ Params.default.textBase.toNat + 4 * [Instr.sra 8 9 31, Instr.syscall].length ≤ 2 ^ 32
    ∧ Params.default.entry = Params.default.textBase
    ∧ [Instr.sra 8 9 31, Instr.syscall][1]? = some .syscall := by decide

end Sys2Proof.Tests
end

section
/-! # Scope: the parameters, one step, the state after reset

Proofs of the statements about the machine as a whole (spec/00_scope.md): a step is the meaning of the word fetched, no
step touches what is fixed for a run, and reset gives the values of R35. -/

namespace Sys2Proof.Machine

variable {s t : State} {i : Instr} {w : Word}

/-! ### A step that reaches its instruction -/

/-- Between instructions with nothing to take first, a step executes the word at `pc` (R58, R233). -/
theorem step_of_fetchExc_none (hr : s.status = .running) (hi : s.interruptDue = false) (hf : s.fetchExc = none) :
    step s = runWord s.fetched s := by
  simp [step, hr, hi, hf]

/-- A word that decodes to an instruction is executed as that instruction (R89). -/
theorem runWord_of_instr (h : decode w = .instr i) : runWord w s = exec i s := by
  simp [runWord, h]

/-- Settles O6: the step reaches the word fetched, and the word is its instruction. -/
theorem stepRunsDecodedInstruction : Obligations.StepRunsDecodedInstruction := by
  intro s i hr hi hf hd
  calc step s = runWord s.fetched s := step_of_fetchExc_none hr hi hf
    _ = exec i s := runWord_of_instr hd

/-! ### Reset -/

/-- The stack pointer starts at `STACK_TOP`, whatever the parameters (R35). -/
theorem resetRegs_sp (p : Params) : (resetRegs p)[29] = p.stackTop := Vector.getElem_set_self _

/-- Settles O10: register 0 by its rule, register 29 by the launch table, the rest are fields of the reset state. -/
theorem resetValues : Obligations.ResetValues :=
  ⟨reg_zero _, resetRegs_sp Params.default, rfl, rfl, rfl, rfl, rfl⟩

/-! ### What is fixed for a run -/

/-- The parts of the state that no step may touch: the parameters (R8, R53), the extent of the loaded images (R261), and
the interrupt lines (log 16). -/
def SameSetup (s t : State) : Prop :=
  t.params = s.params ∧ t.text = s.text ∧ t.data = s.data ∧ t.irq = s.irq

/-- Trap entry writes only `pc`, coprocessor 0 and the count of draws (R252). -/
theorem raise_sameSetup {e : Exc} (h : raise e s = .next t) : SameSetup s t := by
  obtain ⟨-, c, -, rfl⟩ := raise_next h
  simp [SameSetup]

/-- A move to coprocessor 0 writes only coprocessor 0 (R246). -/
theorem writeCp0_sameSetup (s : State) (rd : Reg) (v : Word) : SameSetup s (s.writeCp0 rd v) := by
  unfold State.writeCp0
  split
  · simp [SameSetup]
  · split <;> simp [SameSetup]

theorem execCp0Move_sameSetup {m : Cp0Move} (h : execCp0Move m s = .next t) : SameSetup s t := by
  obtain ⟨-, hraise⟩ | ⟨-, ⟨rt, rd, -, rfl⟩ | ⟨rt, rd, -, rfl⟩⟩ := execCp0Move_next h
  · exact raise_sameSetup hraise
  · cases cp0Described rd <;> simp [SameSetup]
  · simpa [SameSetup] using writeCp0_sameSetup s rd (s.reg rt)

/-- The environment answers with registers, bytes and events; it does not reconfigure the machine (R211). -/
theorem ServeNext.sameSetup (h : ServeNext s t) : SameSetup s t := by
  cases h with
  | printInt | printString | readInt | readString | exit => simp [SameSetup]

theorem ExecNext.sameSetup (h : ExecNext i s t) : SameSetup s t := by
  cases h with
  | trap | reg | hilo | store | rfe => simp [SameSetup]
  | service _ _ hm hserve => exact (serve_next hm hserve).sameSetup

theorem execReserved_sameSetup (h : execReserved w s = .next t) : SameSetup s t := by
  obtain ⟨m, -, -, hmove⟩ | hraise := execReserved_next h
  · exact execCp0Move_sameSetup hmove
  · exact raise_sameSetup hraise

theorem runWord_sameSetup (h : runWord w s = .next t) : SameSetup s t := by
  obtain ⟨i, -, hexec⟩ | ⟨r, -, hres⟩ := runWord_next h
  · exact (exec_next hexec).sameSetup
  · exact execReserved_sameSetup hres

/-- Settles O12, by what a step can be: an interrupt, an exception of the fetch, or the word executed. -/
theorem stepKeepsParameters : Obligations.StepKeepsParameters := by
  intro s t h
  obtain ⟨-, ⟨-, hint⟩ | ⟨-, e, -, hfetch⟩ | ⟨-, -, hrun⟩⟩ := step_next h
  · exact raise_sameSetup hint
  · exact raise_sameSetup hfetch
  · exact runWord_sameSetup hrun

end Sys2Proof.Machine
end

section
/-! # State: what every step keeps, and who writes `HI` and `LO`

Proofs of the statements about the state as a whole (spec/10_state.md): reset meets the invariant, every step keeps it,
and only six instructions write `HI` or `LO`. -/

namespace Sys2Proof.Machine

variable {s t : State} {i : Instr} {w : Word}

/-! ### The bits of `Status` and `Cause` without a meaning (R247, R248)

Each word that the trap mechanism builds is cut into its fields, and the complement of the mask into the same ones. -/

/-- A field of a word has none of the bits of a mask that the word has none of. -/
theorem extract_and_zero {a b : Word} (lo len : Nat) (h : a &&& b = 0) :
    a.extractLsb' lo len &&& b.extractLsb' lo len = 0 := by
  rw [← BitVec.extractLsb'_and, h]; simp

/-- Pushing the mode stack sets no meaningless bit of `Status` (R252). -/
theorem pushMode_masked {sr : Word} (h : sr &&& ~~~statusMask = 0) : pushMode sr &&& ~~~statusMask = 0 := by
  have fields : ~~~statusMask = (~~~statusMask).extractLsb' 6 26 ++ 0#4 ++ 0#2 := by decide
  rw [fields, pushMode, BitVec.and_append, BitVec.and_append, extract_and_zero 6 26 h]
  simp

/-- Popping it sets none either (R254). -/
theorem popMode_masked {sr : Word} (h : sr &&& ~~~statusMask = 0) : popMode sr &&& ~~~statusMask = 0 := by
  have fields : ~~~statusMask = (~~~statusMask).extractLsb' 4 28 ++ 0#4 := by decide
  rw [fields, popMode, BitVec.and_append, extract_and_zero 4 28 h]
  simp

/-- Trap entry builds a `Cause` of meaningful fields only (R248, R252). -/
theorem causeWord_masked (ce softIP : BitVec 2) (code : BitVec 5) : causeWord ce softIP code &&& ~~~causeMask = 0 := by
  have fields : ~~~causeMask = 3#2 ++ 0#2 ++ 0x3FFFF#18 ++ 0#2 ++ 1#1 ++ 0#5 ++ 3#2 := by decide
  rw [fields, causeWord]
  iterate 6 rw [BitVec.and_append]
  simp

/-- A write of the software interrupt bits touches no other bit of `Cause` (R248). -/
theorem softIP_masked {cause : Word} (h : cause &&& ~~~causeMask = 0) (softIP : BitVec 2) :
    (cause.extractLsb' 10 22 ++ softIP ++ cause.extractLsb' 0 8) &&& ~~~causeMask = 0 := by
  have fields : ~~~causeMask = (~~~causeMask).extractLsb' 10 22 ++ 0#2 ++ (~~~causeMask).extractLsb' 0 8 := by decide
  rw [fields, BitVec.and_append, BitVec.and_append, extract_and_zero 10 22 h, extract_and_zero 0 8 h]
  simp

/-! ### The invariant -/

/-- Settles O9: nothing is written yet, register 0 is not the stack pointer, and `BEV` is a named bit of `Status`. -/
theorem resetMeetsInvariant : Obligations.ResetMeetsInvariant where
  mem := ⟨.nil, by simp [State.reset]⟩
  zero := by decide
  sr := by decide
  cause := by decide

/-- A step that leaves coprocessor 0 alone has only memory and the storage of register 0 to keep in order. -/
theorem State.Inv.of_cp0_eq (h : s.Inv) (hm : t.mem.wf) (hz : t.gpr[0] = s.gpr[0]) (hc : t.cp0 = s.cp0) : t.Inv where
  mem := hm
  zero := hz.trans h.zero
  sr := hc ▸ h.sr
  cause := hc ▸ h.cause

/-- Trap entry pushes the mode stack and builds `Cause` anew (R252). -/
theorem State.Inv.enterTrap (h : s.Inv) (e : Exc) (c : BitVec 5) : (s.enterTrap e c).Inv where
  mem := h.mem
  zero := h.zero
  sr := pushMode_masked h.sr
  cause := causeWord_masked ..

/-- The return from a trap pops the mode stack (R254). -/
theorem State.Inv.leaveTrap (h : s.Inv) : s.leaveTrap.Inv where
  mem := h.mem
  zero := h.zero
  sr := popMode_masked h.sr
  cause := h.cause

theorem State.Inv.advance (h : s.Inv) : s.advance.Inv := h.of_cp0_eq h.mem rfl rfl

theorem State.Inv.setReg (h : s.Inv) (r : Reg) (v : Word) : (s.setReg r v).Inv :=
  h.of_cp0_eq h.mem (setReg_gpr_zero s r v) rfl

/-- `mtc0` writes the named bits of `Status`, the software bits of `Cause`, or nothing (R246 to R249). -/
theorem State.Inv.writeCp0 (h : s.Inv) (rd : Reg) (v : Word) : (s.writeCp0 rd v).Inv := by
  unfold State.writeCp0
  split
  · exact ⟨h.mem, h.zero, by simp [BitVec.and_assoc], h.cause⟩
  · split
    · exact ⟨h.mem, h.zero, h.sr, softIP_masked h.cause _⟩
    · exact h

theorem raise_inv (h : s.Inv) {e : Exc} (hr : raise e s = .next t) : t.Inv := by
  obtain ⟨-, c, -, rfl⟩ := raise_next hr
  exact h.enterTrap e c

theorem execCp0Move_inv (h : s.Inv) {m : Cp0Move} (hx : execCp0Move m s = .next t) : t.Inv := by
  obtain ⟨-, hraise⟩ | ⟨-, ⟨rt, rd, -, rfl⟩ | ⟨rt, rd, -, rfl⟩⟩ := execCp0Move_next hx
  · exact raise_inv h hraise
  · have hread : (if cp0Described rd then s else s.skipDraws 1).Inv := by
      split
      · exact h
      · exact h.of_cp0_eq h.mem rfl rfl
    exact (hread.setReg rt _).advance
  · exact (h.writeCp0 rd _).advance

/-- Services 5 and 8 are the only ones that write: a register, and the bytes of a buffer (R211 to R216). -/
theorem ServeNext.inv (hs : ServeNext s t) (h : s.Inv) : t.Inv := by
  cases hs with
  | printInt | printString | exit => exact h.of_cp0_eq h.mem rfl rfl
  | readInt =>
    have hanswered : s.answered.Inv := h.of_cp0_eq (by simpa using h.mem) (by simp) answered_cp0
    have hwritten := hanswered.setReg 2 s.answer
    exact hwritten.of_cp0_eq hwritten.mem rfl rfl
  | readString =>
    refine h.of_cp0_eq ?_ (by simp) (by simp)
    exact setBytes_wf (by simpa using h.mem) _ _

theorem ExecNext.inv (hx : ExecNext i s t) (h : s.Inv) : t.Inv := by
  cases hx with
  | trap e c => exact h.enterTrap e c
  | reg r v => exact (h.setReg r v).of_cp0_eq h.mem rfl rfl
  | hilo => exact h.of_cp0_eq h.mem rfl rfl
  | store a n v => exact h.of_cp0_eq (writeNum_wf h.mem a n v) (by simp) (by simp)
  | service _ _ hm hserve => exact (serve_next hm hserve).inv h
  | rfe => exact h.leaveTrap.advance

theorem execReserved_inv (h : s.Inv) (hx : execReserved w s = .next t) : t.Inv := by
  obtain ⟨m, -, -, hmove⟩ | hraise := execReserved_next hx
  · exact execCp0Move_inv h hmove
  · exact raise_inv h hraise

theorem runWord_inv (h : s.Inv) (hx : runWord w s = .next t) : t.Inv := by
  obtain ⟨i, -, hexec⟩ | ⟨r, -, hres⟩ := runWord_next hx
  · exact (exec_next hexec).inv h
  · exact execReserved_inv h hres

/-- Settles O11, by what a step can be: an interrupt, an exception of the fetch, or the word executed. -/
theorem stepKeepsInvariant : Obligations.StepKeepsInvariant := by
  intro s t h hstep
  obtain ⟨-, ⟨-, hint⟩ | ⟨-, e, -, hfetch⟩ | ⟨-, -, hrun⟩⟩ := step_next hstep
  · exact raise_inv h hint
  · exact raise_inv h hfetch
  · exact runWord_inv h hrun

/-! ### The writers of `HI` and `LO` (R28) -/

/-- No service writes `HI` or `LO` (R211). -/
theorem ServeNext.sameHiLo (h : ServeNext s t) : SameHiLo s t := by
  cases h with
  | printInt | printString | readInt | readString | exit => simp [SameHiLo]

/-- A next state has `HI` and `LO` as before, unless the instruction is one of the six that write them. -/
theorem ExecNext.sameHiLo_or (h : ExecNext i s t) : SameHiLo s t ∨ WritesHiLo s i t.hi t.lo := by
  cases h with
  | hilo a b n hw => exact .inr hw
  | trap | reg | store | rfe => exact .inl (by simp [SameHiLo])
  | service _ _ hm hserve => exact .inl (serve_next hm hserve).sameHiLo

/-- Settles O15, by the six writers: four are excluded, `mthi` keeps `LO`, `mtlo` keeps `HI`. -/
theorem hiLoWriters : Obligations.HiLoWriters := by
  intro i s t hexec hboth
  obtain ⟨hhi, hlo⟩ | hw := (exec_next hexec).sameHiLo_or
  · exact ⟨fun _ => hhi, fun _ => hlo⟩
  · generalize t.hi = a, t.lo = b at hw ⊢
    cases hw with
    | mult rs rt => obtain ⟨hne, -⟩ := hboth rs rt; exact absurd rfl hne
    | multu rs rt => obtain ⟨-, hne, -⟩ := hboth rs rt; exact absurd rfl hne
    | div rs rt => obtain ⟨-, -, hne, -⟩ := hboth rs rt; exact absurd rfl hne
    | divu rs rt => obtain ⟨-, -, -, hne⟩ := hboth rs rt; exact absurd rfl hne
    | mthi rs => exact ⟨fun h => absurd rfl (h rs), fun _ => rfl⟩
    | mtlo rs => exact ⟨fun _ => rfl, fun h => absurd rfl (h rs)⟩

end Sys2Proof.Machine
end

section
/-! # The default model has no control register

With `TRAP_MODEL = fault` no coprocessor 0 register or interrupt line exists for a program (spec/10_state.md R30,
spec/60_exceptions.md R240). A step of a state whose control registers are replaced is the step of the state, with the
same replacement in its next state. That says both halves at once: a state whose control registers are replaced by
themselves is the same state, so the step writes none. -/

namespace Sys2Proof.Machine

variable {s t : State} {i : Instr} {w : Word}

/-! ### What the default model makes of each place that looks at them -/

section
variable (hm : s.params.trapModel = .fault)
include hm

/-- There is no user mode to guard an address in (R61, R62). -/
theorem kernelOnly_of_fault (a : Word) : s.kernelOnly a = false :=
  kernelOnly_of_not_guarded (guarded_of_not_userMode (userMode_of_fault hm)) a

/-- No register selects the byte order (R53). -/
theorem order_of_fault : s.order = s.params.endian :=
  order_of_not_reversed (reversed_of_not_userMode (userMode_of_fault hm))

/-- `syscall` is a service (R210). -/
theorem execSyscall_fault : execSyscall s = serve s := by simp [execSyscall, hm]

/-- `rfe` is an instruction of an unusable coprocessor (R220). -/
theorem execRfe_fault : execRfe s = raise (.coprocessorUnusable 0) s := by simp [execRfe, hm]

/-- No reserved word is a coprocessor 0 move (R221). -/
theorem execReserved_fault (w : Word) : execReserved w s = raise (.reservedInstruction w) s := by
  unfold execReserved
  split
  · rename_i hr _; rw [hm] at hr; cases hr
  · rfl

end

/-! ### States that differ in the control registers only -/

/-- The state with the coprocessor 0 registers and the interrupt lines replaced. -/
def State.withControl (s : State) (c : Cp0) (q : BitVec 6) : State := { s with cp0 := c, irq := q }

/-- The outcome with the same replacement in its next state. -/
def controlIn (c : Cp0) (q : BitVec 6) : Outcome → Outcome
  | .next t => .next (t.withControl c q)
  | .fault f => .fault f
  | .refused x => .refused x

/-- An operation on `s` answers the same whatever the control registers hold, and hands them on. -/
def ControlBlind (f : State → Outcome) (s : State) : Prop :=
  ∀ c q, f (s.withControl c q) = controlIn c q (f s)

/-! ### Reads and updates that do not meet them -/

section
variable (c : Cp0) (q : BitVec 6)

@[simp] theorem withControl_bytesAt (s : State) (a : Word) (n : Nat) :
    (s.withControl c q).bytesAt a n = s.bytesAt a n := by
  induction n generalizing a with
  | zero => rfl
  | succ n ih => exact congrArg _ (ih (a + 1))

@[simp] theorem withControl_setBytes (s : State) (a : Word) (bs : List Byte) :
    (s.withControl c q).setBytes a bs = (s.setBytes a bs).withControl c q := by
  induction bs generalizing s a with
  | nil => rfl
  | cons b bs ih => exact ih (s.setByte a b) (a + 1)

@[simp] theorem withControl_answered (s : State) :
    (s.withControl c q).answered = s.answered.withControl c q := by
  have hin : (s.withControl c q).input = s.input := rfl
  unfold State.answered
  rw [hin]
  cases s.input <;> rfl

@[simp] theorem withControl_answerBytes (s : State) (n : Nat) :
    (s.withControl c q).answerBytes n = ((s.answerBytes n).1, (s.answerBytes n).2.withControl c q) := by
  induction n generalizing s with
  | zero => rfl
  | succ n ih => simp only [State.answerBytes, withControl_answered, ih]; rfl

@[simp] theorem withControl_scan (s : State) (a : Word) (n : Nat) : (s.withControl c q).scan a n = s.scan a n := by
  induction n generalizing a with
  | zero => rfl
  | succ n ih => simp only [State.scan, ih]; rfl

end

/-! ### Checks and accesses of the default model -/

section
variable (c : Cp0) (q : BitVec 6) (hm : s.params.trapModel = .fault)
include hm

theorem withControl_kernelOnly (a : Word) : (s.withControl c q).kernelOnly a = s.kernelOnly a := by
  rw [kernelOnly_of_fault hm, kernelOnly_of_fault (s := s.withControl c q) hm]

theorem withControl_order : (s.withControl c q).order = s.order := by
  rw [order_of_fault hm, order_of_fault (s := s.withControl c q) hm]; rfl

theorem withControl_readNum (a : Word) (n : Nat) : (s.withControl c q).readNum a n = s.readNum a n := by
  simp only [State.readNum, withControl_order c q hm, withControl_bytesAt]

theorem withControl_writeNum (a : Word) (n v : Nat) :
    (s.withControl c q).writeNum a n v = (s.writeNum a n v).withControl c q := by
  simp only [State.writeNum, withControl_order c q hm, withControl_setBytes]

theorem withControl_loadExc (a : Word) (n : Nat) : (s.withControl c q).loadExc a n = s.loadExc a n := by
  simp only [State.loadExc, withControl_kernelOnly c q hm]; rfl

theorem withControl_storeExc (a : Word) (n : Nat) : (s.withControl c q).storeExc a n = s.storeExc a n := by
  simp only [State.storeExc, withControl_kernelOnly c q hm]; rfl

theorem withControl_fetchExc : (s.withControl c q).fetchExc = s.fetchExc := by
  simp only [State.fetchExc, withControl_kernelOnly c q hm]; rfl

theorem withControl_fetched : (s.withControl c q).fetched = s.fetched :=
  congrArg (BitVec.ofNat 32) (withControl_readNum c q hm s.pc 4)

end

/-! ### Shapes of instructions, services, instructions, steps -/

section
variable (hm : s.params.trapModel = .fault)
include hm

theorem controlBlind_raise (e : Exc) : ControlBlind (raise e) s := fun c q => by
  rw [raise_fault e hm, raise_fault (s := s.withControl c q) e hm]; rfl

theorem controlBlind_finishUnless (b : Bool) (r : Reg) (v : Word) : ControlBlind (finishUnless b r v) s := fun c q => by
  cases b with
  | true => exact controlBlind_raise hm .overflow c q
  | false => rfl

theorem controlBlind_load (r : Reg) (a : Word) (n : Nat) (widen : Nat → Word) :
    ControlBlind (load r a n widen) s := fun c q => by
  unfold load
  rw [withControl_loadExc c q hm, withControl_readNum c q hm]
  split
  · exact controlBlind_raise hm _ c q
  · rfl

theorem controlBlind_store (a : Word) (n : Nat) (v : Word) : ControlBlind (store a n v) s := fun c q => by
  unfold store
  rw [withControl_storeExc c q hm, withControl_writeNum c q hm]
  split
  · exact controlBlind_raise hm _ c q
  · rfl

theorem controlBlind_servePrintString : ControlBlind servePrintString s := fun c q => by
  have hscan : (s.withControl c q).scan ((s.withControl c q).reg 4) (2 ^ 32) = s.scan (s.reg 4) (2 ^ 32) :=
    withControl_scan ..
  unfold servePrintString
  rw [hscan]
  cases s.scan (s.reg 4) (2 ^ 32) with
  | ended bs => rfl
  | missing a => exact controlBlind_raise hm _ c q
  | endless => rfl

theorem controlBlind_serveReadString : ControlBlind serveReadString s := fun c q => by
  have hbuf : (s.withControl c q).bufferExc ((s.withControl c q).reg 4) ((s.withControl c q).reg 5).toNat
      = s.bufferExc (s.reg 4) (s.reg 5).toNat := rfl
  unfold serveReadString
  simp only
  rw [hbuf]
  cases s.bufferExc (s.reg 4) (s.reg 5).toNat with
  | some e => exact controlBlind_raise hm e c q
  | none =>
    simp only [withControl_answerBytes, withControl_setBytes]
    rfl

theorem controlBlind_serve : ControlBlind serve s := fun c q => by
  have hreg : (s.withControl c q).reg 2 = s.reg 2 := rfl
  unfold serve
  rw [hreg]
  cases serviceOf (s.reg 2) with
  | none => exact controlBlind_raise hm _ c q
  | some v =>
    cases v with
    | printInt | exit => rfl
    | printString => exact controlBlind_servePrintString hm c q
    | readInt => simp only [serveReadInt, withControl_answered]; rfl
    | readString => exact controlBlind_serveReadString hm c q

/-- The meanings shown by `rfl` read only registers, `HI`, `LO` and `pc`; the others have a check or a choice in
them. -/
theorem controlBlind_exec (i : Instr) : ControlBlind (exec i) s := fun c q => by
  have hreg : ∀ r, (s.withControl c q).reg r = s.reg r := fun _ => rfl
  cases i with
  | mfhi | mflo | mthi | mtlo | lui => rfl
  | beq | bne | bgez | bgtz | blez | bltz | bgezal | bltzal | j | jal | jr | jalr => rfl
  | addu | subu | addiu | mult | multu => rfl
  | or | and | xor | nor | ori | andi | xori => rfl
  | sllv | srlv | srav | sll | srl | sra => rfl
  | slt | sltu | slti | sltiu => rfl
  | lw | lh | lhu | lb | lbu =>
    simp only [exec, execLw, execLh, execLhu, execLb, execLbu]
    exact controlBlind_load hm _ _ _ _ c q
  | sw | sh | sb => exact controlBlind_store hm _ _ _ c q
  | add | sub | addi => exact controlBlind_finishUnless hm _ _ _ c q
  | div | divu =>
    simp only [exec, execDiv, execDivu, hreg]
    split_ifs <;> rfl
  | syscall =>
    simp only [exec, execSyscall_fault hm, execSyscall_fault (s := s.withControl c q) hm]
    exact controlBlind_serve hm c q
  | brk => exact controlBlind_raise hm .breakpoint c q
  | rfe =>
    simp only [exec, execRfe_fault hm, execRfe_fault (s := s.withControl c q) hm]
    exact controlBlind_raise hm _ c q

theorem controlBlind_execReserved (w : Word) : ControlBlind (execReserved w) s := fun c q => by
  rw [execReserved_fault hm, execReserved_fault (s := s.withControl c q) hm]
  exact controlBlind_raise hm _ c q

theorem controlBlind_runWord (w : Word) : ControlBlind (runWord w) s := fun c q => by
  unfold runWord
  cases decode w with
  | instr i => exact controlBlind_exec hm i c q
  | reserved r => exact controlBlind_execReserved hm w c q

theorem controlBlind_step : ControlBlind step s := fun c q => by
  have hstatus : (s.withControl c q).status = s.status := rfl
  unfold step
  rw [hstatus, interruptDue_of_fault hm, interruptDue_of_fault (s := s.withControl c q) hm,
    withControl_fetchExc c q hm, withControl_fetched c q hm]
  cases s.status with
  | exited | faulted f => rfl
  | running =>
    cases s.fetchExc with
    | some e => exact controlBlind_raise hm e c q
    | none => exact controlBlind_runWord hm _ c q

end

/-- What answers the same for all control registers writes none: replace them by themselves. -/
theorem ControlBlind.cp0_eq {f : State → Outcome} (hf : ControlBlind f s) (h : f s = .next t) : t.cp0 = s.cp0 := by
  have hself : f s = controlIn s.cp0 s.irq (f s) := hf s.cp0 s.irq
  rw [h] at hself
  injection hself with ht
  rw [ht]; rfl

/-- Settles O17: the step is blind to the control registers, so it writes none, and each outcome is the same but for
them. -/
theorem defaultModelHasNoControlRegister : Obligations.DefaultModelHasNoControlRegister := by
  intro s c q hm
  have hblind : step (s.withControl c q) = controlIn c q (step s) := controlBlind_step hm c q
  have houtcome : ∀ o, step s = o → step (s.withControl c q) = controlIn c q o := fun o h => h ▸ hblind
  exact ⟨fun t h => ⟨(controlBlind_step hm).cp0_eq h, houtcome _ h⟩, fun f => houtcome _, fun x => houtcome _⟩

end Sys2Proof.Machine
end

section
/-! # The launch

The launch state of an image (spec/10_state.md R35, spec/70_reset_and_hazards.md R260, R261). Memory is the data bytes
written over the bytes of the instruction words; where no placements overlap, each address has at most one byte written
to it. -/

namespace Sys2Proof.Machine

variable {s : State} {w : Word}

/-! ### Words and their bytes -/

/-- A word is its four bytes, most significant first. -/
theorem word_eq_bytes (w : Word) :
    BitVec.ofNat 8 (w.toNat / 256 / 256 / 256) ++ BitVec.ofNat 8 (w.toNat / 256 / 256) ++ BitVec.ofNat 8 (w.toNat / 256)
      ++ BitVec.ofNat 8 w.toNat = w := by
  apply BitVec.eq_of_toNat_eq
  have := w.isLt
  simp only [toNat_append_eq, BitVec.toNat_ofNat]
  omega

/-- A word stands at an address if its bytes do, in the byte order (R53). -/
theorem wordAt_of_bytes {e : Endian} {a : Word}
    (h : ∀ k b, (bytesOf e 4 w.toNat)[k]? = some b → s.byteAt (up a k) = b) : wordAt e s a = w := by
  have h0 : up a 0 = a := BitVec.add_zero a
  cases e with
  | little | big => rw [wordAt, h 3 _ rfl, h 2 _ rfl, h 1 _ rfl, ← h0, h 0 _ rfl, word_eq_bytes]

theorem lt_of_bytesOf_getElem? {e : Endian} {n v k : Nat} {b : Byte} (h : (bytesOf e n v)[k]? = some b) : k < n := by
  obtain ⟨hk, -⟩ := List.getElem?_eq_some_iff.1 h
  simpa using hk

theorem toNat_up_ofNat {a k : Nat} (h : a + k < 2 ^ 32) : (up (BitVec.ofNat 32 a) k).toNat = a + k := by
  simp [up, BitVec.toNat_add]; omega

theorem byteAt_of_memGet {a : Word} {b : Byte} (h : memGet s.mem a.toNat = some b) : s.byteAt a = b := by
  simp [State.byteAt, h]

/-! ### Placements that do not overlap -/

/-- Words placed without overlap that share an address are one placement. -/
theorem NoOverlap.code_eq {img : Image} (h : NoOverlap img) {c d : Nat × Word} (hc : c ∈ img.code) (hd : d ∈ img.code)
    (hlt : c.1 < d.1 + 4) (hgt : d.1 < c.1 + 4) : c = d := by
  obtain ⟨hcode, -, -⟩ := h
  have : Std.Symm fun c d : Nat × Word => c.1 + 4 ≤ d.1 ∨ d.1 + 4 ≤ c.1 := ⟨fun _ _ => Or.symm⟩
  by_contra hne
  have := hcode.forall hc hd hne
  omega

theorem NoOverlap.bytes_eq {img : Image} (h : NoOverlap img) {b c : Nat × Byte} (hb : b ∈ img.bytes)
    (hc : c ∈ img.bytes) (he : b.1 = c.1) : b = c := by
  obtain ⟨-, hbytes, -⟩ := h
  have : Std.Symm fun b c : Nat × Byte => b.1 ≠ c.1 := ⟨fun _ _ => Ne.symm⟩
  by_contra hne
  exact hbytes.forall hb hc hne he

/-! ### The launch state -/

section
variable {p : Params} {img : Image} (d : LaunchDraws)

/-- A register that the launch gives no value holds the one chosen for it. -/
theorem launch_reg {r : Reg} (h0 : r ≠ 0) (h29 : r ≠ 29) : (launch p img d).reg r = d.gpr[r.val] := by
  have hz : 0 ≠ r.val := fun h => h0 (Fin.ext h.symm)
  have hsp : 29 ≠ r.val := fun h => h29 (Fin.ext h.symm)
  simp [State.reg, launch, h0, Vector.getElem_set_ne, hz, hsp]

theorem launch_reg_sp : (launch p img d).reg 29 = p.stackTop := Vector.getElem_set_self _

/-- An image that lies in the address space leaves memory in canonical form. -/
theorem launch_inv (hcode : ∀ c ∈ img.code, c.1 + 4 ≤ 2 ^ 32) (hbytes : ∀ b ∈ img.bytes, b.1 < 2 ^ 32) :
    (launch p img d).Inv where
  mem := by
    have hcodeBytes : ∀ x ∈ codeBytes p.endian img.code, x.1 < 2 ^ 32 := by
      intro x hx
      obtain ⟨c, hc, k, hk, hget⟩ := mem_codeBytes.1 hx
      have := lt_of_bytesOf_getElem? hget
      have := hcode c hc
      omega
    exact memSetAll_wf (memSetAll_wf ⟨.nil, by simp⟩ hcodeBytes) hbytes
  zero := by simp [launch]
  sr := (by decide : resetCp0.sr &&& ~~~statusMask = 0)
  cause := (by decide : resetCp0.cause &&& ~~~causeMask = 0)

/-- Each byte of an instruction word is at its address: no data byte is written over it, and no other word. -/
theorem launch_mem_code (hno : NoOverlap img) {c : Nat × Word} (hc : c ∈ img.code) {k : Nat} {b : Byte}
    (hb : (bytesOf p.endian 4 c.2.toNat)[k]? = some b) : memGet (launch p img d).mem (c.1 + k) = some b := by
  have hk := lt_of_bytesOf_getElem? hb
  have hdata : ∀ x ∈ img.bytes, x.1 ≠ c.1 + k := by
    obtain ⟨-, -, hapart⟩ := hno
    intro x hx
    have := hapart c hc x hx
    omega
  have hagree : ∀ x ∈ codeBytes p.endian img.code, x.1 = c.1 + k → x.2 = b := by
    intro x hx hat
    obtain ⟨c', hc', k', hx1, hx2⟩ := mem_codeBytes.1 hx
    have hk' := lt_of_bytesOf_getElem? hx2
    obtain rfl : c' = c := hno.code_eq hc' hc (by omega) (by omega)
    obtain rfl : k' = k := by omega
    exact Option.some.inj (hx2.symm.trans hb)
  rw [launch, memGet_memSetAll_other _ hdata]
  exact memGet_memSetAll [] hagree ⟨(c.1 + k, b), mem_codeBytes.2 ⟨c, hc, k, rfl, hb⟩, rfl⟩

/-- Each instruction word is at its address, in the byte order `ENDIAN` (R261). -/
theorem launch_wordAt (hno : NoOverlap img) {c : Nat × Word} (hc : c ∈ img.code) (hfit : c.1 + 4 ≤ 2 ^ 32) :
    wordAt p.endian (launch p img d) (BitVec.ofNat 32 c.1) = c.2 := by
  refine wordAt_of_bytes fun k b hb => byteAt_of_memGet ?_
  have hk := lt_of_bytesOf_getElem? hb
  rw [toNat_up_ofNat (by omega)]
  exact launch_mem_code d hno hc hb

/-- Each data byte is at its address (R261). -/
theorem launch_byteAt_data (hno : NoOverlap img) {b : Nat × Byte} (hb : b ∈ img.bytes) (hfit : b.1 < 2 ^ 32) :
    (launch p img d).byteAt (BitVec.ofNat 32 b.1) = b.2 := by
  have hagree : ∀ x ∈ img.bytes, x.1 = b.1 → x.2 = b.2 := fun x hx he => congrArg _ (hno.bytes_eq hx hb he)
  refine byteAt_of_memGet ?_
  rw [BitVec.toNat_ofNat, Nat.mod_eq_of_lt hfit]
  exact memGet_memSetAll _ hagree ⟨b, hb, rfl⟩

/-- A byte that nothing is placed on holds its unspecified value (R35). -/
theorem launch_byteAt_free {a : Word} (hcode : ∀ c ∈ img.code, a.toNat < c.1 ∨ c.1 + 4 ≤ a.toNat)
    (hbytes : ∀ b ∈ img.bytes, b.1 ≠ a.toNat) : (launch p img d).byteAt a = Config.launchByte a := by
  have hcodeBytes : ∀ x ∈ codeBytes p.endian img.code, x.1 ≠ a.toNat := by
    intro x hx
    obtain ⟨c, hc, k, hk, hget⟩ := mem_codeBytes.1 hx
    have := lt_of_bytesOf_getElem? hget
    have := hcode c hc
    omega
  rw [State.byteAt, launch, memGet_memSetAll_other _ hbytes, memGet_memSetAll_other _ hcodeBytes]
  rfl

end

/-- Settles O59: the fields are those of the launch; the invariant and the bytes of memory, by where they are placed. -/
theorem launchState : Obligations.LaunchState := by
  intro p img d
  refine ⟨rfl, launch_reg_sp d, rfl, fun q h0 h29 => launch_reg d h0 h29, rfl, rfl, rfl, rfl, rfl, rfl, rfl, ?_⟩
  intro hcode hbytes
  refine ⟨launch_inv d hcode hbytes, fun hno => ⟨fun c hc => ?_, fun b hb => ?_, fun a => ?_⟩⟩
  · exact launch_wordAt d hno hc (hcode c hc)
  · exact launch_byteAt_data d hno hb (hbytes b hb)
  · exact launch_byteAt_free d

end Sys2Proof.Machine
end

section
/-! # Memory: who writes it, what the fetch reads, and reading back what was stored

Proofs of the statements of spec/20_memory.md. Only a store and the buffer of service 8 write memory (R51), and neither
gets past its checks with a byte in the text image where `SMC = refuse` (R63). A number that is stored is a run of bytes,
and each shorter run inside it reads back as the same bytes (R54), by a load or by the fetch (R67). -/

namespace Sys2Proof.Machine

variable {s t : State} {i : Instr} {w : Word}

/-! ### What memory is after a step (R51, R63) -/

/-- Bytes written depend on no part of the state but memory. -/
theorem setBytes_mem_congr (h : t.mem = s.mem) (a : Word) (bs : List Byte) :
    (t.setBytes a bs).mem = (s.setBytes a bs).mem := by
  induction bs generalizing s t a with
  | nil => exact h
  | cons b bs ih => exact ih (by simp [h]) (a + 1)

theorem byteAt_of_mem_eq (h : t.mem = s.mem) (a : Word) : t.byteAt a = s.byteAt a := by
  rw [State.byteAt, State.byteAt, h]

/-- An address is outside a run that has no byte with a property of the address. -/
theorem inRun_of_firstInRun_none {p : Word → Bool} {a x : Word} {n : Nat} (h : firstInRun p a n = none)
    (hx : p x = true) : inRun a n x = false := by
  by_contra hin
  have hlt : (x - a).toNat < n := by simpa [inRun] using hin
  have hat : a + BitVec.ofNat 32 (x - a).toNat = x := by
    rw [BitVec.ofNat_toNat, BitVec.setWidth_eq, BitVec.add_comm, BitVec.sub_add_cancel]
  have hpx := (firstInRun_none_iff p a n).1 h _ hlt
  rw [hat, hx] at hpx
  cases hpx

/-- The instructions that write memory (R51). -/
def WritesMem (i : Instr) (s : State) : Prop := (∃ n, Stores i n) ∨ (i = .syscall ∧ s.reg 2 = 8)

/-- `t` has the memory of `s` with a run of bytes written that the check of R63 lets through. -/
def RunWritten (s t : State) : Prop :=
  ∃ a bs, bs.length ≤ 2 ^ 32 ∧ (s.params.smc = .refuse → firstInRun s.inText a bs.length = none)
    ∧ t.mem = (s.setBytes a bs).mem

/-- A run written with `SMC = refuse` leaves the text image as it was. -/
theorem RunWritten.byteAt_inText (h : RunWritten s t) (hs : s.params.smc = .refuse) {a : Word} (ha : s.inText a = true) :
    t.byteAt a = s.byteAt a := by
  obtain ⟨b, bs, hlen, hclear, hmem⟩ := h
  calc t.byteAt a = (s.setBytes b bs).byteAt a := byteAt_of_mem_eq hmem a
    _ = s.byteAt a := setBytes_byteAt_out s b a bs hlen (inRun_of_firstInRun_none (hclear hs) ha)

/-- Service 8 writes its buffer; no other service writes memory (R211, R215). -/
theorem ServeNext.mem_or (h : ServeNext s t) : t.mem = s.mem ∨ (s.reg 2 = 8 ∧ RunWritten s t) := by
  cases h with
  | printInt | printString | readInt | exit => exact .inl (by simp)
  | readString h8 hb =>
    obtain ⟨-, hclear⟩ := bufferExc_none hb
    have hn := (s.reg 5).isLt
    refine .inr ⟨h8, s.reg 4, (s.answerBytes (s.reg 5).toNat).1, by simpa using hn.le, by simpa using hclear, ?_⟩
    simpa using setBytes_mem_congr (by simp) _ _

/-- An instruction leaves memory as it was, or it is one of the writers and writes one run. -/
theorem ExecNext.mem_or (h : ExecNext i s t) : t.mem = s.mem ∨ (WritesMem i s ∧ RunWritten s t) := by
  cases h with
  | trap | reg | hilo | rfe => exact .inl (by simp)
  | store a n v hs hx =>
    obtain ⟨-, -, -, hclear⟩ := storeExc_none.1 hx
    have hn := hs.le
    exact .inr ⟨.inl ⟨n, hs⟩, a, bytesOf s.order n v, by simp; omega, by simpa using hclear, rfl⟩
  | service _ hi hm hserve => exact (serve_next hm hserve).mem_or.imp_right fun ⟨h8, hrun⟩ => ⟨.inr ⟨hi, h8⟩, hrun⟩

theorem raise_mem {e : Exc} (h : raise e s = .next t) : t.mem = s.mem := by
  obtain ⟨-, c, -, rfl⟩ := raise_next h
  rfl

theorem writeCp0_mem (s : State) (rd : Reg) (v : Word) : (s.writeCp0 rd v).mem = s.mem := by
  unfold State.writeCp0
  split
  · rfl
  · split <;> rfl

theorem execCp0Move_mem {m : Cp0Move} (h : execCp0Move m s = .next t) : t.mem = s.mem := by
  obtain ⟨-, hraise⟩ | ⟨-, ⟨rt, rd, -, rfl⟩ | ⟨rt, rd, -, rfl⟩⟩ := execCp0Move_next h
  · exact raise_mem hraise
  · cases cp0Described rd <;> rfl
  · exact writeCp0_mem s rd (s.reg rt)

theorem execReserved_mem (h : execReserved w s = .next t) : t.mem = s.mem := by
  obtain ⟨m, -, -, hmove⟩ | hraise := execReserved_next h
  · exact execCp0Move_mem hmove
  · exact raise_mem hraise

/-- A step leaves memory as it was, or writes one run that the check of R63 lets through. -/
theorem step_mem_or (h : step s = .next t) : t.mem = s.mem ∨ RunWritten s t := by
  obtain ⟨-, ⟨-, hint⟩ | ⟨-, e, -, hfetch⟩ | ⟨-, -, hrun⟩⟩ := step_next h
  · exact .inl (raise_mem hint)
  · exact .inl (raise_mem hfetch)
  · obtain ⟨i, -, hexec⟩ | ⟨r, -, hres⟩ := runWord_next hrun
    · exact (exec_next hexec).mem_or.imp_right And.right
    · exact .inl (execReserved_mem hres)

/-- Settles O13: the only change a step can make is a run of bytes with none in the text image. -/
theorem textImageNeverChanges : Obligations.TextImageNeverChanges := by
  intro s t a hs hstep ha
  obtain hmem | hrun := step_mem_or hstep
  · exact byteAt_of_mem_eq hmem a
  · exact hrun.byteAt_inText hs ha

/-- Settles O14: an instruction that changes memory is one of the excluded writers. -/
theorem memoryWriters : Obligations.MemoryWriters := by
  intro i s t hexec hstore hsys
  obtain hmem | ⟨⟨n, hs⟩ | ⟨hi, h8⟩, -⟩ := (exec_next hexec).mem_or
  · exact hmem
  · cases hs with
    | sw rt imm rs => obtain ⟨hne, -, -⟩ := hstore rt imm rs; exact absurd rfl hne
    | sh rt imm rs => obtain ⟨-, hne, -⟩ := hstore rt imm rs; exact absurd rfl hne
    | sb rt imm rs => obtain ⟨-, -, hne⟩ := hstore rt imm rs; exact absurd rfl hne
  · exact absurd h8 (hsys hi)

/-! ### The checks of an access, in the statements' vocabulary (R55, R56, R58, R63) -/

theorem aligned_iff {a : Word} {n : Nat} : aligned a n = true ↔ a.toNat % n = 0 := by simp [aligned]

theorem allBytes_iff {p : Word → Bool} {a : Word} {n : Nat} : AllBytes p a n ↔ allInRun p a n = true :=
  (allInRun_iff p a n).symm

theorem missesByte_iff {p : Word → Bool} {a : Word} {n : Nat} : MissesByte p a n ↔ allInRun p a n = false := by
  rw [← Bool.not_eq_true, ← allBytes_iff]
  simp [AllBytes, MissesByte]

theorem firstInRun_none_iff_allBytes {p : Word → Bool} {a : Word} {n : Nat} :
    firstInRun p a n = none ↔ AllBytes (fun x => !p x) a n := by
  simp [firstInRun_none_iff, AllBytes, up]

/-- An outcome that is what `raise` answers is the exception. -/
theorem raises_of_eq {o : Outcome} {e : Exc} (h : o = raise e s) : Raises o e s :=
  ⟨h, fun hm => h.trans (raise_fault e hm)⟩

/-! ### The fetch (R58) -/

theorem fetchExc_addressError (h : aligned s.pc 4 = false ∨ s.kernelOnly s.pc = true) :
    s.fetchExc = some (.addressErrorFetch s.pc) := by
  simp [State.fetchExc, h]

theorem fetchExc_busError (ha : aligned s.pc 4 = true) (hk : s.kernelOnly s.pc = false)
    (hm : MissesByte s.allocated s.pc 4) : s.fetchExc = some (.busErrorFetch s.pc) := by
  simp [State.fetchExc, ha, hk, missesByte_iff.1 hm]

theorem fetchExc_outsideText (ha : aligned s.pc 4 = true) (hk : s.kernelOnly s.pc = false)
    (hall : AllBytes s.allocated s.pc 4) (hs : s.params.smc = .refuse) (hm : MissesByte s.inText s.pc 4) :
    s.fetchExc = some (.fetchOutsideText s.pc) := by
  simp [State.fetchExc, ha, hk, allBytes_iff.1 hall, hs, missesByte_iff.1 hm]

theorem fetchExc_none_of_allBytes (ha : aligned s.pc 4 = true) (hk : s.kernelOnly s.pc = false)
    (hall : AllBytes s.allocated s.pc 4) (hs : s.params.smc = .refuse → AllBytes s.inText s.pc 4) :
    s.fetchExc = none :=
  fetchExc_none.2 ⟨ha, hk, allBytes_iff.1 hall, fun h => allBytes_iff.1 (hs h)⟩

/-- Between instructions with no interrupt to take, what the fetch raises is what the step raises (R233). -/
theorem step_raises_of_fetchExc (hr : s.status = .running) (hi : s.interruptDue = false) {e : Exc}
    (hf : s.fetchExc = some e) : Raises (step s) e s :=
  raises_of_eq (by simp [step, hr, hi, hf])

/-- The four bytes read are the word in memory's byte order (R53). -/
theorem ofNat_readNum_four (s : State) (a : Word) : BitVec.ofNat 32 (s.readNum a 4) = wordAt s.order s a := by
  have hbytes : s.bytesAt a 4 = [s.byteAt a, s.byteAt (up a 1), s.byteAt (up a 2), s.byteAt (up a 3)] := by
    simp [State.bytesAt, up, BitVec.add_assoc]
  have hlt : s.readNum a 4 < 2 ^ 32 := readNum_lt s a 4
  apply BitVec.eq_of_toNat_eq
  rw [BitVec.toNat_ofNat, Nat.mod_eq_of_lt hlt, State.readNum, hbytes]
  cases s.order with
  | little | big =>
    simp only [valueOf, wordAt, toNat_append_eq, List.reverse_cons, List.reverse_nil, List.nil_append, List.cons_append,
      littleValue]
    omega

/-- Settles O7: each clause is what the fetch's checks answer in that case, and the word read is the word at `pc`. -/
theorem fetchRule : Obligations.FetchRule := by
  intro s hr hi hg hrev
  have hk := kernelOnly_of_not_guarded hg s.pc
  refine ⟨fun ha => ?_, fun ha hm => ?_, fun ha hall hs hm => ?_, fun ha hall hs => ?_⟩
  · exact step_raises_of_fetchExc hr hi (fetchExc_addressError (.inl (by simp [aligned, ha])))
  · exact step_raises_of_fetchExc hr hi (fetchExc_busError (aligned_iff.2 ha) hk hm)
  · exact step_raises_of_fetchExc hr hi (fetchExc_outsideText (aligned_iff.2 ha) hk hall hs hm)
  · have hword : s.fetched = wordAt s.params.endian s s.pc := by
      rw [State.fetched, ofNat_readNum_four, order_of_not_reversed hrev]
    refine ⟨hword, ?_⟩
    rw [← hword]
    exact step_of_fetchExc_none hr hi (fetchExc_none_of_allBytes (aligned_iff.2 ha) hk hall hs)

/-! ### Loads and stores that complete (R59) -/

theorem loadExc_none_of_allBytes {a : Word} {n : Nat} (ha : a.toNat % n = 0) (hk : s.kernelOnly a = false)
    (hall : AllBytes s.allocated a n) : s.loadExc a n = none :=
  loadExc_none.2 ⟨aligned_iff.2 ha, hk, allBytes_iff.1 hall⟩

theorem storeExc_none_of_allBytes {a : Word} {n : Nat} (ha : a.toNat % n = 0) (hk : s.kernelOnly a = false)
    (hall : AllBytes s.allocated a n) (hs : s.params.smc = .refuse → AllBytes (fun x => !s.inText x) a n) :
    s.storeExc a n = none :=
  storeExc_none.2 ⟨aligned_iff.2 ha, hk, allBytes_iff.1 hall, fun h => firstInRun_none_iff_allBytes.2 (hs h)⟩

/-- An instruction that finishes writes its register and goes on, and nothing else changes. -/
theorem regResult_of_finish {r : Reg} {v : Word} (h : exec i s = finish r v s) : RegResult i r v s := by
  refine ⟨(s.setReg r v).advance, h, ⟨?_, fun q hq => by simp [hq], ⟨rfl, rfl⟩, fun _ => rfl, ?_⟩, rfl⟩
  · by_cases hr : r = 0 <;> simp [hr]
  · exact ⟨⟨rfl, rfl, rfl, rfl, rfl⟩, rfl, rfl, rfl, rfl⟩

/-- A load whose checks pass finishes with the number read, widened. -/
theorem load_of_loadExc_none {a : Word} {n : Nat} (hx : s.loadExc a n = none) (r : Reg) (widen : Nat → Word) :
    load r a n widen s = finish r (widen (s.readNum a n)) s := by
  simp [load, hx]

/-- A store whose checks pass writes its bytes and goes on. -/
theorem store_of_storeExc_none {a : Word} {n : Nat} (hx : s.storeExc a n = none) (v : Word) :
    store a n v s = .next (s.writeNum a n v.toNat).advance := by
  simp [store, hx]

/-! ### Reading back a part of what was stored (R54) -/

theorem bytesAt_getElem? {a : Word} {n k : Nat} (hk : k < n) : (s.bytesAt a n)[k]? = some (s.byteAt (up a k)) := by
  induction n generalizing a k with
  | zero => omega
  | succ n ih =>
    cases k with
    | zero => simp [State.bytesAt, up]
    | succ k => rw [State.bytesAt, List.getElem?_cons_succ, ih (by omega), up, add_one_ofNat, up]

theorem up_zero (a : Word) : up a 0 = a := BitVec.add_zero a

theorem up_up (a : Word) (j k : Nat) : up (up a j) k = up a (j + k) := by
  rw [up, up, up, BitVec.add_assoc, BitVec.ofNat_add]

/-- The bytes at a part of a run are that part of the run's bytes. -/
theorem bytesAt_up {a : Word} {n j m : Nat} (h : j + m ≤ n) :
    s.bytesAt (up a j) m = ((s.bytesAt a n).drop j).take m := by
  apply List.ext_getElem?
  intro k
  by_cases hk : k < m
  · rw [bytesAt_getElem? hk, List.getElem?_take_of_lt hk, List.getElem?_drop, bytesAt_getElem? (by omega), up_up]
  · rw [List.getElem?_eq_none (by simpa using hk), List.getElem?_eq_none (by simp; omega)]

/-- A part of a number just written reads as that part of its bytes, in the same byte order. -/
theorem writeNum_readNum_part (s : State) (a : Word) (v : Nat) {n j m : Nat} (h : j + m ≤ n) (hn : n ≤ 2 ^ 32) :
    (s.writeNum a n v).readNum (up a j) m = valueOf s.order (((bytesOf s.order n v).drop j).take m) := by
  have hback := setBytes_bytesAt s a (bytesOf s.order n v) (by simpa using hn)
  rw [bytesOf_length] at hback
  rw [State.readNum, writeNum_order, State.writeNum, bytesAt_up h, hback]

@[simp] theorem advance_readNum (s : State) (a : Word) (n : Nat) : s.advance.readNum a n = s.readNum a n := by
  simp [State.readNum]

@[simp] theorem setPc_readNum (s : State) (v a : Word) (n : Nat) : (s.setPc v).readNum a n = s.readNum a n := by
  simp [State.readNum]

theorem AllBytes.up {p : Word → Bool} {a : Word} {n j m : Nat} (h : AllBytes p a n) (hj : j + m ≤ n) :
    AllBytes p (up a j) m := by
  intro k hk
  rw [up_up]
  exact h (j + k) (by omega)

/-- From a multiple of 4, an offset that is a multiple of an access's width reaches an aligned address (R55), also where
the address wraps (R50). -/
theorem toNat_up_mod {a : Word} (h : a.toNat % 4 = 0) {j m : Nat} (hm : m ∣ 4) (hj : j % m = 0) :
    (up a j).toNat % m = 0 := by
  have hwrap : m ∣ 2 ^ 32 := hm.trans (by decide)
  have ha : m ∣ a.toNat := hm.trans (Nat.dvd_of_mod_eq_zero h)
  rw [up, BitVec.toNat_add, BitVec.toNat_ofNat, Nat.add_mod_mod, Nat.mod_mod_of_dvd _ hwrap]
  exact Nat.mod_eq_zero_of_dvd (ha.add (Nat.dvd_of_mod_eq_zero hj))

/-- The number held by the `m` bytes from byte `j` up of a word in memory, in a byte order (R53). -/
def wordPart (e : Endian) (w : Word) (j m : Nat) : Nat := valueOf e (((bytesOf e 4 w.toNat).drop j).take m)

section
variable {a : Word} {e : Endian} (hg : s.guarded = false) (ho : s.order = e) (ha : a.toNat % 4 = 0)
  (hall : AllBytes s.allocated a 4)
include hg ho ha hall

/-- Where the word `w` has just been stored, a load of `m` bytes at offset `j` passes its checks and finds that part. -/
theorem load_after_sw (w : Word) {j m : Nat} (hjm : j + m ≤ 4) (hm : m ∣ 4) (hj : j % m = 0) (r : Reg)
    (widen : Nat → Word) :
    load r (up a j) m widen (s.writeNum a 4 w.toNat).advance
      = finish r (widen (wordPart e w j m)) (s.writeNum a 4 w.toNat).advance := by
  have hx : (s.writeNum a 4 w.toNat).advance.loadExc (up a j) m = none :=
    loadExc_none_of_allBytes (toNat_up_mod ha hm hj) (kernelOnly_of_not_guarded (by simpa using hg) _)
      fun k hk => by simpa using hall.up hjm k hk
  rw [load_of_loadExc_none hx, advance_readNum, writeNum_readNum_part s a w.toNat hjm (by decide), ho, wordPart]

theorem lbu_after_sw {w v : Word} {j : Nat} (hj : j < 4) (hv : zext (BitVec.ofNat 8 (wordPart e w j 1)) = v)
    {q k : Reg} {d : Half} (hat : effAddr ((s.writeNum a 4 w.toNat).advance.reg k) d = up a j) :
    RegResult (.lbu q d k) q v (s.writeNum a 4 w.toNat).advance := by
  refine regResult_of_finish ?_
  rw [← hv, ← load_after_sw hg ho ha hall w hj (one_dvd 4) (Nat.mod_one j) q fun n => zext (BitVec.ofNat 8 n), ← hat]
  rfl

theorem lhu_after_sw {w v : Word} {j : Nat} (hjm : j + 2 ≤ 4) (hj : j % 2 = 0)
    (hv : zext (BitVec.ofNat 16 (wordPart e w j 2)) = v) {q k : Reg} {d : Half}
    (hat : effAddr ((s.writeNum a 4 w.toNat).advance.reg k) d = up a j) :
    RegResult (.lhu q d k) q v (s.writeNum a 4 w.toNat).advance := by
  refine regResult_of_finish ?_
  rw [← hv, ← load_after_sw hg ho ha hall w hjm (by decide) hj q fun n => zext (BitVec.ofNat 16 n), ← hat]
  rfl

end

/-- Settles O47: each load reads its part of the stored word, and the parts of `0x11223344` are numbers. -/
theorem mixedWidths : Obligations.MixedWidths := by
  intro rt rs imm s hg hrev a hv ha hall hs
  have hx := storeExc_none_of_allBytes (n := 4) ha (kernelOnly_of_not_guarded hg a) hall hs
  refine ⟨_, store_of_storeExc_none hx (s.reg rt), ?_⟩
  rw [hv]
  intro k q d at_
  have hzero (h : at_ = a) : at_ = up a 0 := h.trans (up_zero a).symm
  refine ⟨fun he => ?_, fun he => ?_⟩
  all_goals
    have ho := (order_of_not_reversed hrev).trans he
    refine ⟨fun h => ⟨?_, ?_⟩, fun h => ?_, fun h => ⟨?_, ?_⟩, fun h => ?_⟩
    · exact lbu_after_sw hg ho ha hall (by decide) (by decide) (hzero h)
    · exact lhu_after_sw hg ho ha hall (by decide) (by decide) (by decide) (hzero h)
    · exact lbu_after_sw hg ho ha hall (by decide) (by decide) h
    · exact lbu_after_sw hg ho ha hall (by decide) (by decide) h
    · exact lhu_after_sw hg ho ha hall (by decide) (by decide) (by decide) h
    · exact lbu_after_sw hg ho ha hall (by decide) (by decide) h

/-- Settles O48: the checks of a fetch are among those of the store, and the word reads back whole. -/
theorem coherentStoreIsFetched : Obligations.CoherentStoreIsFetched := by
  intro rt rs imm s hg hrev hs a ha hall
  have hk := kernelOnly_of_not_guarded hg a
  have hrefuse : s.params.smc ≠ .refuse := by simp [hs]
  have hx := storeExc_none_of_allBytes (n := 4) ha hk hall fun h => absurd h hrefuse
  refine ⟨_, store_of_storeExc_none hx (s.reg rt), ?_, ?_⟩
  · refine fetchExc_none_of_allBytes (aligned_iff.2 ha) (kernelOnly_of_not_guarded (by simpa using hg) _) ?_ ?_
    · simpa [AllBytes] using hall
    · intro h; exact absurd (by simpa using h) hrefuse
  · have hlt : (s.reg rt).toNat < 256 ^ 4 := (s.reg rt).isLt
    rw [State.fetched, setPc_pc, setPc_readNum, advance_readNum, writeNum_readNum s a 4 _ (by decide),
      Nat.mod_eq_of_lt hlt, BitVec.ofNat_toNat, BitVec.setWidth_eq]

end Sys2Proof.Machine
end

section
/-! # Encoding: the decoder, the encoder and the opcode table

Proofs of the statements of spec/30_encoding.md. Decoding and encoding are inverse to each other, and that is said once
(`decode_eq_instr_iff`): the arms of the decoder give one direction, the constructors of `Instr` the other. A word that
fits a row of the table has the row's values in the fields that the row's mask covers, so it is the word of an
instruction with the row's mnemonic. -/

namespace Sys2Proof.Machine

variable {w m p : Word} {i : Instr} {s : State}

/-! ### A word from some of its fields -/

theorem packI_eq {k : BitVec 6} {rs rt : Reg} (hop : opField w = k) (hrs : rsField w = rs) (hrt : rtField w = rt) :
    packI k rs rt (immField w) = w := by
  rw [← hop, ← hrs, ← hrt, packI_fields]

theorem packJ_eq {k : BitVec 6} (hop : opField w = k) : packJ k (addrField w) = w := by
  rw [← hop, packJ_fields]

theorem packR_eq {k : BitVec 6} {rs rt rd : Reg} {shamt : BitVec 5} (hop : opField w = 0) (hf : functField w = k)
    (hrs : rsField w = rs) (hrt : rtField w = rt) (hrd : rdField w = rd) (hsh : shamtField w = shamt) :
    packR rs rt rd shamt k = w := by
  rw [← hf, ← hrs, ← hrt, ← hrd, ← hsh, packR_fields hop]

/-- The amount read from the field is the field (R94). -/
theorem shamtField_eq_ofNat (w : Word) : shamtField w = BitVec.ofNat 5 (shamtField w).toNat := by
  rw [BitVec.ofNat_toNat, BitVec.setWidth_eq]

theorem shamtField_ok (w : Word) : shamtOk (shamtField w).toNat = true := decide_eq_true (shamtField w).isLt

/-! ### The decoder, arm by arm (R89) -/

theorem opField_eq_of_cell {k : BitVec 6} (h : codeOp (opField w) = codeOp k) (hk : codeOp k ≠ .blank) :
    opField w = k :=
  codeOp_injective _ _ h (h ▸ hk)

theorem functField_eq_of_cell {k : BitVec 6} (h : functOf (functField w) = functOf k) (hk : functOf k ≠ .blank) :
    functField w = k :=
  functOf_injective _ _ h (h ▸ hk)

/-- What is read from a word is a well-formed instruction whose word it is, or nothing. -/
def ReadsWord (w : Word) : Decoded → Prop
  | .instr i => i.wf = true ∧ encode i = w
  | .reserved _ => True

theorem readsWord_unusedZero {ok : Prop} [Decidable ok] (h : ok → i.wf = true ∧ encode i = w) :
    ReadsWord w (unusedZero ok i) := by
  unfold unusedZero
  split
  · next hok => exact h hok
  · trivial

theorem readsWord_decodeSpecial (hop : opField w = 0) : ReadsWord w (decodeSpecial w) := by
  unfold decodeSpecial
  cases hf : functOf (functField w) with
  | blank => trivial
  | sll | srl | sra =>
    exact readsWord_unusedZero fun hrs => ⟨shamtField_ok w,
      packR_eq hop (functField_eq_of_cell hf (by decide)) hrs rfl rfl (shamtField_eq_ofNat w)⟩
  | sllv | srlv | srav | add | addu | sub | subu | and | or | xor | nor | slt | sltu =>
    exact readsWord_unusedZero fun hsh => ⟨rfl,
      packR_eq hop (functField_eq_of_cell hf (by decide)) rfl rfl rfl hsh⟩
  | jr | mthi | mtlo =>
    exact readsWord_unusedZero fun ⟨hrt, hrd, hsh⟩ => ⟨rfl,
      packR_eq hop (functField_eq_of_cell hf (by decide)) rfl hrt hrd hsh⟩
  | jalr =>
    exact readsWord_unusedZero fun ⟨hrt, hsh⟩ => ⟨rfl,
      packR_eq hop (functField_eq_of_cell hf (by decide)) rfl hrt rfl hsh⟩
  | syscall | brk =>
    exact readsWord_unusedZero fun ⟨hrs, hrt, hrd, hsh⟩ => ⟨rfl,
      packR_eq hop (functField_eq_of_cell hf (by decide)) hrs hrt hrd hsh⟩
  | mfhi | mflo =>
    exact readsWord_unusedZero fun ⟨hrs, hrt, hsh⟩ => ⟨rfl,
      packR_eq hop (functField_eq_of_cell hf (by decide)) hrs hrt rfl hsh⟩
  | mult | multu | div | divu =>
    exact readsWord_unusedZero fun ⟨hrd, hsh⟩ => ⟨rfl,
      packR_eq hop (functField_eq_of_cell hf (by decide)) rfl rfl hrd hsh⟩

theorem readsWord_decodeBcond (hop : opField w = 0b000001) : ReadsWord w (decodeBcond w) := by
  unfold decodeBcond
  split
  · next hrt => exact ⟨rfl, packI_eq hop rfl hrt⟩
  split
  · next hrt => exact ⟨rfl, packI_eq hop rfl hrt⟩
  split
  · next hrt => exact ⟨rfl, packI_eq hop rfl hrt⟩
  split
  · next hrt => exact ⟨rfl, packI_eq hop rfl hrt⟩
  · trivial

theorem readsWord_decode (w : Word) : ReadsWord w (decode w) := by
  unfold decode
  cases hop : codeOp (opField w) with
  | blank => trivial
  | special => exact readsWord_decodeSpecial (opField_eq_of_cell hop (by decide))
  | bcond => exact readsWord_decodeBcond (opField_eq_of_cell hop (by decide))
  | j | jal => exact ⟨rfl, packJ_eq (opField_eq_of_cell hop (by decide))⟩
  | blez | bgtz =>
    exact readsWord_unusedZero fun hrt => ⟨rfl, packI_eq (opField_eq_of_cell hop (by decide)) rfl hrt⟩
  | lui => exact readsWord_unusedZero fun hrs => ⟨rfl, packI_eq (opField_eq_of_cell hop (by decide)) hrs rfl⟩
  | copro =>
    dsimp only
    split
    · next hw => exact ⟨rfl, hw.symm⟩
    · trivial
  | beq | bne | addi | addiu | slti | sltiu | andi | ori | xori | lb | lh | lw | lbu | lhu | sb | sh | sw =>
    exact ⟨rfl, packI_eq (opField_eq_of_cell hop (by decide)) rfl rfl⟩

/-! ### The encoder, constructor by constructor (R90, R95) -/

theorem decode_of_special (h : opField w = 0b000000) : decode w = decodeSpecial w := by
  unfold decode
  rw [h]
  rfl

theorem decode_of_bcond (h : opField w = 0b000001) : decode w = decodeBcond w := by
  unfold decode
  rw [h]
  rfl

/-- An amount below 32 fits its field (R94). -/
theorem toNat_ofNat_of_shamtOk {n : Nat} (h : shamtOk n = true) : (BitVec.ofNat 5 n).toNat = n := by
  rw [BitVec.toNat_ofNat, Nat.mod_eq_of_lt (of_decide_eq_true h)]

theorem decode_encode (h : i.wf = true) : decode (encode i) = .instr i := by
  cases i with
  | sll _ _ shamt | srl _ _ shamt | sra _ _ shamt =>
    simp [encode, decode_of_special, decodeSpecial, functOf, specialMap, unusedZero, toNat_ofNat_of_shamtOk h]
  | mfhi | mflo | mthi | mtlo | jr | jalr | add | sub | addu | subu | mult | multu | div | divu | or | and | xor | nor
  | sllv | srlv | srav | slt | sltu | syscall | brk =>
    simp [encode, decode_of_special, decodeSpecial, functOf, specialMap, unusedZero]
  | bgez | bltz | bgezal | bltzal => simp [encode, decode_of_bcond, decodeBcond]
  | j | jal => simp [encode, decode, codeOp, codeOpMap]
  | rfe => decide
  | lui | lw | sw | lh | lhu | sh | lb | lbu | sb | beq | bne | bgtz | blez | addi | addiu | ori | andi | xori | slti
  | sltiu => simp [encode, decode, codeOp, codeOpMap, unusedZero]

/-- Settles O2, by the constructors of `Instr`. -/
theorem encodeThenDecode : Obligations.EncodeThenDecode := fun _ h => decode_encode h

/-- Decoding and encoding are inverse to each other. -/
theorem decode_eq_instr_iff : decode w = .instr i ↔ i.wf = true ∧ encode i = w := by
  constructor
  · intro h
    have hread := readsWord_decode w
    rwa [h] at hread
  · rintro ⟨hwf, rfl⟩
    exact decode_encode hwf

/-! ### From an instruction to its row -/

theorem tableRow (i : Instr) : Laws.TableRow.Statement i := by
  cases i with
  | mfhi => exact Laws.TableRow.mfhi _
  | mflo => exact Laws.TableRow.mflo _
  | mthi => exact Laws.TableRow.mthi _
  | mtlo => exact Laws.TableRow.mtlo _
  | lui => exact Laws.TableRow.lui _ _
  | lw => exact Laws.TableRow.lw _ _ _
  | sw => exact Laws.TableRow.sw _ _ _
  | lh => exact Laws.TableRow.lh _ _ _
  | lhu => exact Laws.TableRow.lhu _ _ _
  | sh => exact Laws.TableRow.sh _ _ _
  | lb => exact Laws.TableRow.lb _ _ _
  | lbu => exact Laws.TableRow.lbu _ _ _
  | sb => exact Laws.TableRow.sb _ _ _
  | beq => exact Laws.TableRow.beq _ _ _
  | bne => exact Laws.TableRow.bne _ _ _
  | bgez => exact Laws.TableRow.bgez _ _
  | bgtz => exact Laws.TableRow.bgtz _ _
  | blez => exact Laws.TableRow.blez _ _
  | bltz => exact Laws.TableRow.bltz _ _
  | bgezal => exact Laws.TableRow.bgezal _ _
  | bltzal => exact Laws.TableRow.bltzal _ _
  | j => exact Laws.TableRow.j _
  | jal => exact Laws.TableRow.jal _
  | jr => exact Laws.TableRow.jr _
  | jalr => exact Laws.TableRow.jalr _ _
  | add => exact Laws.TableRow.add _ _ _
  | sub => exact Laws.TableRow.sub _ _ _
  | addu => exact Laws.TableRow.addu _ _ _
  | subu => exact Laws.TableRow.subu _ _ _
  | addi => exact Laws.TableRow.addi _ _ _
  | addiu => exact Laws.TableRow.addiu _ _ _
  | mult => exact Laws.TableRow.mult _ _
  | multu => exact Laws.TableRow.multu _ _
  | div => exact Laws.TableRow.div _ _
  | divu => exact Laws.TableRow.divu _ _
  | or => exact Laws.TableRow.or _ _ _
  | and => exact Laws.TableRow.and _ _ _
  | xor => exact Laws.TableRow.xor _ _ _
  | nor => exact Laws.TableRow.nor _ _ _
  | ori => exact Laws.TableRow.ori _ _ _
  | andi => exact Laws.TableRow.andi _ _ _
  | xori => exact Laws.TableRow.xori _ _ _
  | sllv => exact Laws.TableRow.sllv _ _ _
  | srlv => exact Laws.TableRow.srlv _ _ _
  | srav => exact Laws.TableRow.srav _ _ _
  | sll => exact Laws.TableRow.sll _ _ _
  | srl => exact Laws.TableRow.srl _ _ _
  | sra => exact Laws.TableRow.sra _ _ _
  | slt => exact Laws.TableRow.slt _ _ _
  | sltu => exact Laws.TableRow.sltu _ _ _
  | slti => exact Laws.TableRow.slti _ _ _
  | sltiu => exact Laws.TableRow.sltiu _ _ _
  | syscall => exact Laws.TableRow.syscall
  | brk => exact Laws.TableRow.brk
  | rfe => exact Laws.TableRow.rfe

/-! ### From a row to an instruction -/

/-- Where a mask has ones only, a word that fits has the pattern's bits. -/
theorem extract_eq_of_and {lo len : Nat} (h : w &&& m = p) (hm : m.extractLsb' lo len = BitVec.allOnes len) :
    w.extractLsb' lo len = p.extractLsb' lo len := by
  rw [← h, BitVec.extractLsb'_and, hm, BitVec.and_allOnes]

theorem regField_eq_of_and {lo : Nat} (h : w &&& m = p) (hm : m.extractLsb' lo 5 = BitVec.allOnes 5) :
    regField lo w = regField lo p :=
  congrArg BitVec.toFin (extract_eq_of_and h hm)

/-! One lemma for each mask of the table: the fields that it covers are the pattern's, the others the word's. -/

section
variable {k : BitVec 6} {rt : Reg}

theorem packI_of_fits (h : w &&& 0xFC000000 = p) (hp : p = packI k 0 0 0) :
    packI k (rsField w) (rtField w) (immField w) = w := by
  subst hp
  exact packI_eq ((extract_eq_of_and h (by decide)).trans (packI_op ..)) rfl rfl

theorem packI_of_fits_rt (h : w &&& 0xFC1F0000 = p) (hp : p = packI k 0 rt 0) :
    packI k (rsField w) rt (immField w) = w := by
  subst hp
  exact packI_eq ((extract_eq_of_and h (by decide)).trans (packI_op ..)) rfl
    ((regField_eq_of_and h (by decide)).trans (packI_rt ..))

theorem packI_of_fits_rs (h : w &&& 0xFFE00000 = p) (hp : p = packI k 0 0 0) :
    packI k 0 (rtField w) (immField w) = w := by
  subst hp
  exact packI_eq ((extract_eq_of_and h (by decide)).trans (packI_op ..))
    ((regField_eq_of_and h (by decide)).trans (packI_rs ..)) rfl

theorem packJ_of_fits (h : w &&& 0xFC000000 = p) (hp : p = packJ k 0) : packJ k (addrField w) = w := by
  subst hp
  exact packJ_eq ((extract_eq_of_and h (by decide)).trans (packJ_op ..))

/-- Every mask of format R covers the opcode and the function code. -/
theorem packR_of_fits {rs rt rd : Reg} {shamt : BitVec 5} (h : w &&& m = packR 0 0 0 0 k)
    (hm : opField m = BitVec.allOnes 6 ∧ functField m = BitVec.allOnes 6)
    (hrs : rsField w = rs) (hrt : rtField w = rt) (hrd : rdField w = rd) (hsh : shamtField w = shamt) :
    packR rs rt rd shamt k = w :=
  packR_eq ((extract_eq_of_and h hm.1).trans (packR_op ..)) ((extract_eq_of_and h hm.2).trans (packR_funct ..))
    hrs hrt hrd hsh

theorem packR_of_fits_shamt (h : w &&& 0xFC0007FF = p) (hp : p = packR 0 0 0 0 k) :
    packR (rsField w) (rtField w) (rdField w) 0 k = w := by
  subst hp
  exact packR_of_fits h (by decide) rfl rfl rfl ((extract_eq_of_and h (by decide)).trans (packR_shamt ..))

theorem packR_of_fits_rs (h : w &&& 0xFFE0003F = p) (hp : p = packR 0 0 0 0 k) :
    packR 0 (rtField w) (rdField w) (BitVec.ofNat 5 (shamtField w).toNat) k = w := by
  subst hp
  exact packR_of_fits h (by decide) ((regField_eq_of_and h (by decide)).trans (packR_rs ..)) rfl rfl
    (shamtField_eq_ofNat w)

theorem packR_of_fits_rt_shamt (h : w &&& 0xFC1F07FF = p) (hp : p = packR 0 0 0 0 k) :
    packR (rsField w) 0 (rdField w) 0 k = w := by
  subst hp
  exact packR_of_fits h (by decide) rfl ((regField_eq_of_and h (by decide)).trans (packR_rt ..)) rfl
    ((extract_eq_of_and h (by decide)).trans (packR_shamt ..))

theorem packR_of_fits_rd_shamt (h : w &&& 0xFC00FFFF = p) (hp : p = packR 0 0 0 0 k) :
    packR (rsField w) (rtField w) 0 0 k = w := by
  subst hp
  exact packR_of_fits h (by decide) rfl rfl ((regField_eq_of_and h (by decide)).trans (packR_rd ..))
    ((extract_eq_of_and h (by decide)).trans (packR_shamt ..))

theorem packR_of_fits_rt_rd_shamt (h : w &&& 0xFC1FFFFF = p) (hp : p = packR 0 0 0 0 k) :
    packR (rsField w) 0 0 0 k = w := by
  subst hp
  exact packR_of_fits h (by decide) rfl ((regField_eq_of_and h (by decide)).trans (packR_rt ..))
    ((regField_eq_of_and h (by decide)).trans (packR_rd ..))
    ((extract_eq_of_and h (by decide)).trans (packR_shamt ..))

theorem packR_of_fits_rs_rt_shamt (h : w &&& 0xFFFF07FF = p) (hp : p = packR 0 0 0 0 k) :
    packR 0 0 (rdField w) 0 k = w := by
  subst hp
  exact packR_of_fits h (by decide) ((regField_eq_of_and h (by decide)).trans (packR_rs ..))
    ((regField_eq_of_and h (by decide)).trans (packR_rt ..)) rfl
    ((extract_eq_of_and h (by decide)).trans (packR_shamt ..))

theorem eq_of_fits (h : w &&& 0xFFFFFFFF = p) : p = w :=
  h.symm.trans BitVec.and_allOnes

end

/-- Every word that fits the row is the word of an instruction with the row's mnemonic. -/
def RowInstr (r : OpcodeRow) : Prop :=
  ∀ w : Word, w &&& r.mask = r.pattern → ∃ i : Instr, i.wf = true ∧ encode i = w ∧ i.mnemonic = r.mnemonic

/-! The instruction of a row takes its operands from the fields that the row's mask leaves free. -/

theorem rowInstr_tableSpecial : ∀ r ∈ tableSpecial, RowInstr r := by
  simp only [tableSpecial, List.forall_mem_cons]
  exact ⟨
    fun w h => ⟨.sll (rdField w) (rtField w) (shamtField w).toNat, shamtField_ok w, packR_of_fits_rs h rfl, rfl⟩,
    fun w h => ⟨.srl (rdField w) (rtField w) (shamtField w).toNat, shamtField_ok w, packR_of_fits_rs h rfl, rfl⟩,
    fun w h => ⟨.sra (rdField w) (rtField w) (shamtField w).toNat, shamtField_ok w, packR_of_fits_rs h rfl, rfl⟩,
    fun w h => ⟨.sllv (rdField w) (rtField w) (rsField w), rfl, packR_of_fits_shamt h rfl, rfl⟩,
    fun w h => ⟨.srlv (rdField w) (rtField w) (rsField w), rfl, packR_of_fits_shamt h rfl, rfl⟩,
    fun w h => ⟨.srav (rdField w) (rtField w) (rsField w), rfl, packR_of_fits_shamt h rfl, rfl⟩,
    fun w h => ⟨.jr (rsField w), rfl, packR_of_fits_rt_rd_shamt h rfl, rfl⟩,
    fun w h => ⟨.jalr (rdField w) (rsField w), rfl, packR_of_fits_rt_shamt h rfl, rfl⟩,
    fun w h => ⟨.syscall, rfl, eq_of_fits h, rfl⟩,
    fun w h => ⟨.brk, rfl, eq_of_fits h, rfl⟩,
    fun w h => ⟨.mfhi (rdField w), rfl, packR_of_fits_rs_rt_shamt h rfl, rfl⟩,
    fun w h => ⟨.mflo (rdField w), rfl, packR_of_fits_rs_rt_shamt h rfl, rfl⟩,
    fun w h => ⟨.mthi (rsField w), rfl, packR_of_fits_rt_rd_shamt h rfl, rfl⟩,
    fun w h => ⟨.mtlo (rsField w), rfl, packR_of_fits_rt_rd_shamt h rfl, rfl⟩,
    fun w h => ⟨.mult (rsField w) (rtField w), rfl, packR_of_fits_rd_shamt h rfl, rfl⟩,
    fun w h => ⟨.multu (rsField w) (rtField w), rfl, packR_of_fits_rd_shamt h rfl, rfl⟩,
    fun w h => ⟨.div (rsField w) (rtField w), rfl, packR_of_fits_rd_shamt h rfl, rfl⟩,
    fun w h => ⟨.divu (rsField w) (rtField w), rfl, packR_of_fits_rd_shamt h rfl, rfl⟩,
    fun w h => ⟨.add (rdField w) (rsField w) (rtField w), rfl, packR_of_fits_shamt h rfl, rfl⟩,
    fun w h => ⟨.addu (rdField w) (rsField w) (rtField w), rfl, packR_of_fits_shamt h rfl, rfl⟩,
    fun w h => ⟨.sub (rdField w) (rsField w) (rtField w), rfl, packR_of_fits_shamt h rfl, rfl⟩,
    fun w h => ⟨.subu (rdField w) (rsField w) (rtField w), rfl, packR_of_fits_shamt h rfl, rfl⟩,
    fun w h => ⟨.and (rdField w) (rsField w) (rtField w), rfl, packR_of_fits_shamt h rfl, rfl⟩,
    fun w h => ⟨.or (rdField w) (rsField w) (rtField w), rfl, packR_of_fits_shamt h rfl, rfl⟩,
    fun w h => ⟨.xor (rdField w) (rsField w) (rtField w), rfl, packR_of_fits_shamt h rfl, rfl⟩,
    fun w h => ⟨.nor (rdField w) (rsField w) (rtField w), rfl, packR_of_fits_shamt h rfl, rfl⟩,
    fun w h => ⟨.slt (rdField w) (rsField w) (rtField w), rfl, packR_of_fits_shamt h rfl, rfl⟩,
    fun w h => ⟨.sltu (rdField w) (rsField w) (rtField w), rfl, packR_of_fits_shamt h rfl, rfl⟩,
    List.forall_mem_nil _⟩

theorem rowInstr_tableBranchJump : ∀ r ∈ tableBranchJump, RowInstr r := by
  simp only [tableBranchJump, List.forall_mem_cons]
  exact ⟨
    fun w h => ⟨.bltz (rsField w) (immField w), rfl, packI_of_fits_rt h rfl, rfl⟩,
    fun w h => ⟨.bgez (rsField w) (immField w), rfl, packI_of_fits_rt h rfl, rfl⟩,
    fun w h => ⟨.bltzal (rsField w) (immField w), rfl, packI_of_fits_rt h rfl, rfl⟩,
    fun w h => ⟨.bgezal (rsField w) (immField w), rfl, packI_of_fits_rt h rfl, rfl⟩,
    fun w h => ⟨.j (addrField w), rfl, packJ_of_fits h rfl, rfl⟩,
    fun w h => ⟨.jal (addrField w), rfl, packJ_of_fits h rfl, rfl⟩,
    fun w h => ⟨.beq (rsField w) (rtField w) (immField w), rfl, packI_of_fits h rfl, rfl⟩,
    fun w h => ⟨.bne (rsField w) (rtField w) (immField w), rfl, packI_of_fits h rfl, rfl⟩,
    fun w h => ⟨.blez (rsField w) (immField w), rfl, packI_of_fits_rt h rfl, rfl⟩,
    fun w h => ⟨.bgtz (rsField w) (immField w), rfl, packI_of_fits_rt h rfl, rfl⟩,
    List.forall_mem_nil _⟩

theorem rowInstr_tableRest : ∀ r ∈ tableRest, RowInstr r := by
  simp only [tableRest, List.forall_mem_cons]
  exact ⟨
    fun w h => ⟨.addi (rtField w) (rsField w) (immField w), rfl, packI_of_fits h rfl, rfl⟩,
    fun w h => ⟨.addiu (rtField w) (rsField w) (immField w), rfl, packI_of_fits h rfl, rfl⟩,
    fun w h => ⟨.slti (rtField w) (rsField w) (immField w), rfl, packI_of_fits h rfl, rfl⟩,
    fun w h => ⟨.sltiu (rtField w) (rsField w) (immField w), rfl, packI_of_fits h rfl, rfl⟩,
    fun w h => ⟨.andi (rtField w) (rsField w) (immField w), rfl, packI_of_fits h rfl, rfl⟩,
    fun w h => ⟨.ori (rtField w) (rsField w) (immField w), rfl, packI_of_fits h rfl, rfl⟩,
    fun w h => ⟨.xori (rtField w) (rsField w) (immField w), rfl, packI_of_fits h rfl, rfl⟩,
    fun w h => ⟨.lui (rtField w) (immField w), rfl, packI_of_fits_rs h rfl, rfl⟩,
    fun w h => ⟨.rfe, rfl, eq_of_fits h, rfl⟩,
    fun w h => ⟨.lb (rtField w) (immField w) (rsField w), rfl, packI_of_fits h rfl, rfl⟩,
    fun w h => ⟨.lh (rtField w) (immField w) (rsField w), rfl, packI_of_fits h rfl, rfl⟩,
    fun w h => ⟨.lw (rtField w) (immField w) (rsField w), rfl, packI_of_fits h rfl, rfl⟩,
    fun w h => ⟨.lbu (rtField w) (immField w) (rsField w), rfl, packI_of_fits h rfl, rfl⟩,
    fun w h => ⟨.lhu (rtField w) (immField w) (rsField w), rfl, packI_of_fits h rfl, rfl⟩,
    fun w h => ⟨.sb (rtField w) (immField w) (rsField w), rfl, packI_of_fits h rfl, rfl⟩,
    fun w h => ⟨.sh (rtField w) (immField w) (rsField w), rfl, packI_of_fits h rfl, rfl⟩,
    fun w h => ⟨.sw (rtField w) (immField w) (rsField w), rfl, packI_of_fits h rfl, rfl⟩,
    List.forall_mem_nil _⟩

theorem rowInstr {r : OpcodeRow} (hr : r ∈ opcodeTable) : RowInstr r := by
  obtain (hr | hr) | hr := by simpa only [opcodeTable, List.mem_append] using hr
  · exact rowInstr_tableSpecial r hr
  · exact rowInstr_tableBranchJump r hr
  · exact rowInstr_tableRest r hr

/-! ### The table (R89) -/

/-- The rows are disjoint: two patterns that agree where both masks are one are those of one row. -/
theorem opcodeTable_disjoint : ∀ r ∈ opcodeTable, ∀ q ∈ opcodeTable,
    r.pattern &&& q.mask = q.pattern &&& r.mask → r = q := by decide

/-- A word that fits two rows makes their patterns agree where both masks are one. -/
theorem pattern_and_mask_eq {r q : OpcodeRow} (hr : w &&& r.mask = r.pattern) (hq : w &&& q.mask = q.pattern) :
    r.pattern &&& q.mask = q.pattern &&& r.mask := by
  rw [← hr, ← hq, BitVec.and_assoc, BitVec.and_assoc, BitVec.and_comm r.mask]

/-- A word that decodes fits the row of its instruction. -/
theorem exists_row_of_decode (h : decode w = .instr i) :
    ∃ r ∈ opcodeTable, r.mnemonic = i.mnemonic ∧ w &&& r.mask = r.pattern := by
  obtain ⟨hwf, rfl⟩ := decode_eq_instr_iff.1 h
  obtain ⟨r, hr, hname, hfits⟩ := tableRow i hwf
  exact ⟨r, hr, hname, of_decide_eq_true hfits⟩

/-- A word that fits a row decodes to the row's instruction. -/
theorem exists_decode_of_row {r : OpcodeRow} (hr : r ∈ opcodeTable) (h : w &&& r.mask = r.pattern) :
    ∃ i, decode w = .instr i ∧ i.mnemonic = r.mnemonic := by
  obtain ⟨i, hwf, henc, hname⟩ := rowInstr hr w h
  exact ⟨i, decode_eq_instr_iff.2 ⟨hwf, henc⟩, hname⟩

/-- Settles O3: instructions and rows correspond in both directions, two rows with a common word are one, and a word
that is an instruction has a row. -/
theorem decodeFollowsTable : Obligations.DecodeFollowsTable := by
  intro w
  refine ⟨fun i h => decode_eq_instr_iff.1 h, fun i h => exists_row_of_decode h,
    fun r hr h => exists_decode_of_row hr h,
    fun r hr q hq hwr hwq => opcodeTable_disjoint r hr q hq (pattern_and_mask_eq hwr hwq), fun hnone => ?_⟩
  cases hd : decode w with
  | reserved x => exact ⟨x, rfl⟩
  | instr i =>
    obtain ⟨r, hr, -, hfits⟩ := exists_row_of_decode hd
    exact absurd hfits (hnone r hr)

/-! ### A reserved word (R96) -/

theorem runWord_of_reserved {x : Reject} (h : decode w = .reserved x) : runWord w s = execReserved w s := by
  simp [runWord, h]

/-- A word that is none of the moves of R246 raises in either trap model. -/
theorem execReserved_of_decodeCp0_none (h : decodeCp0 w = none) :
    execReserved w s = raise (.reservedInstruction w) s := by
  simp [execReserved, h]

/-- Settles O4: the step reaches the word fetched, and the word raises. -/
theorem reservedWordRaises : Obligations.ReservedWordRaises := by
  rintro _ s x hr hi hf rfl hd hcase
  have hraise : execReserved s.fetched s = raise (.reservedInstruction s.fetched) s :=
    hcase.elim (execReserved_fault · _) execReserved_of_decodeCp0_none
  exact raises_of_eq <| calc
    step s = runWord s.fetched s := step_of_fetchExc_none hr hi hf
    _ = execReserved s.fetched s := runWord_of_reserved hd
    _ = raise (.reservedInstruction s.fetched) s := hraise

end Sys2Proof.Machine
end

section
/-! # The fields of labels

What the assembler puts in a branch or a jump to a label (spec/30_encoding.md R92, R93). Two words are joined by the
branch whose displacement is their distance, read as a signed number; a jump keeps four bits of its own address. -/

namespace Sys2Proof.Machine

variable {p l : Word}

/-! ### Branches (R92) -/

theorem toInt_sext_shift (imm : Half) : (sext imm <<< 2).toInt = 4 * imm.toInt := by
  have hlo := imm.le_toInt
  have hhi := imm.toInt_lt
  have hsext : (sext imm).toInt = imm.toInt := BitVec.toInt_signExtend_of_le (by decide)
  have hfour : (BitVec.twoPow 32 2).toInt = 4 := rfl
  rw [BitVec.shiftLeft_eq_mul_twoPow, BitVec.toInt_mul, hsext, hfour, Int.bmod_eq_of_le (by omega) (by omega),
    Int.mul_comm]

/-- A branch at `p` reaches `l` iff four times its field is the distance from the next instruction. -/
theorem branchTarget_eq_iff {imm : Half} : branchTarget p imm = l ↔ 4 * imm.toInt = (l - nextPc p).toInt := by
  rw [← toInt_sext_shift, BitVec.toInt_inj, branchTarget, BitVec.eq_sub_iff_add_eq, BitVec.add_comm]

theorem branchField_eq_some_iff {imm : Half} : branchField p l = some imm ↔ 4 * imm.toInt = (l - nextPc p).toInt := by
  unfold branchField
  generalize (l - nextPc p).toInt = d
  have hlo := imm.le_toInt
  have hhi := imm.toInt_lt
  simp only [Option.ite_none_right_eq_some, Option.some_inj]
  constructor
  · rintro ⟨⟨hmul, hmin, hmax⟩, rfl⟩
    have hfits : (BitVec.ofInt 16 (d / 4)).toInt = d / 4 := by
      rw [BitVec.toInt_ofInt, Int.bmod_eq_of_le (by omega) (by omega)]
    omega
  · intro h
    have hdiv : d / 4 = imm.toInt := by omega
    refine ⟨by omega, ?_⟩
    rw [hdiv, BitVec.ofInt_toInt]

theorem branchField_isSome_iff : (branchField p l).isSome = true ↔
    (l - nextPc p).toInt % 4 = 0 ∧ -2 ^ 17 ≤ (l - nextPc p).toInt ∧ (l - nextPc p).toInt ≤ 2 ^ 17 - 4 := by
  simp [branchField]

/-! ### Jumps (R93) -/

theorem jumpField_isSome_iff : (jumpField p l).isSome = true ↔
    l.extractLsb' 0 2 = 0#2 ∧ l.extractLsb' 28 4 = (nextPc p).extractLsb' 28 4 := by
  simp [jumpField]

theorem jumpTarget_toNat (p : Word) (a : BitVec 26) :
    (jumpTarget p a).toNat = ((nextPc p).extractLsb' 28 4).toNat * 2 ^ 28 + a.toNat * 2 ^ 2 := by
  simp only [jumpTarget, toNat_append_eq, BitVec.reduceToNat]
  omega

theorem jumpTarget_low (p : Word) (a : BitVec 26) : (jumpTarget p a).extractLsb' 0 2 = 0#2 := by
  apply BitVec.eq_of_toNat_eq
  rw [toNat_extract_eq, jumpTarget_toNat, BitVec.toNat_zero]
  omega

theorem jumpTarget_region (p : Word) (a : BitVec 26) :
    (jumpTarget p a).extractLsb' 28 4 = (nextPc p).extractLsb' 28 4 := by
  have hregion := ((nextPc p).extractLsb' 28 4).isLt
  have ha := a.isLt
  apply BitVec.eq_of_toNat_eq
  rw [toNat_extract_eq, jumpTarget_toNat]
  omega

theorem jumpTarget_field (p : Word) (a : BitVec 26) : (jumpTarget p a).extractLsb' 2 26 = a := by
  have ha := a.isLt
  apply BitVec.eq_of_toNat_eq
  rw [toNat_extract_eq, jumpTarget_toNat]
  omega

/-- A target in the region of `p + 4` is given by its own bits 27:2. -/
theorem jumpTarget_of_region (hlow : l.extractLsb' 0 2 = 0#2)
    (hregion : l.extractLsb' 28 4 = (nextPc p).extractLsb' 28 4) : jumpTarget p (l.extractLsb' 2 26) = l := by
  have hmul : l.toNat / 2 ^ 0 % 2 ^ 2 = 0 := by rw [← toNat_extract_eq, hlow]; rfl
  apply BitVec.eq_of_toNat_eq
  rw [jumpTarget_toNat, ← hregion, toNat_extract_eq, toNat_extract_eq]
  omega

theorem jumpField_eq_some_iff {a : BitVec 26} : jumpField p l = some a ↔ jumpTarget p a = l := by
  simp only [jumpField, Option.ite_none_right_eq_some, Option.some_inj]
  constructor
  · rintro ⟨⟨hlow, hregion⟩, rfl⟩
    exact jumpTarget_of_region hlow hregion
  · rintro rfl
    exact ⟨⟨jumpTarget_low p a, jumpTarget_region p a⟩, jumpTarget_field p a⟩

/-- Settles O58: where a field exists it is the definition's own condition, and which field it is follows from the
target it gives. -/
theorem labelFields : Obligations.LabelFields :=
  ⟨fun _ _ => branchField_isSome_iff, fun _ _ _ => branchField_eq_some_iff.trans branchTarget_eq_iff.symm,
    fun _ _ => jumpField_isSome_iff, fun _ _ _ => jumpField_eq_some_iff⟩

end Sys2Proof.Machine
end

section
/-! # Transfer: moves of `HI` and `LO`, loads and stores

Proofs of the statements of spec/40_transfer.md. What a load and what a store do is said once, for any width and any
condition under which the address is bad (`loadRule_of_load`, `storeRule_of_store`); an instruction's own statement adds
which number it reads or which bytes it writes. Those statements are in the byte order in force, so that they hold in
every mode. -/

namespace Sys2Proof.Machine

variable {s : State} {i : Instr}

/-! ### `HI` and `LO` (R121 to R124) -/

/-- An instruction that finishes `HI` and `LO` changes nothing else but `pc`. -/
theorem hiLoResult_of_finishHiLo {h l : Word} {P : Word → Word → Prop} (hexec : exec i s = finishHiLo h l s)
    (hP : P h l) : HiLoResult i P s :=
  ⟨((s.setHi h).setLo l).advance, hexec, hP, rfl, fun _ => rfl, fun _ => rfl,
    ⟨⟨rfl, rfl, rfl, rfl, rfl⟩, rfl, rfl, rfl, rfl⟩⟩

/-- Settles O36: a move from `HI` or `LO` finishes its register; a move to one of them rewrites the other as it is. -/
theorem hiLoMoves : Obligations.HiLoMoves := fun r s =>
  ⟨decode_encode (i := .mfhi r) rfl, regResult_of_finish rfl,
    decode_encode (i := .mflo r) rfl, regResult_of_finish rfl,
    decode_encode (i := .mthi r) rfl, hiLoResult_of_finishHiLo (h := s.reg r) (l := s.lo) rfl ⟨rfl, rfl⟩,
    decode_encode (i := .mtlo r) rfl, hiLoResult_of_finishHiLo (h := s.hi) (l := s.reg r) rfl ⟨rfl, rfl⟩⟩

/-! ### The example words of the rules -/

/-- Settles O1: each word is the encoding of its instruction. -/
theorem exampleWordsDecode : Obligations.ExampleWordsDecode := by
  unfold Obligations.ExampleWordsDecode
  and_intros <;> exact decode_eq_instr_iff.2 (by decide)

/-! ### Addresses that are bad for an access (R55)

The statements name a condition of their own; `hbad` ties it to what the checks look at. -/

/-- The address of an access of `n` bytes is not aligned, or out of reach. -/
def State.BadAddress (s : State) (a : Word) (n : Nat) : Prop := a.toNat % n ≠ 0 ∨ s.kernelOnly a = true

section
variable {a : Word} {n : Nat} {bad : Prop}

theorem aligned_and_reachable_of_not_bad (hbad : bad ↔ s.BadAddress a n) (h : ¬bad) :
    a.toNat % n = 0 ∧ s.kernelOnly a = false := by
  simpa [hbad, State.BadAddress] using h

/-- Where addresses are not guarded, a bad address is one that is not aligned. -/
theorem misaligned_iff_of_not_guarded (hg : s.guarded = false) :
    a.toNat % n ≠ 0 ↔ s.BadAddress a n := by
  simp [State.BadAddress, kernelOnly_of_not_guarded hg]

/-- Where addresses are not guarded, no address is bad for a byte. -/
theorem false_iff_of_not_guarded (hg : s.guarded = false) : False ↔ s.BadAddress a 1 := by
  simp [State.BadAddress, kernelOnly_of_not_guarded hg, Nat.mod_one]

/-! ### What a load and a store raise (R55, R56, R63) -/

theorem loadExc_addressError (h : s.BadAddress a n) :
    s.loadExc a n = some (.addressErrorLoad a) :=
  if_pos (by simpa [aligned, State.BadAddress, imp_iff_not_or] using h)

theorem loadExc_busError (ha : a.toNat % n = 0) (hk : s.kernelOnly a = false) (hm : MissesByte s.allocated a n) :
    s.loadExc a n = some (.busErrorLoad a) := by
  simp [State.loadExc, aligned, ha, hk, missesByte_iff.1 hm]

theorem storeExc_addressError (h : s.BadAddress a n) :
    s.storeExc a n = some (.addressErrorStore a) :=
  if_pos (by simpa [aligned, State.BadAddress, imp_iff_not_or] using h)

theorem storeExc_busError (ha : a.toNat % n = 0) (hk : s.kernelOnly a = false) (hm : MissesByte s.allocated a n) :
    s.storeExc a n = some (.busErrorStore a) := by
  simp [State.storeExc, aligned, ha, hk, missesByte_iff.1 hm]

theorem storeExc_storeToText (ha : a.toNat % n = 0) (hk : s.kernelOnly a = false) (hall : AllBytes s.allocated a n)
    (hs : s.params.smc = .refuse) (ht : ¬AllBytes (fun x => !s.inText x) a n) :
    s.storeExc a n = some (.storeToText a) := by
  have hsome : (firstInRun s.inText a n).isSome = true := by
    rwa [Option.isSome_iff_ne_none, ne_eq, firstInRun_none_iff_allBytes]
  simp [State.storeExc, aligned, ha, hk, allBytes_iff.1 hall, hs, hsome]

theorem load_of_loadExc_some {e : Exc} (hx : s.loadExc a n = some e) (r : Reg) (widen : Nat → Word) :
    load r a n widen s = raise e s := by
  simp [load, hx]

theorem store_of_storeExc_some {e : Exc} (hx : s.storeExc a n = some e) (v : Word) : store a n v s = raise e s := by
  simp [store, hx]

/-! ### Loads (R59) -/

/-- A load's exceptions are what its checks answer; one that passes them finishes with the number read. -/
theorem loadRule_of_load {rt : Reg} {v : Word} {widen : Nat → Word} (hexec : exec i s = load rt a n widen s)
    (hv : widen (s.readNum a n) = v) (hbad : bad ↔ s.BadAddress a n) :
    LoadRule i rt a n v bad s := by
  refine ⟨fun h => ?_, fun h hm => ?_, fun h hall => ?_⟩
  · exact raises_of_eq (hexec.trans (load_of_loadExc_some (loadExc_addressError (hbad.1 h)) rt widen))
  · obtain ⟨ha, hk⟩ := aligned_and_reachable_of_not_bad hbad h
    exact raises_of_eq (hexec.trans (load_of_loadExc_some (loadExc_busError ha hk hm) rt widen))
  · obtain ⟨ha, hk⟩ := aligned_and_reachable_of_not_bad hbad h
    refine regResult_of_finish ?_
    rw [hexec, load_of_loadExc_none (loadExc_none_of_allBytes ha hk hall), hv]

end

/-- The two bytes read are the halfword in memory's byte order (R53). -/
theorem ofNat_readNum_two (s : State) (a : Word) : BitVec.ofNat 16 (s.readNum a 2) = halfAt s.order s a := by
  have hbytes : s.bytesAt a 2 = [s.byteAt a, s.byteAt (up a 1)] := rfl
  have hlt : s.readNum a 2 < 2 ^ 16 := readNum_lt s a 2
  apply BitVec.eq_of_toNat_eq
  rw [BitVec.toNat_ofNat, Nat.mod_eq_of_lt hlt, State.readNum, hbytes]
  cases s.order with
  | little | big =>
    simp only [valueOf, halfAt, toNat_append_eq, List.reverse_cons, List.reverse_nil, List.nil_append, List.cons_append,
      littleValue]
    omega

/-- One byte read is that byte, in either byte order. -/
theorem ofNat_readNum_one (s : State) (a : Word) : BitVec.ofNat 8 (s.readNum a 1) = s.byteAt a := by
  have hvalue : s.readNum a 1 = (s.byteAt a).toNat := by
    rw [State.readNum]
    cases s.order with
    | little | big => rfl
  rw [hvalue, BitVec.ofNat_toNat, BitVec.setWidth_eq]

theorem zext_byte (b : Byte) : zext b = 0#24 ++ b := by
  apply BitVec.eq_of_toNat_eq
  rw [toNat_append_eq]
  have := b.isLt
  simp [zext]
  omega

section
variable {rt rs : Reg} {imm : Half} {bad : Prop}

theorem loadRule_lw (hbad : bad ↔ s.BadAddress (effAddr (s.reg rs) imm) 4) :
    LoadRule (.lw rt imm rs) rt (effAddr (s.reg rs) imm) 4 (wordAt s.order s (effAddr (s.reg rs) imm)) bad s :=
  loadRule_of_load rfl (ofNat_readNum_four s _) hbad

theorem loadRule_lh (hbad : bad ↔ s.BadAddress (effAddr (s.reg rs) imm) 2) :
    LoadRule (.lh rt imm rs) rt (effAddr (s.reg rs) imm) 2 ((halfAt s.order s (effAddr (s.reg rs) imm)).signExtend 32)
      bad s :=
  loadRule_of_load (widen := fun v => sext (BitVec.ofNat 16 v)) rfl (by rw [ofNat_readNum_two, sext]) hbad

theorem loadRule_lhu (hbad : bad ↔ s.BadAddress (effAddr (s.reg rs) imm) 2) :
    LoadRule (.lhu rt imm rs) rt (effAddr (s.reg rs) imm) 2 (0#16 ++ halfAt s.order s (effAddr (s.reg rs) imm)) bad s :=
  loadRule_of_load (widen := fun v => zext (BitVec.ofNat 16 v)) rfl (by rw [ofNat_readNum_two, zext_half]) hbad

theorem loadRule_lb (hbad : bad ↔ s.BadAddress (effAddr (s.reg rs) imm) 1) :
    LoadRule (.lb rt imm rs) rt (effAddr (s.reg rs) imm) 1 ((s.byteAt (effAddr (s.reg rs) imm)).signExtend 32) bad s :=
  loadRule_of_load (widen := fun v => sext (BitVec.ofNat 8 v)) rfl (by rw [ofNat_readNum_one, sext]) hbad

theorem loadRule_lbu (hbad : bad ↔ s.BadAddress (effAddr (s.reg rs) imm) 1) :
    LoadRule (.lbu rt imm rs) rt (effAddr (s.reg rs) imm) 1 (0#24 ++ s.byteAt (effAddr (s.reg rs) imm)) bad s :=
  loadRule_of_load (widen := fun v => zext (BitVec.ofNat 8 v)) rfl (by rw [ofNat_readNum_one, zext_byte]) hbad

end

/-- Settles O42: the word decodes as the encoder's, and the load's rule is that of `lw` in the order `ENDIAN`. -/
theorem loadWord : Obligations.LoadWord := by
  intro rt rs imm s hg hrev a
  rw [← order_of_not_reversed hrev]
  exact ⟨decode_encode (i := .lw rt imm rs) rfl, loadRule_lw (misaligned_iff_of_not_guarded hg)⟩

/-- Settles O43, as O42 for each of the four loads. -/
theorem loadHalfAndByte : Obligations.LoadHalfAndByte := by
  intro rt rs imm s hg hrev a
  rw [← order_of_not_reversed hrev]
  exact ⟨decode_encode (i := .lh rt imm rs) rfl, loadRule_lh (misaligned_iff_of_not_guarded hg),
    decode_encode (i := .lhu rt imm rs) rfl, loadRule_lhu (misaligned_iff_of_not_guarded hg),
    decode_encode (i := .lb rt imm rs) rfl, loadRule_lb (false_iff_of_not_guarded hg),
    decode_encode (i := .lbu rt imm rs) rfl, loadRule_lbu (false_iff_of_not_guarded hg)⟩

/-! ### Which bytes a store writes (R53, R59) -/

theorem littleBytes_getElem? {n k : Nat} (v : Nat) (hk : k < n) :
    (littleBytes n v)[k]? = some (BitVec.ofNat 8 (v / 256 ^ k)) := by
  induction n generalizing v k with
  | zero => omega
  | succ n ih =>
    cases k with
    | zero => simp [littleBytes]
    | succ k => rw [littleBytes, List.getElem?_cons_succ, ih _ (by omega), Nat.div_div_eq_div_mul, pow_succ']

theorem ofNat_div_eq_extract (v : Word) (k : Nat) : BitVec.ofNat 8 (v.toNat / 256 ^ k) = v.extractLsb' (8 * k) 8 := by
  apply BitVec.eq_of_toNat_eq
  rw [toNat_extract_eq, BitVec.toNat_ofNat, pow_mul]
  norm_num

/-- The bytes of a number at rising addresses are the statements' stored bytes. -/
theorem bytesOf_getElem? (e : Endian) {n k : Nat} (v : Word) (hk : k < n) :
    (bytesOf e n v.toNat)[k]? = some (storedByte e n v k) := by
  cases e with
  | little => rw [bytesOf, littleBytes_getElem? _ hk, ofNat_div_eq_extract, storedByte]
  | big =>
    rw [bytesOf, List.getElem?_reverse (by simpa using hk), littleBytes_length, littleBytes_getElem? _ (by omega),
      ofNat_div_eq_extract, storedByte]

theorem writeNum_byteAt_up (s : State) (a v : Word) {n k : Nat} (hk : k < n) (hn : n ≤ 2 ^ 32) :
    (s.writeNum a n v.toNat).byteAt (up a k) = storedByte s.order n v k := by
  have hback := setBytes_bytesAt s a (bytesOf s.order n v.toNat) (by simpa using hn)
  rw [bytesOf_length] at hback
  have hbyte := bytesAt_getElem? (s := s.writeNum a n v.toNat) (a := a) hk
  rw [State.writeNum, hback, bytesOf_getElem? _ _ hk] at hbyte
  exact (Option.some.inj hbyte).symm

theorem inRun_of_forall_ne_up {a x : Word} {n : Nat} (h : ∀ k, k < n → x ≠ up a k) : inRun a n x = false :=
  inRun_of_firstInRun_none (p := (· == x))
    ((firstInRun_none_iff _ a n).2 fun k hk => beq_false_of_ne (h k hk).symm) (beq_self_eq_true x)

/-! ### Stores (R59) -/

/-- A store whose checks pass writes its own bytes, and nothing else changes but `pc`. -/
theorem storeResult_of_store {a v : Word} {n : Nat} (hexec : exec i s = store a n v s) (hn : n ≤ 2 ^ 32)
    (hx : s.storeExc a n = none) : StoreResult s.order i a n v s := by
  refine ⟨_, hexec.trans (store_of_storeExc_none hx v), fun k hk => ?_, fun x hout => ?_, ?_, fun q => ?_, ?_, ?_⟩
  · rw [advance_byteAt, writeNum_byteAt_up s a v hk hn]
  · rw [advance_byteAt, writeNum_byteAt_out s a x n _ hn (inRun_of_forall_ne_up hout)]
  · rw [advance_pc, writeNum_pc, nextPc]
  · rw [advance_reg, writeNum_reg]
  · constructor <;> simp
  · exact ⟨by constructor <;> simp, by simp, by simp, by simp, by simp⟩

/-- A store's exceptions are what its checks answer, in their order; one that passes them writes its bytes. -/
theorem storeRule_of_store {a v : Word} {n : Nat} {bad : Prop} (hexec : exec i s = store a n v s) (hn : n ≤ 2 ^ 32)
    (hbad : bad ↔ s.BadAddress a n) : StoreRule s.order i a n v bad s := by
  refine ⟨fun h => ?_, fun h hm => ?_, fun h hall hs ht => ?_, fun h hall hs => ?_⟩
  · exact raises_of_eq (hexec.trans (store_of_storeExc_some (storeExc_addressError (hbad.1 h)) v))
  all_goals obtain ⟨ha, hk⟩ := aligned_and_reachable_of_not_bad hbad h
  · exact raises_of_eq (hexec.trans (store_of_storeExc_some (storeExc_busError ha hk hm) v))
  · exact raises_of_eq (hexec.trans (store_of_storeExc_some (storeExc_storeToText ha hk hall hs ht) v))
  · exact storeResult_of_store hexec hn (storeExc_none_of_allBytes ha hk hall hs)

section
variable {rt rs : Reg} {imm : Half} {bad : Prop}

theorem storeRule_sw (hbad : bad ↔ s.BadAddress (effAddr (s.reg rs) imm) 4) :
    StoreRule s.order (.sw rt imm rs) (effAddr (s.reg rs) imm) 4 (s.reg rt) bad s :=
  storeRule_of_store rfl (by decide) hbad

theorem storeRule_sh (hbad : bad ↔ s.BadAddress (effAddr (s.reg rs) imm) 2) :
    StoreRule s.order (.sh rt imm rs) (effAddr (s.reg rs) imm) 2 (s.reg rt) bad s :=
  storeRule_of_store rfl (by decide) hbad

theorem storeRule_sb (hbad : bad ↔ s.BadAddress (effAddr (s.reg rs) imm) 1) :
    StoreRule s.order (.sb rt imm rs) (effAddr (s.reg rs) imm) 1 (s.reg rt) bad s :=
  storeRule_of_store rfl (by decide) hbad

end

/-- Settles O44: the word decodes as the encoder's, and the store's rule is that of `sw` in the order `ENDIAN`. -/
theorem storeWord : Obligations.StoreWord := by
  intro rt rs imm s hg hrev a
  rw [← order_of_not_reversed hrev]
  exact ⟨decode_encode (i := .sw rt imm rs) rfl, storeRule_sw (misaligned_iff_of_not_guarded hg)⟩

/-- Settles O45, as O44 for the halfword and the byte. -/
theorem storeHalfAndByte : Obligations.StoreHalfAndByte := by
  intro rt rs imm s hg hrev a
  rw [← order_of_not_reversed hrev]
  exact ⟨decode_encode (i := .sh rt imm rs) rfl, storeRule_sh (misaligned_iff_of_not_guarded hg),
    decode_encode (i := .sb rt imm rs) rfl, storeRule_sb (false_iff_of_not_guarded hg)⟩

end Sys2Proof.Machine
end

section
/-! # Branches and jumps

Proofs of the statements of spec/41_branch_jump.md. Each of these instructions writes `pc`, or `pc` and the link, and
nothing else; that is said once for any target (`goesTo_of_setPc`, `linksTo_of_setPc`). An instruction's own statement
adds its target and its condition. Targets are then multiples of 4 by what a next state can be (`ExecNext`). -/

namespace Sys2Proof.Machine

variable {s t : State} {i : Instr}

/-! ### Writing `pc`, and writing the link with it (R141, R157) -/

theorem writesReg_setPc (r : Reg) (v p : Word) (s : State) : WritesReg r v s ((s.setReg r v).setPc p) where
  dest := by by_cases hr : r = 0 <;> simp [hr]
  others := fun q hq => by simp [hq]
  hilo := ⟨rfl, rfl⟩
  mem := fun _ => rfl
  rest := ⟨⟨rfl, rfl, rfl, rfl, rfl⟩, rfl, rfl, rfl, rfl⟩

theorem goesTo_of_setPc {p : Word} (hexec : exec i s = .next (s.setPc p)) : GoesTo i p s :=
  ⟨s.setPc p, hexec, rfl, fun _ => rfl, ⟨rfl, rfl⟩, fun _ => rfl, ⟨⟨rfl, rfl, rfl, rfl, rfl⟩, rfl, rfl, rfl, rfl⟩⟩

theorem linksTo_of_setPc {r : Reg} {p : Word} (hexec : exec i s = .next ((s.setReg r (nextPc s.pc)).setPc p)) :
    LinksTo i r p s :=
  ⟨_, hexec, rfl, writesReg_setPc r (nextPc s.pc) p s⟩

/-! ### Branches: the condition that the model computes is the rule's (R142 to R149) -/

section
variable {c : Bool} {imm : Half} {P : Prop} [Decidable P]

theorem goesTo_of_branch (hexec : exec i s = branch c imm s) (hc : c = true ↔ P) :
    GoesTo i (if P then branchTarget s.pc imm else nextPc s.pc) s := by
  refine goesTo_of_setPc (hexec.trans ?_)
  simp only [branch_eq, hc]

theorem linksTo_of_branchLink (hexec : exec i s = branchLink c imm s) (hc : c = true ↔ P) :
    LinksTo i 31 (if P then branchTarget s.pc imm else nextPc s.pc) s := by
  refine linksTo_of_setPc (hexec.trans ?_)
  simp only [branchLink_eq, hc]

end

/-- `bne` goes on where the registers are equal (R143). -/
theorem goesTo_bne (rs rt : Reg) (imm : Half) (s : State) :
    GoesTo (.bne rs rt imm) (if s.reg rs = s.reg rt then nextPc s.pc else branchTarget s.pc imm) s := by
  rw [← ite_not]
  exact goesTo_of_branch rfl bne_iff_ne

/-- Settles O49: each instruction is a branch on its rule's condition. -/
theorem branches : Obligations.Branches := fun rs rt imm s =>
  ⟨decode_encode (i := .beq rs rt imm) rfl, goesTo_of_branch rfl beq_iff_eq,
    decode_encode (i := .bne rs rt imm) rfl, goesTo_bne rs rt imm s,
    decode_encode (i := .bgez rs imm) rfl, goesTo_of_branch rfl (geZero_iff _),
    decode_encode (i := .bgtz rs imm) rfl, goesTo_of_branch rfl (gtZero_iff _),
    decode_encode (i := .blez rs imm) rfl, goesTo_of_branch rfl (leZero_iff _),
    decode_encode (i := .bltz rs imm) rfl, goesTo_of_branch rfl (ltZero_iff _)⟩

/-- Settles O50: the condition is one on the state before the link is written. -/
theorem linkingBranches : Obligations.LinkingBranches := fun rs imm _ =>
  ⟨decode_encode (i := .bgezal rs imm) rfl, linksTo_of_branchLink rfl (geZero_iff _),
    decode_encode (i := .bltzal rs imm) rfl, linksTo_of_branchLink rfl (ltZero_iff _)⟩

/-! ### Jumps (R150 to R154) -/

/-- Settles O51: the target is `jumpTarget`. -/
theorem jumpsToField : Obligations.JumpsToField := fun addr26 _ =>
  ⟨decode_encode (i := .j addr26) rfl, goesTo_of_setPc rfl,
    decode_encode (i := .jal addr26) rfl, linksTo_of_setPc rfl⟩

theorem goesTo_jr (rs : Reg) (s : State) : GoesTo (.jr rs) (s.reg rs) s := goesTo_of_setPc rfl

/-- The target is the register's value before the link is written, `rd = rs` included (R153, R157). -/
theorem linksTo_jalr (rd rs : Reg) (s : State) : LinksTo (.jalr rd rs) rd (s.reg rs) s := linksTo_of_setPc rfl

/-- Settles O52; the one-operand `jalr` is the case `rd = 31` (R154). -/
theorem jumpsToRegister : Obligations.JumpsToRegister := fun rd rs s =>
  ⟨decode_encode (i := .jr rs) rfl, goesTo_jr rs s,
    decode_encode (i := .jalr rd rs) rfl, linksTo_jalr rd rs s,
    decode_encode (i := .jalr 31 rs) rfl, linksTo_jalr 31 rs s⟩

/-! ### Targets are multiples of 4 (R156) -/

theorem nextPc_mod_four {p : Word} (hp : p.toNat % 4 = 0) : (nextPc p).toNat % 4 = 0 := by
  simp only [nextPc, BitVec.toNat_add, BitVec.reduceToNat]
  omega

theorem branchTarget_mod_four {p : Word} (hp : p.toNat % 4 = 0) (imm : Half) : (branchTarget p imm).toNat % 4 = 0 := by
  have hnext := nextPc_mod_four hp
  simp only [branchTarget, BitVec.toNat_add, BitVec.toNat_shiftLeft, Nat.shiftLeft_eq]
  omega

theorem jumpTarget_mod_four (p : Word) (a : BitVec 26) : (jumpTarget p a).toNat % 4 = 0 := by
  rw [jumpTarget_toNat]
  omega

theorem trapVector_mod_four (s : State) : s.trapVector.toNat % 4 = 0 := by
  unfold State.trapVector
  split <;> rfl

/-- Only `jr` and `jalr` can leave the multiples of 4. -/
theorem PcTarget.mod_four {p : Word} (h : PcTarget i s p) (hpc : s.pc.toNat % 4 = 0) (hjr : ∀ rs, i ≠ .jr rs)
    (hjalr : ∀ rd rs, i ≠ .jalr rd rs) : p.toNat % 4 = 0 := by
  cases h with
  | next => exact nextPc_mod_four hpc
  | branch imm => exact branchTarget_mod_four hpc imm
  | jump a => exact jumpTarget_mod_four s.pc a
  | jr rs hi => exact absurd hi (hjr rs)
  | jalr rd rs hi => exact absurd hi (hjalr rd rs)

/-- A service goes on to the next instruction, or ends the run where it stands (R211 to R216). -/
theorem ServeNext.pc_or (h : ServeNext s t) : t.pc = nextPc s.pc ∨ t.pc = s.pc := by
  cases h with
  | printInt | printString => exact .inl rfl
  | readInt => exact .inl (congrArg nextPc answered_pc)
  | readString => exact .inl (congrArg nextPc (by simp))
  | exit => exact .inr rfl

theorem ExecNext.pc_mod_four (h : ExecNext i s t) (hpc : s.pc.toNat % 4 = 0) (hjr : ∀ rs, i ≠ .jr rs)
    (hjalr : ∀ rd rs, i ≠ .jalr rd rs) : t.pc.toNat % 4 = 0 := by
  cases h with
  | trap => exact trapVector_mod_four s
  | reg _ _ p hp => exact hp.mod_four hpc hjr hjalr
  | hilo | rfe => exact nextPc_mod_four hpc
  | store a n v => simpa using nextPc_mod_four hpc
  | service _ _ hm hserve =>
    obtain hnext | hsame := (serve_next hm hserve).pc_or
    · rw [hnext]; exact nextPc_mod_four hpc
    · rw [hsame]; exact hpc

/-- The fetch at an address that is not a multiple of 4 raises, in every mode and whatever is stored there (R58). -/
theorem step_raises_of_pc_misaligned (hr : s.status = .running) (hi : s.interruptDue = false)
    (hpc : s.pc.toNat % 4 ≠ 0) : Raises (step s) (.addressErrorFetch s.pc) s :=
  step_raises_of_fetchExc hr hi (fetchExc_addressError (.inl (by simp [aligned, hpc])))

/-- Settles O20: the first half by what a next state can be; `jr` and `jalr` leave everything but `pc` and the link, so
the step that follows still reaches its fetch. -/
theorem targetAlignment : Obligations.TargetAlignment := by
  refine fun s => ⟨fun hpc i t hexec hjr hjalr => (exec_next hexec).pc_mod_four hpc hjr hjalr, ?_⟩
  intro rd rs hmis hr hi
  constructor
  · have hraises := step_raises_of_pc_misaligned (s := s.setPc (s.reg rs)) hr hi hmis
    exact ⟨_, rfl, hraises⟩
  · have hraises := step_raises_of_pc_misaligned (s := (s.setReg rd (nextPc s.pc)).setPc (s.reg rs)) hr hi hmis
    exact ⟨_, rfl, writesReg_setPc rd (nextPc s.pc) (s.reg rs) s, hraises⟩

end Sys2Proof.Machine
end

section
/-! # Arithmetic

Proofs of the statements of spec/42_arithmetic.md. The model computes with integers and numbers; here its results are
first named as operations on words (`exec_div`, `exec_divu`, `hiLoResult_of_finishProduct`), and what these operations
mean on integers is the library's. The laws and the table of division (R171, R172) then need the words only. -/

namespace Sys2Proof.Machine

variable {s t : State} {i : Instr}

/-! ### Sums and differences modulo 2^32 (R125, R163, R164, R166) -/

/-- Settles O29: each instruction finishes its register. -/
theorem adduSubu : Obligations.AdduSubu := fun rd rs rt _ =>
  ⟨decode_encode (i := .addu rd rs rt) rfl, regResult_of_finish rfl,
    decode_encode (i := .subu rd rs rt) rfl, regResult_of_finish rfl⟩

/-- Settles O30, as O29; the immediates are those of Operands.lean. -/
theorem addiuLui : Obligations.AddiuLui := fun rt rs imm _ =>
  ⟨decode_encode (i := .addiu rt rs imm) rfl, regResult_of_finish rfl,
    decode_encode (i := .lui rt imm) rfl, regResult_of_finish rfl⟩

/-! ### Signed overflow (R160 to R162, R165) -/

section
variable {c : Bool} {r : Reg} {v : Word} {P : Prop}

theorem raises_of_finishUnless (hexec : exec i s = finishUnless c r v s) (hc : c = true ↔ P) (h : P) :
    Raises (exec i s) .overflow s :=
  raises_of_eq (hexec.trans (if_pos (hc.2 h)))

theorem regResult_of_finishUnless (hexec : exec i s = finishUnless c r v s) (hc : c = true ↔ P) (h : ¬P) :
    RegResult i r v s :=
  regResult_of_finish (hexec.trans (if_neg fun ht => h (hc.1 ht)))

end

/-- The rule's condition on the signs of a sum says that the exact sum is out of range (R160). -/
theorem add_out_of_range_iff (a b : Word) :
    a.toInt + b.toInt < -2 ^ 31 ∨ 2 ^ 31 ≤ a.toInt + b.toInt ↔ a.msb = b.msb ∧ (a + b).msb ≠ a.msb := by
  have h := BitVec.saddOverflow_eq a b
  rw [BitVec.saddOverflow, Bool.eq_iff_iff] at h
  simpa [or_comm] using h

/-- The same for a difference. -/
theorem sub_out_of_range_iff (a b : Word) :
    a.toInt - b.toInt < -2 ^ 31 ∨ 2 ^ 31 ≤ a.toInt - b.toInt ↔ a.msb ≠ b.msb ∧ (a - b).msb ≠ a.msb := by
  have hsigns (x y z : Bool) : (!x && y && z || x && !y && !z) = (x != y && z != x) := by decide +revert
  have h := BitVec.ssubOverflow_eq a b
  rw [BitVec.ssubOverflow, hsigns, Bool.eq_iff_iff] at h
  simpa [or_comm] using h

/-- Settles O31: `addi` is `add` with the widened immediate as its second operand. -/
theorem addSubAddi : Obligations.AddSubAddi := by
  intro rd rs rt imm s out a b c
  exact ⟨decode_encode (i := .add rd rs rt) rfl, decode_encode (i := .sub rd rs rt) rfl,
    decode_encode (i := .addi rt rs imm) rfl,
    raises_of_finishUnless rfl (addOverflows_iff a b), regResult_of_finishUnless rfl (addOverflows_iff a b),
    raises_of_finishUnless rfl (subOverflows_iff a b), regResult_of_finishUnless rfl (subOverflows_iff a b),
    raises_of_finishUnless rfl (addOverflows_iff a c), regResult_of_finishUnless rfl (addOverflows_iff a c),
    add_out_of_range_iff a b, sub_out_of_range_iff a b, add_out_of_range_iff a c⟩

/-! ### Products (R167, R168) -/

/-- `HI` and `LO` together are the product. -/
theorem hiLoResult_of_finishProduct {p : BitVec 64} (P : BitVec 64 → Prop) (hexec : exec i s = finishProduct p s)
    (hp : P p) : HiLoResult i (fun h l => P (h ++ l)) s :=
  hiLoResult_of_finishHiLo hexec ((BitVec.extractLsb'_append_extractLsb' (w := 32) (len := 32) (x := p)).symm ▸ hp)

/-- 64 bits hold every signed product of two words. -/
theorem toInt_ofInt_mul (a b : Word) : (BitVec.ofInt 64 (a.toInt * b.toInt)).toInt = a.toInt * b.toInt := by
  have hle : a.toInt * b.toInt ≤ 2 ^ 62 := BitVec.toInt_mul_toInt_le
  have hge : -2 ^ 62 ≤ a.toInt * b.toInt := BitVec.le_toInt_mul_toInt
  exact BitVec.toInt_ofInt_eq_self (by decide) (by omega) (by omega)

/-- 64 bits hold every unsigned product of two words. -/
theorem toNat_ofNat_mul (a b : Word) : (BitVec.ofNat 64 (a.toNat * b.toNat)).toNat = a.toNat * b.toNat := by
  have hlt : a.toNat * b.toNat < 2 ^ 32 * 2 ^ 32 := Nat.mul_lt_mul'' a.isLt b.isLt
  rw [BitVec.toNat_ofNat]
  exact Nat.mod_eq_of_lt hlt

/-- Settles O32: the product is not cut, and its halves join to it again. -/
theorem multMultu : Obligations.MultMultu := fun rs rt _ =>
  ⟨decode_encode (i := .mult rs rt) rfl, hiLoResult_of_finishProduct (·.toInt = _) rfl (toInt_ofInt_mul _ _),
    decode_encode (i := .multu rs rt) rfl, hiLoResult_of_finishProduct (·.toNat = _) rfl (toNat_ofNat_mul _ _)⟩

/-! ### Quotients and remainders (R169, R170) -/

/-- The operands for which `div` has no defined result. -/
abbrev DivUndefined (a b : Word) : Prop := b.toInt = 0 ∨ a.toInt = -2 ^ 31 ∧ b.toInt = -1

/-- The quotient toward zero is a word, but for `-2^31 / -1`. -/
theorem toInt_sdiv_of_defined {a b : Word} (h : ¬DivUndefined a b) : (a.sdiv b).toInt = Int.tdiv a.toInt b.toInt := by
  refine BitVec.toInt_sdiv_of_ne_or_ne a b ?_
  by_contra! hmin
  obtain ⟨rfl, rfl⟩ := hmin
  exact h (by decide)

/-- The remainder is what the quotient toward zero leaves. -/
theorem toInt_srem_eq (a b : Word) : (a.srem b).toInt = a.toInt - Int.tdiv a.toInt b.toInt * b.toInt := by
  rw [BitVec.toInt_srem, Int.tmod_def, Int.mul_comm]

section
variable {rs rt : Reg}

theorem exec_div (h : ¬DivUndefined (s.reg rs) (s.reg rt)) :
    exec (.div rs rt) s = finishHiLo ((s.reg rs).srem (s.reg rt)) ((s.reg rs).sdiv (s.reg rt)) s :=
  calc exec (.div rs rt) s
    _ = finishHiLo (BitVec.ofInt 32 ((s.reg rs).toInt - Int.tdiv (s.reg rs).toInt (s.reg rt).toInt * (s.reg rt).toInt))
          (BitVec.ofInt 32 (Int.tdiv (s.reg rs).toInt (s.reg rt).toInt)) s := if_neg h
    _ = finishHiLo ((s.reg rs).srem (s.reg rt)) ((s.reg rs).sdiv (s.reg rt)) s := by
      rw [← toInt_srem_eq, ← toInt_sdiv_of_defined h, BitVec.ofInt_toInt, BitVec.ofInt_toInt]

theorem exec_div_undefined (h : DivUndefined (s.reg rs) (s.reg rt)) :
    exec (.div rs rt) s = finishUndefinedDiv s :=
  if_pos h

theorem exec_divu (h : (s.reg rt).toNat ≠ 0) :
    exec (.divu rs rt) s = finishHiLo (s.reg rs % s.reg rt) (s.reg rs / s.reg rt) s :=
  calc exec (.divu rs rt) s
    _ = finishHiLo (BitVec.ofNat 32 ((s.reg rs).toNat % (s.reg rt).toNat))
          (BitVec.ofNat 32 ((s.reg rs).toNat / (s.reg rt).toNat)) s := if_neg h
    _ = finishHiLo (s.reg rs % s.reg rt) (s.reg rs / s.reg rt) s := by
      rw [← BitVec.toNat_umod, ← BitVec.toNat_udiv, BitVec.ofNat_toNat, BitVec.ofNat_toNat, BitVec.setWidth_eq,
        BitVec.setWidth_eq]

theorem exec_divu_undefined (h : (s.reg rt).toNat = 0) : exec (.divu rs rt) s = finishUndefinedDiv s :=
  if_pos h

end

theorem divides_of_finishUndefinedDiv (hexec : exec i s = finishUndefinedDiv s) : Divides i s :=
  ⟨_, hexec, rfl, fun _ => rfl, fun _ => rfl, ⟨rfl, rfl, rfl, rfl, rfl⟩, rfl, rfl, rfl⟩

/-- Settles O33, by the operands for which a result is defined and those for which none is. -/
theorem divDivu : Obligations.DivDivu := fun rs rt _ =>
  ⟨decode_encode (i := .div rs rt) rfl,
    fun h => hiLoResult_of_finishHiLo (exec_div h) ⟨toInt_sdiv_of_defined h, toInt_srem_eq _ _⟩,
    fun h => divides_of_finishUndefinedDiv (exec_div_undefined h),
    decode_encode (i := .divu rs rt) rfl,
    fun h => hiLoResult_of_finishHiLo (exec_divu h) ⟨BitVec.toNat_udiv, BitVec.toNat_umod⟩,
    fun h => divides_of_finishUndefinedDiv (exec_divu_undefined h)⟩

/-! ### The laws of division (R171) -/

theorem eq_of_finishHiLo_next {h l : Word} (hnext : finishHiLo h l s = .next t) : t.hi = h ∧ t.lo = l := by
  cases hnext
  exact ⟨rfl, rfl⟩

/-- The remainder is smaller than the divisor. -/
theorem natAbs_toInt_srem_lt (a : Word) {b : Word} (hb : b.toInt ≠ 0) :
    (a.srem b).toInt.natAbs < b.toInt.natAbs := by
  rw [BitVec.toInt_srem, Int.natAbs_tmod]
  exact Nat.mod_lt _ (Int.natAbs_pos.2 hb)

/-- The remainder is zero where the divisor divides the dividend, and else has the dividend's sign. -/
theorem toInt_srem_sign (a b : Word) : (a.srem b).toInt = 0 ∨ ((a.srem b).toInt < 0 ↔ a.toInt < 0) := by
  rw [BitVec.toInt_srem]
  have hsign := Int.sign_tmod a.toInt b.toInt
  split at hsign
  · exact .inl (Int.sign_eq_zero_iff_zero.1 hsign)
  · exact .inr (by rw [← Int.sign_eq_neg_one_iff_neg, hsign, Int.sign_eq_neg_one_iff_neg])

/-- Settles O34: the state after a division has the quotient and the remainder, and the laws are theirs. -/
theorem divisionLaws : Obligations.DivisionLaws := by
  refine fun rs rt s t => ⟨fun hexec hb hmin => ?_, fun hexec hb => ?_⟩
  · have hdef : ¬DivUndefined (s.reg rs) (s.reg rt) := not_or.2 ⟨hb, hmin⟩
    obtain ⟨hhi, hlo⟩ := eq_of_finishHiLo_next ((exec_div hdef).symm.trans hexec)
    rw [hhi, hlo]
    refine ⟨?_, natAbs_toInt_srem_lt _ hb, toInt_srem_sign _ _⟩
    rw [toInt_sdiv_of_defined hdef, toInt_srem_eq, add_sub_cancel]
  · obtain ⟨hhi, hlo⟩ := eq_of_finishHiLo_next ((exec_divu hb).symm.trans hexec)
    rw [hhi, hlo, BitVec.toNat_udiv, BitVec.toNat_umod]
    exact ⟨(Nat.div_add_mod' _ _).symm, Nat.mod_lt _ (Nat.pos_of_ne_zero hb)⟩

/-! ### The table of division results (R172) -/

/-- A row: dividend, divisor, quotient, remainder. -/
abbrev DivRow : Type := Int × Int × Int × Int

/-- The operands of the row are of the kind `D`, and `quot` and `rem` of them are the results of the row. -/
abbrev DivRow.Holds (D : Word → Word → Prop) (quot rem : Word → Word → Word) (c : DivRow) : Prop :=
  let a := BitVec.ofInt 32 c.1
  let b := BitVec.ofInt 32 c.2.1
  D a b ∧ quot a b = BitVec.ofInt 32 c.2.2.1 ∧ rem a b = BitVec.ofInt 32 c.2.2.2

/-- An instruction that divides operands of the kind `D` by `quot` and `rem` has the rows that hold of these. -/
theorem hiLoResult_of_rows {rs rt : Reg} {rows : List DivRow} {D : Word → Word → Prop} {quot rem : Word → Word → Word}
    (hexec : D (s.reg rs) (s.reg rt) →
      exec i s = finishHiLo (rem (s.reg rs) (s.reg rt)) (quot (s.reg rs) (s.reg rt)) s)
    (hrows : ∀ c ∈ rows, c.Holds D quot rem) :
    ∀ c ∈ rows, s.reg rs = BitVec.ofInt 32 c.1 → s.reg rt = BitVec.ofInt 32 c.2.1 →
      HiLoResult i (fun h l => l = BitVec.ofInt 32 c.2.2.1 ∧ h = BitVec.ofInt 32 c.2.2.2) s := by
  intro c hc ha hb
  have hrow := hrows c hc
  rw [DivRow.Holds, ← ha, ← hb] at hrow
  obtain ⟨hD, hquot, hrem⟩ := hrow
  exact hiLoResult_of_finishHiLo (hexec hD) ⟨hquot, hrem⟩

/-- Settles O35: the words of each row are divided as the row says. -/
theorem divisionTable : Obligations.DivisionTable := by
  refine fun rs rt s => ⟨hiLoResult_of_rows (D := (¬DivUndefined · ·)) exec_div (by decide),
    hiLoResult_of_rows (D := fun _ b => b.toNat ≠ 0) exec_divu (by decide), fun hb => ?_, fun ha hb => ?_⟩
  · have hzero : (s.reg rt).toInt = 0 := by rw [hb]; rfl
    have hzero' : (s.reg rt).toNat = 0 := by rw [hb]; rfl
    exact ⟨divides_of_finishUndefinedDiv (exec_div_undefined (.inl hzero)),
      divides_of_finishUndefinedDiv (exec_divu_undefined hzero')⟩
  · have hmin : DivUndefined (s.reg rs) (s.reg rt) := by rw [ha, hb]; decide
    exact divides_of_finishUndefinedDiv (exec_div_undefined hmin)

end Sys2Proof.Machine
end

section
/-! # Logical, shift and compare

Proofs of the statements of spec/43_logical_shift_compare.md. Each of these instructions finishes one register with a
value; where the model computes it otherwise than its rule writes it, the proof names the lemma that says they agree. -/

namespace Sys2Proof.Machine

variable {i : Instr} {s : State}

/-- As `regResult_of_finish`, with the value in the rule's own words. -/
theorem regResult_of_finish_of_eq {r : Reg} {v v' : Word} (h : exec i s = finish r v s) (hv : v = v') :
    RegResult i r v' s :=
  regResult_of_finish (h.trans (congrArg (finish r · s) hv))

/-! ### Bitwise operations (R181 to R187) -/

/-- Settles O37: each instruction finishes its register with the operation of the rule. -/
theorem bitwiseRegister : Obligations.BitwiseRegister := fun rd rs rt _ =>
  ⟨decode_encode (i := .or rd rs rt) rfl, regResult_of_finish rfl,
    decode_encode (i := .and rd rs rt) rfl, regResult_of_finish rfl,
    decode_encode (i := .xor rd rs rt) rfl, regResult_of_finish rfl,
    decode_encode (i := .nor rd rs rt) rfl, regResult_of_finish rfl⟩

/-- Settles O38, as O37: widening the immediate by zeros is writing sixteen zeros above it (R11). -/
theorem bitwiseImmediate : Obligations.BitwiseImmediate := fun rt rs imm s =>
  ⟨decode_encode (i := .ori rt rs imm) rfl,
    regResult_of_finish_of_eq rfl (congrArg (s.reg rs ||| ·) (zext_half imm)),
    decode_encode (i := .andi rt rs imm) rfl,
    regResult_of_finish_of_eq rfl (congrArg (s.reg rs &&& ·) (zext_half imm)),
    decode_encode (i := .xori rt rs imm) rfl,
    regResult_of_finish_of_eq rfl (congrArg (s.reg rs ^^^ ·) (zext_half imm))⟩

/-! ### Shifts (R188 to R193) -/

/-- The arithmetic shift divides and rounds toward minus infinity (R190); the division of `Int` by a positive number
does. -/
theorem toInt_sshiftRight_eq_div (v : Word) (n : Nat) : (v.sshiftRight n).toInt = v.toInt / 2 ^ n := by
  rw [BitVec.toInt_sshiftRight, Int.shiftRight_eq_div_pow]
  norm_cast

/-- The arithmetic shift moves bits down and copies bit 31 into the places above (R193). -/
theorem getLsbD_sshiftRight_of_lt (v : Word) (n : Nat) {k : Nat} (hk : k < 32) :
    (v.sshiftRight n).getLsbD k = if k + n < 32 then v.getLsbD (k + n) else v.getLsbD 31 := by
  have hin : ¬32 ≤ k := by omega
  simp [BitVec.getLsbD_sshiftRight, hin, Nat.add_comm n k, BitVec.msb_eq_getLsbD_last]

/-- Settles O39: the five low bits of a register, as a number, are the register modulo 32 (R94). -/
theorem variableShifts : Obligations.VariableShifts := by
  intro rd rt rs s n
  have hn : shiftAmount (s.reg rs) = n := shiftAmount_eq (s.reg rs)
  exact ⟨decode_encode (i := .sllv rd rt rs) rfl, regResult_of_finish_of_eq rfl (congrArg (s.reg rt <<< ·) hn),
    decode_encode (i := .srlv rd rt rs) rfl, regResult_of_finish_of_eq rfl (congrArg (s.reg rt >>> ·) hn),
    decode_encode (i := .srav rd rt rs) rfl, regResult_of_finish_of_eq rfl (congrArg (s.reg rt).sshiftRight hn),
    toInt_sshiftRight_eq_div (s.reg rt) n⟩

/-- Settles O40: an amount below 32 is well formed, so its word decodes to the shift. -/
theorem constantShifts : Obligations.ConstantShifts := by
  intro rd rt n s hn
  have hok : shamtOk n = true := decide_eq_true hn
  exact ⟨decode_encode (i := .sll rd rt n) hok, regResult_of_finish rfl,
    decode_encode (i := .srl rd rt n) hok, regResult_of_finish rfl,
    decode_encode (i := .sra rd rt n) hok, regResult_of_finish rfl,
    fun _ hk => getLsbD_sshiftRight_of_lt (s.reg rt) n hk⟩

/-! ### Comparisons (R194 to R197) -/

/-- Widening an immediate by its sign keeps its signed value (R11). -/
theorem toInt_sext_half (imm : Half) : (sext imm).toInt = imm.toInt :=
  BitVec.toInt_signExtend_of_le (by decide)

theorem boolWord_lessSigned_sext (a : Word) (imm : Half) :
    boolWord (lessSigned a (sext imm)) = if a.toInt < imm.toInt then 1 else 0 := by
  rw [boolWord_lessSigned, toInt_sext_half]

/-- Settles O41: the value of each comparison is 1 exactly where its rule's condition holds. -/
theorem comparisons : Obligations.Comparisons := fun rd rs rt imm _ =>
  ⟨decode_encode (i := .slt rd rs rt) rfl, regResult_of_finish_of_eq rfl (boolWord_lessSigned _ _),
    decode_encode (i := .sltu rd rs rt) rfl, regResult_of_finish_of_eq rfl (boolWord_lessUnsigned _ _),
    decode_encode (i := .slti rt rs imm) rfl, regResult_of_finish_of_eq rfl (boolWord_lessSigned_sext _ imm),
    decode_encode (i := .sltiu rt rs imm) rfl, regResult_of_finish_of_eq rfl (boolWord_lessUnsigned _ (sext imm))⟩

end Sys2Proof.Machine
end

section
/-! # System calls, `break`, `rfe`

Proofs of the statements of spec/44_system.md. With `TRAP_MODEL = fault` a `syscall` is the service that `x[2]` selects:
each service has its equation, and its rule is a fact about the scan (R213), the buffer (R215) or the event (R211) it is
made of. What trap entry leaves is said once, for every exception that has a code. -/

namespace Sys2Proof.Machine

variable {s t : State} {o : Outcome} {i : Instr} {e : Exc} {c : BitVec 5} {w : Word}

/-! ### The fields that a trap entry and a return write (R248, R252, R254) -/

/-- Each pair of the mode stack moves up by one, kernel mode with interrupts off is pushed, and the rest of `Status`
stays (R252). -/
theorem pushMode_fields (sr : Word) :
    (pushMode sr).extractLsb' 0 2 = 0 ∧ (pushMode sr).extractLsb' 2 2 = sr.extractLsb' 0 2
      ∧ (pushMode sr).extractLsb' 4 2 = sr.extractLsb' 2 2
      ∧ (pushMode sr).extractLsb' 6 26 = sr.extractLsb' 6 26 := by
  and_intros <;> apply BitVec.eq_of_toNat_eq <;>
    simp only [pushMode, toNat_extract_eq, toNat_append_eq, BitVec.ofNat_eq_ofNat, BitVec.toNat_ofNat] <;> omega

/-- Each pair of the mode stack moves down by one, but the oldest, which stays too, as the rest of `Status` does
(R254). -/
theorem popMode_fields (sr : Word) :
    (popMode sr).extractLsb' 0 2 = sr.extractLsb' 2 2 ∧ (popMode sr).extractLsb' 2 2 = sr.extractLsb' 4 2
      ∧ (popMode sr).extractLsb' 4 2 = sr.extractLsb' 4 2
      ∧ (popMode sr).extractLsb' 6 26 = sr.extractLsb' 6 26 := by
  have hhigh : sr.toNat / 2 ^ 4 % 2 ^ 28 = sr.toNat / 2 ^ 4 := Nat.mod_eq_of_lt (by omega)
  have habove : (sr.toNat / 2 ^ 4 * 2 ^ 4 + sr.toNat / 2 ^ 2 % 2 ^ 4) / 2 ^ 6 = sr.toNat / 2 ^ 6 := by omega
  and_intros <;> apply BitVec.eq_of_toNat_eq <;> simp only [popMode, toNat_extract_eq, toNat_append_eq, hhigh, habove]
  all_goals omega

/-- `Cause` after an entry holds what the entry puts in its fields, and `BD = 0` (R248, R252). -/
theorem causeWord_fields (ce softIP : BitVec 2) (code : BitVec 5) :
    (causeWord ce softIP code).extractLsb' 2 5 = code ∧ (causeWord ce softIP code).extractLsb' 8 2 = softIP
      ∧ (causeWord ce softIP code).extractLsb' 28 2 = ce ∧ (causeWord ce softIP code).getLsbD 31 = false := by
  have hce := ce.isLt
  have hsoft := softIP.isLt
  have hcode := code.isLt
  have hbd : (causeWord ce softIP code).getLsbD 31 = false := by
    simp only [causeWord, BitVec.getLsbD_append]
    rfl
  refine ⟨?_, ?_, ?_, hbd⟩ <;> apply BitVec.eq_of_toNat_eq <;>
    simp only [causeWord, toNat_extract_eq, toNat_append_eq, BitVec.toNat_ofNat] <;> omega

/-- Only the exceptions of codes 4 and 5 have an offending address (R249). -/
theorem excBadAddr_eq_none (hc : excCode e = some c) (h4 : c ≠ 4) (h5 : c ≠ 5) : excBadAddr e = none := by
  cases e with
  | addressErrorFetch | addressErrorLoad => exact absurd (Option.some.inj hc).symm h4
  | addressErrorStore => exact absurd (Option.some.inj hc).symm h5
  | _ => rfl

/-- Trap entry leaves what R252 lists, and nothing else changes. -/
theorem trapTaken_enterTrap (hc : excCode e = some c) : TrapTaken e c s (s.enterTrap e c) := by
  obtain ⟨hcurrent, hprevious, hold, habove⟩ := pushMode_fields s.cp0.sr
  obtain ⟨hcode, hsoft, hce, hbd⟩ := causeWord_fields (s.causeCE e) (s.cp0.cause.extractLsb' 8 2) c
  refine ⟨rfl, rfl, hcode, ?ce, hbd, hsoft, ?bad, ?keepBad, hcurrent, hprevious, hold, habove, fun _ => rfl, ⟨rfl, rfl⟩,
    fun _ => rfl, ⟨rfl, rfl, rfl⟩, ⟨rfl, rfl, rfl, rfl⟩⟩
  case ce => rintro n rfl; exact hce
  case bad => rintro a (rfl | rfl | rfl) <;> rfl
  case keepBad => intro h4 h5; simp [excBadAddr_eq_none hc h4 h5]

/-- Under r3000 an exception that has a code is the trap entry of that code (R252). -/
theorem nextIs_trapTaken (hm : s.params.trapModel = .r3000) (hc : excCode e = some c) :
    NextIs (raise e s) (TrapTaken e c s) :=
  ⟨_, raise_r3000 hm hc, trapTaken_enterTrap hc⟩

/-! ### `break` and `rfe` (R219, R220, R254) -/

/-- Settles O26: `break` is the exception, and under r3000 the exception is the trap. -/
theorem breakRaises : Obligations.BreakRaises :=
  ⟨decode_encode (i := .brk) rfl, fun _ => ⟨raises_of_eq rfl, fun hm => nextIs_trapTaken hm rfl⟩⟩

/-- Coprocessor 0 is usable in kernel mode or with `CU0 = 1` (R246). -/
theorem cp0Usable_iff : s.cp0Usable = true ↔ s.cp0.sr.getLsbD 1 = false ∨ s.cp0.sr.getLsbD 28 = true := by
  simp [State.cp0Usable]

theorem execRfe_unusable (hm : s.params.trapModel = .r3000) (hu : s.cp0Usable = false) :
    execRfe s = raise (.coprocessorUnusable 0) s := by
  simp [execRfe, hm, hu]

theorem execRfe_usable (hm : s.params.trapModel = .r3000) (hu : s.cp0Usable = true) :
    execRfe s = .next s.leaveTrap.advance := by
  simp [execRfe, hm, hu]

/-- Settles O27, by the trap model and by whether coprocessor 0 is usable. -/
theorem rfeRule : Obligations.RfeRule := by
  refine fun s => ⟨fun hm => ?_, fun hm huser hcu => ?_, fun hm hu => ?_⟩
  · exact (execRfe_fault hm).trans (raise_fault _ hm)
  · have hexec : exec .rfe s = raise (.coprocessorUnusable 0) s :=
      execRfe_unusable hm (by rw [State.cp0Usable, huser, hcu]; rfl)
    rw [hexec]
    exact nextIs_trapTaken hm rfl
  · obtain ⟨hcurrent, hprevious, hold, habove⟩ := popMode_fields s.cp0.sr
    exact ⟨_, execRfe_usable hm (cp0Usable_iff.2 hu), hcurrent, hprevious, hold, habove, rfl, rfl, rfl, rfl,
      fun _ => rfl, ⟨rfl, rfl⟩, fun _ => rfl, rfl, rfl, rfl, rfl, rfl, rfl, rfl⟩

/-! ### The other words of opcode COPRO (R221) -/

theorem decode_of_copro (h : opField w = 0b010000) :
    decode w = if w = rfeWord then .instr .rfe else .reserved .coproWord := by
  unfold decode
  rw [h]
  rfl

/-- Settles O5: of the opcode's words one is `rfe`, and a reserved word raises in the default model. -/
theorem coproWordsReserved : Obligations.CoproWordsReserved := by
  refine ⟨decode_encode (i := .rfe) rfl, fun w hop hne => ?_⟩
  have hres : decode w = .reserved .coproWord := (decode_of_copro hop).trans (if_neg hne)
  refine ⟨⟨_, hres⟩, fun s hm => ?_⟩
  calc runWord w s = execReserved w s := runWord_of_reserved hres
    _ = raise (.reservedInstruction w) s := execReserved_fault hm w
    _ = .fault (.raised (.reservedInstruction w) s.pc) := raise_fault _ hm

/-! ### Which service a code selects (R210) -/

theorem serve_printInt (h : s.reg 2 = 1) : serve s = servePrintInt s := by simp [serve, serviceOf, h]

theorem serve_readInt (h : s.reg 2 = 5) : serve s = serveReadInt s := by simp [serve, serviceOf, h]

theorem serve_readString (h : s.reg 2 = 8) : serve s = serveReadString s := by simp [serve, serviceOf, h]

theorem serve_exit (h : s.reg 2 = 10) : serve s = serveExit s := by simp [serve, serviceOf, h]

theorem serviceOf_none (h1 : w ≠ 1) (h4 : w ≠ 4) (h5 : w ≠ 5) (h8 : w ≠ 8) (h10 : w ≠ 10) : serviceOf w = none := by
  simp only [serviceOf, if_neg h1, if_neg h4, if_neg h5, if_neg h8, if_neg h10]

theorem serve_of_serviceOf_none (h : serviceOf (s.reg 2) = none) : serve s = raise (.unknownService (s.reg 2)) s := by
  simp [serve, h]

/-- Settles O57: a code that selects no service raises. -/
theorem unknownServiceRaises : Obligations.UnknownServiceRaises :=
  ⟨decode_encode (i := .syscall) rfl, fun _ hm h1 h4 h5 h8 h10 =>
    raises_of_eq ((execSyscall_fault hm).trans (serve_of_serviceOf_none (serviceOf_none h1 h4 h5 h8 h10)))⟩

/-! ### The services that add an event and change nothing else (R212, R213) -/

/-- The step goes on with an event appended to `out`, and nothing else of R35 changes. -/
def Emits (o : Outcome) (v : Event) (s : State) : Prop :=
  NextIs o fun t =>
    t.out = s.out ++ [v] ∧ t.pc = s.pc + 4 ∧ SameRegs s t ∧ SameHiLo s t ∧ SameMem s t ∧ SameFixed s t
      ∧ t.input = s.input ∧ t.status = s.status

theorem emits_of_eq {v : Event} (h : o = .next (s.emit v).advance) : Emits o v s :=
  ⟨_, h, rfl, rfl, fun _ => rfl, ⟨rfl, rfl⟩, fun _ => rfl, ⟨rfl, rfl, rfl, rfl, rfl⟩, rfl, rfl⟩

/-- An address is among the first `2 ^ 32` of a run if it is the first that lacks a property: from there on the
addresses repeat (R50). -/
theorem lt_of_first_without {p : Word → Prop} {a : Word} {n : Nat} (h : ∀ j, j < n → p (up a j)) (hn : ¬p (up a n)) :
    n < 2 ^ 32 := by
  by_contra hge
  have hwrap : up a (n % 2 ^ 32) = up a n := congrArg (a + ·) (BitVec.eq_of_toNat_eq (by simp))
  exact hn (hwrap ▸ h (n % 2 ^ 32) (by omega))

theorem servePrintString_ended {bs : List Byte} (h : s.scan (s.reg 4) (2 ^ 32) = .ended bs) :
    servePrintString s = .next (s.emit (.printString bs)).advance := by
  simp only [servePrintString, h]

theorem servePrintString_missing {a : Word} (h : s.scan (s.reg 4) (2 ^ 32) = .missing a) :
    servePrintString s = raise (.busErrorLoad a) s := by
  simp only [servePrintString, h]

/-- Settles O54: the terminator, or the byte that does not exist, is less than `2 ^ 32` bytes away, so the scan meets
it. -/
theorem servicePrintString : Obligations.ServicePrintString := by
  intro s n hm h4 a hbefore
  have hserve : exec .syscall s = servePrintString s := (execSyscall_fault hm).trans (serve_printString h4)
  have hnear : ¬(s.allocated (up a n) = true ∧ s.byteAt (up a n) ≠ 0) → n < 2 ^ 32 :=
    lt_of_first_without (p := fun x => s.allocated x = true ∧ s.byteAt x ≠ 0) hbefore
  refine ⟨fun halloc hzero => ?_, fun hmissing => ?_⟩
  · have hscan := scan_ended s a n _ (hnear (by simp [hzero])) hbefore halloc hzero
    exact emits_of_eq (hserve.trans (servePrintString_ended hscan))
  · have hscan := scan_missing s a n _ (hnear (by simp [hmissing])) hbefore hmissing
    exact raises_of_eq (hserve.trans (servePrintString_missing hscan))

/-! ### The answer of the environment (R214; logs 5, 6) -/

theorem answered_of_input_nil (h : s.input = []) : s.answer = Config.draw s.draws ∧ s.answered = s.skipDraws 1 := by
  simp [State.answer, State.answered, State.drawn, h]

theorem answered_of_input_cons {v : Word} {vs : List Word} (h : s.input = v :: vs) :
    s.answer = v ∧ s.answered = { s with input := vs } := by
  simp [State.answer, State.answered, h]

/-- Settles O53: service 1 is an event; service 5 is the answer, in `x[2]` and in the event. -/
theorem integerServices : Obligations.IntegerServices := by
  refine fun s hm => ⟨fun h1 => ?_, fun h5 => ?_⟩
  · exact emits_of_eq ((execSyscall_fault hm).trans (serve_printInt h1))
  · refine ⟨_, (execSyscall_fault hm).trans (serve_readInt h5), by simp, by simp [nextPc], fun q hq => by simp [hq],
      by simp [SameHiLo], fun x => ?_, by constructor <;> simp, by simp, fun v vs hin => ?_, fun hin => ?_⟩
    · exact byteAt_of_mem_eq (by simp) x
    · obtain ⟨hanswer, hanswered⟩ := answered_of_input_cons hin
      simp [hanswer, hanswered]
    · obtain ⟨hanswer, hanswered⟩ := answered_of_input_nil hin
      simp [hanswer, hanswered, hin]

/-! ### The buffer of service 8 (R215) -/

section
variable {a : Word} {n j : Nat}

theorem bufferExc_none_of_allBytes (hall : AllBytes s.allocated a n)
    (hs : s.params.smc = .refuse → AllBytes (fun x => !s.inText x) a n) : s.bufferExc a n = none := by
  have halloc : firstInRun (fun x => !s.allocated x) a n = none :=
    firstInRun_none_iff_allBytes.2 (by simpa [AllBytes] using hall)
  simp only [State.bufferExc, halloc]
  split
  · next hr => rw [firstInRun_none_iff_allBytes.2 (hs hr)]; rfl
  · rfl

/-- The first byte that does not exist (R56; which byte: log 21). -/
theorem bufferExc_busError (hj : j < n) (hbefore : AllBytes s.allocated a j) (hat : s.allocated (up a j) = false) :
    s.bufferExc a n = some (.busErrorStore (up a j)) := by
  have hfirst : firstInRun (fun x => !s.allocated x) a n = some (up a j) :=
    firstInRun_eq _ a n j hj (fun k hk => congrArg not (hbefore k hk)) (congrArg not hat)
  simp only [State.bufferExc, hfirst]

/-- Where every byte exists, the first in the text image (R63; which byte: log 21). -/
theorem bufferExc_storeToText (hj : j < n) (hall : AllBytes s.allocated a n) (hs : s.params.smc = .refuse)
    (hbefore : AllBytes (fun x => !s.inText x) a j) (hat : s.inText (up a j) = true) :
    s.bufferExc a n = some (.storeToText (up a j)) := by
  have halloc : firstInRun (fun x => !s.allocated x) a n = none :=
    firstInRun_none_iff_allBytes.2 (by simpa [AllBytes] using hall)
  have hfirst : firstInRun s.inText a n = some (up a j) :=
    firstInRun_eq _ a n j hj (fun k hk => by simpa [up] using hbefore k hk) hat
  simp only [State.bufferExc, halloc, hs, hfirst]
  rfl

end

theorem serveReadString_of_bufferExc_some (h : s.bufferExc (s.reg 4) (s.reg 5).toNat = some e) :
    serveReadString s = raise e s := by
  simp only [serveReadString, h]

/-- The state that service 8 leaves: the answers are taken, and their bytes are in the buffer and in the event. -/
def State.readString (s : State) (a : Word) (n : Nat) : State :=
  (((s.answerBytes n).2.setBytes a (s.answerBytes n).1).emit (.readString a n (s.answerBytes n).1)).advance

theorem serveReadString_of_bufferExc_none (h : s.bufferExc (s.reg 4) (s.reg 5).toNat = none) :
    serveReadString s = .next (s.readString (s.reg 4) (s.reg 5).toNat) := by
  simp only [serveReadString, h]
  rfl

theorem map_byteAt_range (s : State) (a : Word) (n : Nat) :
    ((List.range n).map fun k => s.byteAt (up a k)) = s.bytesAt a n := by
  apply List.ext_getElem?
  intro k
  by_cases hk : k < n
  · rw [bytesAt_getElem? hk]; simp [hk]
  · rw [List.getElem?_eq_none (by simpa using hk), List.getElem?_eq_none (by simpa using hk)]

/-- The buffer holds the bytes of the answers (R215). -/
theorem readString_bytesAt (s : State) (a : Word) {n : Nat} (hn : n ≤ 2 ^ 32) :
    (s.readString a n).bytesAt a n = (s.answerBytes n).1 := by
  have hback := setBytes_bytesAt (s.answerBytes n).2 a (s.answerBytes n).1 (by simpa using hn)
  rw [answerBytes_length] at hback
  rw [State.readString, advance_bytesAt, emit_bytesAt, hback]

/-- No byte outside the buffer changes (R215). -/
theorem readString_byteAt_out (s : State) {a x : Word} {n : Nat} (hn : n ≤ 2 ^ 32) (hx : ∀ k, k < n → x ≠ up a k) :
    (s.readString a n).byteAt x = s.byteAt x := by
  rw [State.readString, advance_byteAt, emit_byteAt,
    setBytes_byteAt_out _ a x _ (by simpa using hn) (by simpa using inRun_of_forall_ne_up hx)]
  exact byteAt_of_mem_eq (by simp) x

/-- Byte `k` of the buffer is the low byte of answer `k` of `in`, where there is one (log 6). -/
theorem readString_byteAt_answer (s : State) (a : Word) {n k : Nat} {v : Word} (hn : n ≤ 2 ^ 32) (hk : k < n)
    (hv : s.input[k]? = some v) : (s.readString a n).byteAt (up a k) = v.setWidth 8 := by
  have hbyte := bytesAt_getElem? (s := s.readString a n) (a := a) hk
  rw [readString_bytesAt s a hn, answerBytes_get hk hv] at hbyte
  exact (Option.some.inj hbyte).symm

/-- Settles O55: the three checks of the buffer, in their order, and the state that the service leaves. -/
theorem serviceReadString : Obligations.ServiceReadString := by
  intro s j hm h8 a n
  have hserve : exec .syscall s = serveReadString s := (execSyscall_fault hm).trans (serve_readString h8)
  have hn : n ≤ 2 ^ 32 := (s.reg 5).isLt.le
  refine ⟨fun hall hs => ?_, fun hj hbefore hat => ?_, fun hj hall hs hbefore hat => ?_⟩
  · refine ⟨s.readString a n, hserve.trans (serveReadString_of_bufferExc_none (bufferExc_none_of_allBytes hall hs)),
      ?_, by simp [State.readString, nextPc], fun x hx => readString_byteAt_out s hn hx,
      fun q => by simp [State.readString, State.reg], by simp [State.readString, SameHiLo],
      by constructor <;> simp [State.readString], by simp [State.readString],
      fun k v hk hv => readString_byteAt_answer s a hn hk hv, by simp [State.readString]⟩
    rw [map_byteAt_range, readString_bytesAt s a hn]
    simp [State.readString]
  · exact raises_of_eq (hserve.trans (serveReadString_of_bufferExc_some (bufferExc_busError hj hbefore hat)))
  · exact raises_of_eq (hserve.trans (serveReadString_of_bufferExc_some (bufferExc_storeToText hj hall hs hbefore hat)))

/-! ### The end of a run (R216) -/

/-- A run that has exited stays where it is. -/
theorem follow_of_exited (h : s.status = .exited) : s.follow = s := by
  simp [State.follow, step, h]

theorem after_of_follow_eq (h : s.follow = s) (n : Nat) : s.after n = s := by
  induction n with
  | zero => rfl
  | succ n ih => rw [State.after, h, ih]

/-- Settles O56: the exited state is final, and no step leads out of it. -/
theorem serviceExit : Obligations.ServiceExit := fun _ hm h10 =>
  ⟨_, (execSyscall_fault hm).trans (serve_exit h10), rfl, rfl, rfl, rfl, fun _ => rfl, ⟨rfl, rfl⟩, fun _ => rfl,
    ⟨rfl, rfl, rfl, rfl, rfl⟩, rfl, after_of_follow_eq (follow_of_exited rfl)⟩

/-! ### Where the environment acts (R211, R263) -/

/-- The environment's part of the state is as before. -/
def SameEnv (s t : State) : Prop := t.out = s.out ∧ t.input = s.input ∧ t.status = s.status

theorem raise_sameEnv (h : raise e s = .next t) : SameEnv s t := by
  obtain ⟨-, c, -, rfl⟩ := raise_next h
  exact ⟨rfl, rfl, rfl⟩

theorem writeCp0_sameEnv (s : State) (rd : Reg) (v : Word) : SameEnv s (s.writeCp0 rd v) := by
  unfold State.writeCp0
  split
  · exact ⟨rfl, rfl, rfl⟩
  · split <;> exact ⟨rfl, rfl, rfl⟩

theorem execCp0Move_sameEnv {m : Cp0Move} (h : execCp0Move m s = .next t) : SameEnv s t := by
  obtain ⟨-, hraise⟩ | ⟨-, ⟨rt, rd, -, rfl⟩ | ⟨rt, rd, -, rfl⟩⟩ := execCp0Move_next h
  · exact raise_sameEnv hraise
  · cases cp0Described rd <;> exact ⟨rfl, rfl, rfl⟩
  · exact writeCp0_sameEnv s rd (s.reg rt)

theorem execReserved_sameEnv (h : execReserved w s = .next t) : SameEnv s t := by
  obtain ⟨m, -, -, hmove⟩ | hraise := execReserved_next h
  · exact execCp0Move_sameEnv hmove
  · exact raise_sameEnv hraise

/-- An instruction that is no `syscall` answered by the environment leaves the environment's part alone. -/
theorem ExecNext.sameEnv_or (h : ExecNext i s t) : SameEnv s t ∨ (i = .syscall ∧ ServeNext s t) := by
  cases h with
  | trap | reg | hilo | store | rfe => exact .inl (by simp [SameEnv])
  | service _ hi hm hserve => exact .inr ⟨hi, serve_next hm hserve⟩

/-- Of the services only the exit changes `status`, and it appends its event and keeps `pc` (R216). -/
theorem ServeNext.status_or (h : ServeNext s t) :
    t.status = s.status ∨ (s.reg 2 = 10 ∧ t.status = .exited ∧ t.out = s.out ++ [.exit] ∧ t.pc = s.pc) := by
  cases h with
  | printInt | printString | readInt | readString => exact .inl (by simp)
  | exit h10 => exact .inr ⟨h10, rfl, rfl, rfl⟩

/-- A step leaves the environment's part alone, or executes a `syscall` that the environment answers. -/
theorem step_sameEnv_or (h : step s = .next t) :
    SameEnv s t ∨ (decode s.fetched = .instr .syscall ∧ ServeNext s t) := by
  obtain ⟨-, ⟨-, hint⟩ | ⟨-, e, -, hfetch⟩ | ⟨-, -, hrun⟩⟩ := step_next h
  · exact .inl (raise_sameEnv hint)
  · exact .inl (raise_sameEnv hfetch)
  · obtain ⟨i, hi, hexec⟩ | ⟨r, -, hres⟩ := runWord_next hrun
    · exact (exec_next hexec).sameEnv_or.imp_right fun ⟨heq, hserve⟩ => ⟨heq ▸ hi, hserve⟩
    · exact .inl (execReserved_sameEnv hres)

/-- Settles O16: a step starts in a running state, and only a service acts on the environment's part. -/
theorem environmentActsOnlyInSyscall : Obligations.EnvironmentActsOnlyInSyscall := by
  intro s t h
  obtain ⟨hr, -⟩ := step_next h
  obtain ⟨hout, hin, hstatus⟩ | ⟨hsys, hserve⟩ := step_sameEnv_or h
  · exact .inl ⟨hout, hin, hstatus.trans hr⟩
  · exact .inr ⟨hsys, hserve.status_or.imp_left fun hstatus => hstatus.trans hr⟩

end Sys2Proof.Machine
end

section
/-! # Exceptions: user mode, faults, traps, coprocessor 0

Proofs of the statements of spec/60_exceptions.md. What trap entry leaves is said once, above (`trapTaken_enterTrap`):
here it is where a step ends that starts in user mode without `CU0`, and where an interrupt or a `syscall` leads. Of the
outcomes of `raise` the other one is the fault of R231: every fault of a step is one of those, or service 4's own. -/

namespace Sys2Proof.Machine

variable {s t : State} {i : Instr} {e : Exc} {c : BitVec 5} {w a b x : Word} {n : Nat} {o : Outcome} {f : Fault}

/-! ### User mode (R246) -/

theorem userMode_iff : s.userMode = true ↔ s.params.trapModel = .r3000 ∧ s.cp0.sr.getLsbD 1 = true := by
  simp [State.userMode]

/-- Only r3000 has a user mode (R240). -/
theorem trapModel_of_userMode (hu : s.userMode = true) : s.params.trapModel = .r3000 := (userMode_iff.1 hu).1

theorem cp0Usable_of_userMode (hu : s.userMode = true) (hcu : s.cp0.sr.getLsbD 28 = false) : s.cp0Usable = false := by
  obtain ⟨-, huser⟩ := userMode_iff.1 hu
  rw [State.cp0Usable, huser, hcu]; rfl

/-- The environment serves no `syscall` of user mode: it takes the exception (log 10). -/
theorem not_fault_of_userMode (hu : s.userMode = true) : s.params.trapModel ≠ .fault := by
  simp [trapModel_of_userMode hu]

/-! ### Leaving user mode (R246, R252) -/

/-- Every coprocessor 0 register is as before, or the state is the entry of an exception. -/
def KeepsCp0OrTraps (s t : State) : Prop := t.cp0 = s.cp0 ∨ ∃ e c, excCode e = some c ∧ TrapTaken e c s t

/-- A next state of `raise` is a trap entry. -/
theorem raise_keepsCp0OrTraps (h : raise e s = .next t) : KeepsCp0OrTraps s t := by
  obtain ⟨-, c, hc, rfl⟩ := raise_next h
  exact .inr ⟨e, c, hc, trapTaken_enterTrap hc⟩

section
variable (hu : s.userMode = true) (hcu : s.cp0.sr.getLsbD 28 = false)
include hu hcu

/-- Of the instructions only `rfe` writes coprocessor 0 without a trap, and it is not usable here (R246, R254). -/
theorem ExecNext.keepsCp0OrTraps (h : ExecNext i s t) : KeepsCp0OrTraps s t := by
  cases h with
  | trap e c _ hc => exact .inr ⟨e, c, hc, trapTaken_enterTrap hc⟩
  | reg | hilo | store => exact .inl (by simp)
  | service _ _ hm => exact absurd hm (not_fault_of_userMode hu)
  | rfe _ _ husable => simp [cp0Usable_of_userMode hu hcu] at husable

/-- The moves of coprocessor 0 are not usable either (R246). -/
theorem execReserved_keepsCp0OrTraps (h : execReserved w s = .next t) : KeepsCp0OrTraps s t := by
  obtain ⟨m, -, -, hmove⟩ | hraise := execReserved_next h
  · obtain ⟨-, hraise⟩ | ⟨husable, -⟩ := execCp0Move_next hmove
    · exact raise_keepsCp0OrTraps hraise
    · simp [cp0Usable_of_userMode hu hcu] at husable
  · exact raise_keepsCp0OrTraps hraise

end

/-- Settles O18, by what a step can be: an interrupt, an exception of the fetch, or the word executed. -/
theorem userModeLeftOnlyByTrap : Obligations.UserModeLeftOnlyByTrap := by
  intro s t hu hcu h
  obtain ⟨-, ⟨-, hint⟩ | ⟨-, e, -, hfetch⟩ | ⟨-, -, hrun⟩⟩ := step_next h
  · exact raise_keepsCp0OrTraps hint
  · exact raise_keepsCp0OrTraps hfetch
  · obtain ⟨i, -, hexec⟩ | ⟨r, -, hres⟩ := runWord_next hrun
    · exact (exec_next hexec).keepsCp0OrTraps hu hcu
    · exact execReserved_keepsCp0OrTraps hu hcu hres

/-! ### Kernel addresses out of reach (R251; log 15) -/

/-- In user mode an address is out of reach where the reading of R251 is on and bit 31 is set. -/
theorem kernelOnly_iff_of_userMode (hu : s.userMode = true) :
    s.kernelOnly x = true ↔ s.params.guardKernel = true ∧ x.msb = true := by
  simp [State.kernelOnly, State.guarded, hu]

/-- An aligned run of a store that starts below the kernel half ends below it: the half starts at a multiple of every
width. -/
theorem inRun_of_aligned_user (hs : Stores i n) (hal : aligned b n = true) (hb : b.msb = false) (ha : a.msb = true) :
    inRun b n a = false := by
  have hmod := aligned_iff.1 hal
  have hlow := BitVec.msb_eq_false_iff_two_mul_lt.1 hb
  have hhigh := BitVec.msb_eq_true_iff_two_mul_ge.1 ha
  simp only [inRun, decide_eq_false_iff_not, not_lt, BitVec.toNat_sub]
  cases hs with
  | sw | sh | sb => omega

/-- No instruction of user mode changes a byte of the kernel half: a store whose checks pass starts below it. -/
theorem ExecNext.byteAt_kernel (h : ExecNext i s t) (hu : s.userMode = true) (hg : s.params.guardKernel = true)
    (ha : a.msb = true) : t.byteAt a = s.byteAt a := by
  cases h with
  | trap | reg | hilo | rfe => exact byteAt_of_mem_eq (by simp) a
  | store b n v hs hx =>
    obtain ⟨hal, hk, -, -⟩ := storeExc_none.1 hx
    have hb : b.msb = false := by
      simpa [hg] using (kernelOnly_iff_of_userMode (x := b) hu).not.1 (by simp [hk])
    have hn := hs.le
    rw [advance_byteAt, writeNum_byteAt_out s b a n v (by omega) (inRun_of_aligned_user hs hal hb ha)]
  | service _ _ hm => exact absurd hm (not_fault_of_userMode hu)

/-- Settles O19: of what a step can be, only an instruction writes memory. -/
theorem userModeCannotWriteKernelBytes : Obligations.UserModeCannotWriteKernelBytes := by
  intro s t a hu hg h ha
  obtain ⟨-, ⟨-, hint⟩ | ⟨-, e, -, hfetch⟩ | ⟨-, -, hrun⟩⟩ := step_next h
  · exact byteAt_of_mem_eq (raise_mem hint) a
  · exact byteAt_of_mem_eq (raise_mem hfetch) a
  · obtain ⟨i, -, hexec⟩ | ⟨r, -, hres⟩ := runWord_next hrun
    · exact (exec_next hexec).byteAt_kernel hu hg ha
    · exact byteAt_of_mem_eq (execReserved_mem hres) a

/-! ### Fetch, loads and stores in user mode (R247, R251, R53; logs 14, 15) -/

/-- In user mode the byte order in force is the statement's. -/
theorem order_of_userMode (hu : s.userMode = true) : s.order = userOrder s := by
  unfold State.order State.reversed userOrder
  rw [hu, Bool.true_and]
  cases s.params.endian <;> cases s.params.reReverses && s.cp0.sr.getLsbD 25 <;> rfl

section
variable (hu : s.userMode = true)
include hu

theorem badAddress_iff_of_userMode :
    (x.toNat % n ≠ 0 ∨ s.params.guardKernel = true ∧ x.msb = true) ↔ s.BadAddress x n :=
  or_congr_right (kernelOnly_iff_of_userMode hu).symm

/-- A byte is always aligned (R55). -/
theorem badAddress_byte_iff_of_userMode :
    (s.params.guardKernel = true ∧ x.msb = true) ↔ s.BadAddress x 1 := by
  simp [State.BadAddress, kernelOnly_iff_of_userMode hu, Nat.mod_one]

theorem kernelOnly_eq_false_of_userMode (hk : ¬(s.params.guardKernel = true ∧ x.msb = true)) :
    s.kernelOnly x = false := by
  rwa [← Bool.not_eq_true, kernelOnly_iff_of_userMode hu]

end

/-- Settles O46: the rules of the loads, the stores and the fetch hold for any order and any address that is bad; here
both are those of user mode. -/
theorem userModeAccesses : Obligations.UserModeAccesses := by
  intro rt rs imm s hu a e kernel
  have he : s.order = e := order_of_userMode hu
  clear_value e
  subst he
  refine ⟨loadRule_lw (badAddress_iff_of_userMode hu), loadRule_lh (badAddress_iff_of_userMode hu),
    loadRule_lhu (badAddress_iff_of_userMode hu), loadRule_lb (badAddress_byte_iff_of_userMode hu),
    loadRule_lbu (badAddress_byte_iff_of_userMode hu), storeRule_sw (badAddress_iff_of_userMode hu),
    storeRule_sh (badAddress_iff_of_userMode hu), storeRule_sb (badAddress_byte_iff_of_userMode hu), fun hr hi => ?_⟩
  refine ⟨fun hbad => ?_, fun ha hk hm => ?_, fun ha hk hall hs hm => ?_, fun ha hk hall hs => ?_⟩
  · have hcheck : aligned s.pc 4 = false ∨ s.kernelOnly s.pc = true := by
      simpa [aligned, State.BadAddress] using (badAddress_iff_of_userMode hu).1 hbad
    exact step_raises_of_fetchExc hr hi (fetchExc_addressError hcheck)
  all_goals have hreach := kernelOnly_eq_false_of_userMode hu hk
  · exact step_raises_of_fetchExc hr hi (fetchExc_busError (aligned_iff.2 ha) hreach hm)
  · exact step_raises_of_fetchExc hr hi (fetchExc_outsideText (aligned_iff.2 ha) hreach hall hs hm)
  · have hword : s.fetched = wordAt s.order s s.pc := ofNat_readNum_four s s.pc
    refine ⟨hword, ?_⟩
    rw [← hword]
    exact step_of_fetchExc_none hr hi (fetchExc_none_of_allBytes (aligned_iff.2 ha) hreach hall hs)

/-! ### The faults of a step (R231; logs 11, 20) -/

/-- Under r3000 a cause without a code ends the run as with `TRAP_MODEL = fault` (log 11). -/
theorem raise_r3000_none (hm : s.params.trapModel = .r3000) (hc : excCode e = none) :
    raise e s = .fault (.raised e s.pc) := by
  simp [raise, hm, hc]

/-- If the outcome is a fault, it names this `pc` and a cause, or it is service 4's own. -/
def FaultsHere (s : State) (o : Outcome) : Prop :=
  ∀ f, o = .fault f → (∃ e, f = .raised e s.pc) ∨ f = .endlessString (s.reg 4) s.pc

theorem faultsHere_next (h : o = .next t) : FaultsHere s o := fun f hf => by rw [h] at hf; cases hf

theorem faultsHere_raise (e : Exc) (s : State) : FaultsHere s (raise e s) := by
  intro f hf
  obtain ⟨c, -, -, hnext⟩ | hfault := raise_cases e s
  · rw [hnext] at hf; cases hf
  · rw [hfault] at hf; cases hf; exact .inl ⟨e, rfl⟩

theorem faultsHere_finishUnless (q : Bool) (r : Reg) (v : Word) (s : State) : FaultsHere s (finishUnless q r v s) := by
  cases q with
  | true => exact faultsHere_raise .overflow s
  | false => exact faultsHere_next rfl

theorem faultsHere_load (r : Reg) (a : Word) (n : Nat) (widen : Nat → Word) (s : State) :
    FaultsHere s (load r a n widen s) := by
  unfold load
  split
  · exact faultsHere_raise _ s
  · exact faultsHere_next rfl

theorem faultsHere_store (a : Word) (n : Nat) (v : Word) (s : State) : FaultsHere s (store a n v s) := by
  unfold store
  split
  · exact faultsHere_raise _ s
  · exact faultsHere_next rfl

/-- The one service that can fault without raising: a string without an end (log 20). -/
theorem faultsHere_servePrintString (s : State) : FaultsHere s (servePrintString s) := by
  unfold servePrintString
  split
  · exact faultsHere_next rfl
  · exact faultsHere_raise _ s
  · intro f hf; cases hf; exact .inr rfl

theorem faultsHere_serveReadString (s : State) : FaultsHere s (serveReadString s) := by
  cases hb : s.bufferExc (s.reg 4) (s.reg 5).toNat with
  | some e => rw [serveReadString_of_bufferExc_some hb]; exact faultsHere_raise e s
  | none => exact faultsHere_next (serveReadString_of_bufferExc_none hb)

theorem faultsHere_serve (s : State) : FaultsHere s (serve s) := by
  unfold serve
  split
  · exact faultsHere_next rfl
  · exact faultsHere_servePrintString s
  · exact faultsHere_next rfl
  · exact faultsHere_serveReadString s
  · exact faultsHere_next rfl
  · exact faultsHere_raise _ s

/-- The instructions shown by `faultsHere_next` always complete; the others have a check or a choice in them. -/
theorem faultsHere_exec (i : Instr) (s : State) : FaultsHere s (exec i s) := by
  cases i with
  | mfhi | mflo | mthi | mtlo | lui => exact faultsHere_next rfl
  | beq | bne | bgez | bgtz | blez | bltz | bgezal | bltzal | j | jal | jr | jalr => exact faultsHere_next rfl
  | addu | subu | addiu | mult | multu => exact faultsHere_next rfl
  | or | and | xor | nor | ori | andi | xori => exact faultsHere_next rfl
  | sllv | srlv | srav | sll | srl | sra => exact faultsHere_next rfl
  | slt | sltu | slti | sltiu => exact faultsHere_next rfl
  | lw | lh | lhu | lb | lbu =>
    simp only [exec, execLw, execLh, execLhu, execLb, execLbu]
    exact faultsHere_load _ _ _ _ s
  | sw | sh | sb => exact faultsHere_store _ _ _ s
  | add | sub | addi => exact faultsHere_finishUnless _ _ _ s
  | div | divu =>
    simp only [exec, execDiv, execDivu]
    split_ifs <;> exact faultsHere_next rfl
  | syscall =>
    simp only [exec, execSyscall]
    split
    · exact faultsHere_serve s
    · exact faultsHere_raise .sys s
  | brk => exact faultsHere_raise .breakpoint s
  | rfe =>
    simp only [exec, execRfe]
    split
    · exact faultsHere_raise _ s
    · split_ifs
      · exact faultsHere_next rfl
      · exact faultsHere_raise _ s

theorem faultsHere_execCp0Move (m : Cp0Move) (s : State) : FaultsHere s (execCp0Move m s) := by
  unfold execCp0Move
  split_ifs
  · cases m with
    | mfc0 | mtc0 => exact faultsHere_next rfl
  · exact faultsHere_raise _ s

theorem faultsHere_execReserved (w : Word) (s : State) : FaultsHere s (execReserved w s) := by
  unfold execReserved
  split
  · exact faultsHere_execCp0Move _ s
  · exact faultsHere_raise _ s

theorem faultsHere_runWord (w : Word) (s : State) : FaultsHere s (runWord w s) := by
  unfold runWord
  split
  · exact faultsHere_exec _ s
  · exact faultsHere_execReserved w s

theorem faultsHere_step (s : State) : FaultsHere s (step s) := by
  unfold step
  split
  · intro f hf; cases hf
  · intro f hf; cases hf
  · split_ifs
    · exact faultsHere_raise .interrupt s
    · split
      · exact faultsHere_raise _ s
      · exact faultsHere_runWord _ s

/-- A step that faults leaves the state of R231. -/
theorem follow_of_fault (h : step s = .fault f) : s.follow = s.afterFault f := by
  simp [State.follow, h]

/-- A run that has faulted stays where it is. -/
theorem follow_of_faulted (h : s.status = .faulted f) : s.follow = s := by
  simp [State.follow, step, h]

/-- Settles O8: `raise` by the trap model, and the state after a fault by its equation. -/
theorem faultOutcome : Obligations.FaultOutcome := by
  refine ⟨fun e s hm => raise_fault e hm, fun e s hm hc => raise_r3000_none hm hc, fun s f h => ?_⟩
  rw [follow_of_fault h]
  exact ⟨faultsHere_step s f h, rfl, rfl, fun _ => rfl, ⟨rfl, rfl⟩, rfl, rfl, rfl, rfl,
    after_of_follow_eq (follow_of_faulted rfl)⟩

/-! ### Codes and entry (R251, R252) -/

/-- Settles O21: `raise` enters the trap, and the entry leaves what R252 lists. -/
theorem trapEntry : Obligations.TrapEntry := fun _ _ _ hm hc => nextIs_trapTaken hm hc

/-- No cause has a TLB code or a reserved one (R251). -/
theorem excCode_ne_tlb_or_reserved (hc : excCode e = some c) :
    c ≠ 1 ∧ c ≠ 2 ∧ c ≠ 3 ∧ ¬(13 ≤ c.toNat ∧ c.toNat ≤ 31) := by
  cases e with
  | busErrorStore | fetchOutsideText | storeToText | unknownService => cases hc
  | _ => cases hc; decide

/-- Settles O22: the codes are the table's. -/
theorem exceptionCodes : Obligations.ExceptionCodes :=
  ⟨fun _ => ⟨rfl, rfl, rfl, rfl, rfl, rfl, rfl, rfl, rfl, rfl⟩, fun _ => rfl, rfl, rfl, rfl, rfl,
    fun _ _ => excCode_ne_tlb_or_reserved⟩

theorem execSyscall_r3000 (hm : s.params.trapModel = .r3000) : execSyscall s = raise .sys s := by
  simp [execSyscall, hm]

/-- Settles O28: the exception of `syscall` has a code, so it is the entry. -/
theorem syscallTrapsUnderR3000 : Obligations.SyscallTrapsUnderR3000 := by
  intro s hm
  have hexec : exec .syscall s = raise .sys s := execSyscall_r3000 hm
  rw [hexec]
  exact nextIs_trapTaken hm rfl

/-! ### Interrupts (R253) -/

/-- The pending bits as software reads them: the six lines above the two software bits (R248). -/
theorem causeView_pending (s : State) : s.causeView.extractLsb' 8 8 = s.irq ++ s.cp0.cause.extractLsb' 8 2 := by
  apply BitVec.eq_of_toNat_eq
  simp only [State.causeView, toNat_extract_eq, toNat_append_eq]
  have := s.irq.isLt
  omega

theorem interruptDue_iff : s.interruptDue = true ↔
    s.params.trapModel = .r3000 ∧ s.cp0.sr.getLsbD 0 = true
      ∧ (s.irq ++ s.cp0.cause.extractLsb' 8 2) &&& s.cp0.sr.extractLsb' 8 8 ≠ 0 := by
  simp [State.interruptDue, causeView_pending, and_assoc]

/-- An interrupt that is due comes before the fetch (log 17). -/
theorem step_of_interruptDue (hr : s.status = .running) (hi : s.interruptDue = true) : step s = raise .interrupt s := by
  simp [step, hr, hi]

/-- Settles O24: the interrupt is an exception of code 0. -/
theorem interruptTaken : Obligations.InterruptTaken := by
  refine ⟨fun s => interruptDue_iff, fun s hr hi => ?_⟩
  obtain ⟨hm, -, -⟩ := interruptDue_iff.1 hi
  rw [step_of_interruptDue hr hi]
  exact nextIs_trapTaken hm rfl

/-! ### An entry and its return (R252, R254) -/

/-- Two pairs of the mode stack are the four bits that hold them. -/
theorem extract_four_eq_of_pairs {x y : Word} (hlow : x.extractLsb' 0 2 = y.extractLsb' 0 2)
    (hhigh : x.extractLsb' 2 2 = y.extractLsb' 2 2) : x.extractLsb' 0 4 = y.extractLsb' 0 4 := by
  simp only [← BitVec.toNat_inj, toNat_extract_eq] at hlow hhigh ⊢
  omega

/-- The mode stack pushed and popped: the two younger pairs are back, the oldest is lost (R252, R254). -/
theorem popMode_pushMode_fields (sr : Word) :
    (popMode (pushMode sr)).extractLsb' 0 4 = sr.extractLsb' 0 4
      ∧ (popMode (pushMode sr)).extractLsb' 4 2 = sr.extractLsb' 2 2
      ∧ (popMode (pushMode sr)).extractLsb' 6 26 = sr.extractLsb' 6 26 := by
  obtain ⟨-, hprevious, hold, habove⟩ := pushMode_fields sr
  obtain ⟨hcurrent', hprevious', hold', habove'⟩ := popMode_fields (pushMode sr)
  exact ⟨extract_four_eq_of_pairs (hcurrent'.trans hprevious) (hprevious'.trans hold), hold'.trans hold,
    habove'.trans habove⟩

/-- An entry leaves kernel mode, where coprocessor 0 is usable (R246, R252). -/
theorem cp0Usable_enterTrap (e : Exc) (c : BitVec 5) (s : State) : (s.enterTrap e c).cp0Usable = true := by
  refine cp0Usable_iff.2 (.inl ?_)
  simp only [enterTrap_cp0_sr, pushMode, BitVec.getLsbD_append]
  rfl

/-- Settles O23: the entry leaves `rfe` usable, and `rfe` pops what the entry pushed. -/
theorem trapThenReturn : Obligations.TrapThenReturn := by
  intro e s t hm h
  obtain ⟨-, c, -, rfl⟩ := raise_next h
  obtain ⟨hyounger, hlost, habove⟩ := popMode_pushMode_fields s.cp0.sr
  exact ⟨_, execRfe_usable hm (cp0Usable_enterTrap e c s), hyounger, hlost, habove, rfl, rfl⟩

/-! ### The words of `mfc0` and `mtc0` (R246) -/

/-- The word of opcode COPRO with `sub` in the `rs` field and zeros below bit 11. -/
def cp0Word (sub rt rd : Reg) : Word := 0b010000#6 ++ regBits sub ++ regBits rt ++ regBits rd ++ 0#11

section
variable (sub rt rd : Reg)

theorem cp0Word_toNat : (cp0Word sub rt rd).toNat
    = 16 * 2 ^ 26 + sub.val * 2 ^ 21 + rt.val * 2 ^ 16 + rd.val * 2 ^ 11 := by
  simp only [cp0Word, toNat_append_eq, regBits_toNat, BitVec.reduceToNat]
  omega

theorem cp0Word_eq_packI : cp0Word sub rt rd = packI 0b010000 sub rt (regBits rd ++ 0#11) := by
  apply BitVec.eq_of_toNat_eq
  rw [cp0Word_toNat, packI_toNat, toNat_append_eq, regBits_toNat]
  simp only [BitVec.reduceToNat]
  omega

theorem opField_cp0Word : opField (cp0Word sub rt rd) = 0b010000 := by rw [cp0Word_eq_packI, packI_op]

theorem rdField_cp0Word : rdField (cp0Word sub rt rd) = rd := by
  apply Fin.ext
  rw [rdField_val, cp0Word_toNat]
  omega

theorem low_cp0Word : (cp0Word sub rt rd).extractLsb' 0 11 = 0#11 := by
  apply BitVec.eq_of_toNat_eq
  rw [toNat_extract_eq, cp0Word_toNat]
  simp only [BitVec.reduceToNat]
  omega

/-- No such word is an instruction of the table: it is not that of `rfe` (R221). -/
theorem decode_cp0Word : decode (cp0Word sub rt rd) = .reserved .coproWord := by
  refine (decode_of_copro (opField_cp0Word sub rt rd)).trans (if_neg fun h => ?_)
  have hlow := low_cp0Word sub rt rd
  rw [h] at hlow
  exact absurd hlow (by decide)

theorem decodeCp0_cp0Word : decodeCp0 (cp0Word sub rt rd)
    = if sub = 0b00000 then some (.mfc0 rt rd) else if sub = 0b00100 then some (.mtc0 rt rd) else none := by
  have hrs : rsField (cp0Word sub rt rd) = sub := by rw [cp0Word_eq_packI, packI_rs]
  have hrt : rtField (cp0Word sub rt rd) = rt := by rw [cp0Word_eq_packI, packI_rt]
  rw [decodeCp0, if_pos ⟨by rw [opField_cp0Word]; rfl, low_cp0Word sub rt rd⟩, hrs, hrt, rdField_cp0Word]

end

/-- Under r3000 a word that is a coprocessor 0 move is executed as that move (R246; log 9). -/
theorem runWord_cp0Word {sub rt rd : Reg} {m : Cp0Move} (hm : s.params.trapModel = .r3000)
    (hd : decodeCp0 (cp0Word sub rt rd) = some m) : runWord (cp0Word sub rt rd) s = execCp0Move m s := by
  rw [runWord_of_reserved (decode_cp0Word sub rt rd), execReserved, hm, hd]

theorem runWord_mfc0 (rt rd : Reg) (hm : s.params.trapModel = .r3000) :
    runWord (cp0Word 0b00000 rt rd) s = execCp0Move (.mfc0 rt rd) s :=
  runWord_cp0Word hm (decodeCp0_cp0Word _ rt rd)

theorem runWord_mtc0 (rt rd : Reg) (hm : s.params.trapModel = .r3000) :
    runWord (cp0Word 0b00100 rt rd) s = execCp0Move (.mtc0 rt rd) s :=
  runWord_cp0Word hm (decodeCp0_cp0Word _ rt rd)

/-! ### What the moves do (R246 to R249) -/

theorem execCp0Move_unusable (hu : s.cp0Usable = false) (m : Cp0Move) :
    execCp0Move m s = raise (.coprocessorUnusable 0) s := by
  simp [execCp0Move, hu]

/-- The state that `mfc0` leaves: a register the spec does not describe takes a draw (log 13). -/
def State.movedFrom (s : State) (rt rd : Reg) : State :=
  ((if cp0Described rd then s else s.skipDraws 1).setReg rt (s.readCp0 rd)).advance

/-- The state that `mtc0` leaves. -/
def State.movedTo (s : State) (rt rd : Reg) : State := (s.writeCp0 rd (s.reg rt)).advance

theorem execCp0Move_mfc0 (hu : s.cp0Usable = true) (rt rd : Reg) :
    execCp0Move (.mfc0 rt rd) s = .next (s.movedFrom rt rd) := by
  simp only [execCp0Move, hu, if_true]
  rfl

theorem execCp0Move_mtc0 (hu : s.cp0Usable = true) (rt rd : Reg) :
    execCp0Move (.mtc0 rt rd) s = .next (s.movedTo rt rd) := by
  simp only [execCp0Move, hu, if_true]
  rfl

/-- A described register is read into `rt`, and nothing else changes but `pc`. -/
theorem writesReg_movedFrom {rd : Reg} (hd : cp0Described rd = true) (rt : Reg) :
    WritesReg rt (s.readCp0 rd) s (s.movedFrom rt rd) := by
  rw [State.movedFrom, if_pos hd]
  exact writesReg_setPc rt (s.readCp0 rd) _ s

/-- Whatever register is read, only `rt`, `pc` and the count of draws can change. -/
theorem movedFrom_frame (s : State) (rt rd : Reg) :
    let t := s.movedFrom rt rd
    t.pc = s.pc + 4 ∧ SameFixed s t ∧ t.out = s.out ∧ t.input = s.input ∧ t.status = s.status
      ∧ (∀ q, q ≠ rt → t.reg q = s.reg q) ∧ SameHiLo s t ∧ SameMem s t := by
  unfold State.movedFrom
  cases cp0Described rd with
  | true | false =>
    exact ⟨rfl, ⟨rfl, rfl, rfl, rfl, rfl⟩, rfl, rfl, rfl, fun q hq => setReg_reg_ne _ hq _, ⟨rfl, rfl⟩, fun _ => rfl⟩

section
variable (s : State) (rd : Reg) (v : Word)

theorem writeCp0_cp0 : (s.writeCp0 rd v).cp0 =
    { s.cp0 with
      sr := if rd = 12 then v &&& statusMask else s.cp0.sr
      cause := if rd = 13 then s.cp0.cause.extractLsb' 10 22 ++ v.extractLsb' 8 2 ++ s.cp0.cause.extractLsb' 0 8
        else s.cp0.cause } := by
  unfold State.writeCp0
  by_cases h12 : rd = 12
  · subst h12; rfl
  · by_cases h13 : rd = 13
    · subst h13; rfl
    · simp only [if_neg h12, if_neg h13]

/-- A write to coprocessor 0 is one to nothing else. -/
theorem writeCp0_eq : s.writeCp0 rd v = { s with cp0 := (s.writeCp0 rd v).cp0 } := by
  unfold State.writeCp0
  split
  · rfl
  · split <;> rfl

end

/-- The write of `Cause` puts the two software bits in and leaves the fields around them (R248). -/
theorem softIP_fields (cause : Word) (soft : BitVec 2) :
    let written : Word := cause.extractLsb' 10 22 ++ soft ++ cause.extractLsb' 0 8
    written.extractLsb' 8 2 = soft ∧ written.extractLsb' 0 8 = cause.extractLsb' 0 8
      ∧ written.extractLsb' 10 22 = cause.extractLsb' 10 22 := by
  have hsoft := soft.isLt
  and_intros <;> apply BitVec.eq_of_toNat_eq <;> simp only [toNat_extract_eq, toNat_append_eq] <;> omega

/-- `mtc0` changes no general register, `HI`, `LO` or byte of memory, nothing that is fixed for a run, and nothing of the
environment's. -/
theorem movedTo_frame (s : State) (rt rd : Reg) :
    let t := s.movedTo rt rd
    t.pc = s.pc + 4 ∧ SameRegs s t ∧ SameHiLo s t ∧ SameMem s t ∧ SameSetup s t ∧ SameEnv s t := by
  unfold State.movedTo
  rw [writeCp0_eq]
  exact ⟨rfl, fun _ => rfl, ⟨rfl, rfl⟩, fun _ => rfl, ⟨rfl, rfl, rfl, rfl⟩, ⟨rfl, rfl, rfl⟩⟩

/-- What `mtc0` makes of the coprocessor 0 registers (R246 to R249; log 26). -/
theorem movedTo_cp0 (s : State) (rt rd : Reg) : (s.movedTo rt rd).cp0 =
    { s.cp0 with
      sr := if rd = 12 then s.reg rt &&& statusMask else s.cp0.sr
      cause := if rd = 13 then s.cp0.cause.extractLsb' 10 22 ++ (s.reg rt).extractLsb' 8 2 ++ s.cp0.cause.extractLsb' 0 8
        else s.cp0.cause } :=
  writeCp0_cp0 s rd (s.reg rt)

theorem movedTo_cause (s : State) (rt rd : Reg) :
    let t := s.movedTo rt rd
    (rd = 13 → t.cp0.cause.extractLsb' 8 2 = (s.reg rt).extractLsb' 8 2)
      ∧ t.cp0.cause.extractLsb' 0 8 = s.cp0.cause.extractLsb' 0 8
      ∧ t.cp0.cause.extractLsb' 10 22 = s.cp0.cause.extractLsb' 10 22
      ∧ (rd ≠ 13 → t.cp0.cause = s.cp0.cause) := by
  simp only [movedTo_cp0]
  by_cases h13 : rd = 13
  · obtain ⟨hsoft, hlow, hhigh⟩ := softIP_fields s.cp0.cause ((s.reg rt).extractLsb' 8 2)
    simp only [if_pos h13]
    exact ⟨fun _ => hsoft, hlow, hhigh, fun hne => absurd h13 hne⟩
  · simp [h13]

/-- Settles O25: the two words are the two moves, and each move is refused or leaves its state. -/
theorem cp0Moves : Obligations.Cp0Moves := by
  intro rt rd s hm from0 to0
  have hfrom : runWord from0 s = execCp0Move (.mfc0 rt rd) s := runWord_mfc0 rt rd hm
  have hto : runWord to0 s = execCp0Move (.mtc0 rt rd) s := runWord_mtc0 rt rd hm
  refine ⟨cp0Usable_iff, fun hu => ⟨?_, ?_⟩, fun hu => ⟨?_, ?_⟩⟩
  · exact raises_of_eq (hfrom.trans (execCp0Move_unusable hu _))
  · exact raises_of_eq (hto.trans (execCp0Move_unusable hu _))
  · obtain ⟨hpc, hfixed, hout, hin, hstatus, hothers, hhilo, hmem⟩ := movedFrom_frame s rt rd
    have hread : ∀ (d : Reg) (v : Word), cp0Described d = true → s.readCp0 d = v → rd = d →
        WritesReg rt v s (s.movedFrom rt rd) := by
      rintro d v hd rfl rfl; exact writesReg_movedFrom hd rt
    exact ⟨s.movedFrom rt rd, hfrom.trans (execCp0Move_mfc0 hu rt rd), hpc, hfixed, hout, hin, hstatus,
      hread 8 _ rfl rfl, hread 12 _ rfl rfl, hread 13 _ rfl rfl, hread 14 _ rfl rfl, hothers, hhilo, hmem⟩
  · obtain ⟨hpc, hregs, hhilo, hmem, ⟨hparams, htext, hdata, hirq⟩, henv⟩ := movedTo_frame s rt rd
    obtain ⟨hsoft, hlow, hhigh, hkeep⟩ := movedTo_cause s rt rd
    have hcp0 := movedTo_cp0 s rt rd
    exact ⟨s.movedTo rt rd, hto.trans (execCp0Move_mtc0 hu rt rd), hpc, hregs, hhilo, hmem, by rw [hcp0], by rw [hcp0],
      by rw [hcp0]; rfl, hsoft, hlow, hhigh, hkeep, hparams, htext, hdata, hirq, henv⟩

end Sys2Proof.Machine
end

section
/-! # Loader: a program of instructions under `.text`

The words that the loader makes of a list of instructions, and that a step at each one runs it
(spec/70_reset_and_hazards.md R260, R261). Placing is followed statement by statement; the launch then holds the words
(O59's lemmas), and the fetch reads them (O7). -/

namespace Sys2Proof.Machine

variable {t u : Placing} {i : Instr} {is : List Instr} {a base size N : Nat}

/-! ### Ranges of an image -/

theorem regionHolds_iff {x : Word} :
    regionHolds ⟨base, size⟩ x = true ↔ base ≤ x.toNat ∧ x.toNat < base + size := by
  simp [regionHolds]

theorem regionHolds_empty (base : Nat) (x : Word) : regionHolds ⟨base, 0⟩ x = false := by
  simp [regionHolds]

/-- A range is its first addresses and the rest. -/
theorem regionHolds_split (base m n : Nat) (x : Word) :
    regionHolds ⟨base, m + n⟩ x = (regionHolds ⟨base, m⟩ x || regionHolds ⟨base + m, n⟩ x) := by
  rw [Bool.eq_iff_iff, Bool.or_eq_true]
  simp only [regionHolds_iff]
  omega

/-- A range that is added covers its own addresses; no other address is gained or lost. -/
theorem addRange_holds (base size : Nat) (rs : List Region) (x : Word) :
    (addRange base size rs).any (regionHolds · x) = (regionHolds ⟨base, size⟩ x || rs.any (regionHolds · x)) := by
  cases rs with
  | nil => rfl
  | cons r rs =>
    rw [addRange]
    split
    next hjoin =>
      rw [List.any_cons, List.any_cons, regionHolds_split, hjoin, Bool.or_left_comm, Bool.or_assoc]
    next => rfl

/-- An image that ends at or below `N` still does, if the range that is added does. -/
theorem addRange_fits {rs : List Region} (hrs : ∀ r ∈ rs, r.base + r.size ≤ N) (hnew : base + size ≤ N) :
    ∀ r ∈ addRange base size rs, r.base + r.size ≤ N := by
  cases rs with
  | nil => simpa [addRange] using hnew
  | cons r rs =>
    obtain ⟨hr, hrest⟩ := List.forall_mem_cons.1 hrs
    rw [addRange]
    split
    next hjoin => exact List.forall_mem_cons.2 ⟨show r.base + (r.size + size) ≤ N by omega, hrest⟩
    next => exact List.forall_mem_cons.2 ⟨hnew, hrs⟩

/-! ### Instructions at consecutive words -/

/-- A list of instructions as `Placing.code` holds it, in program order: one word each, from `a` up. -/
def placedFrom (a : Nat) (is : List Instr) : List (Nat × Instr × Option String) :=
  is.mapIdx fun k i => (a + 4 * k, i, none)

/-- The words of a list of instructions, each with its address, from `a` up. -/
def wordsFrom (a : Nat) (is : List Instr) : List (Nat × Word) := is.mapIdx fun k i => (a + 4 * k, encode i)

theorem placedFrom_cons (a : Nat) (i : Instr) (is : List Instr) :
    placedFrom a (i :: is) = (a, i, none) :: placedFrom (a + 4) is := by
  simp [placedFrom, List.mapIdx_cons, Nat.mul_add, Nat.add_assoc, Nat.add_comm 4]

theorem wordsFrom_cons (a : Nat) (i : Instr) (is : List Instr) :
    wordsFrom a (i :: is) = (a, encode i) :: wordsFrom (a + 4) is := by
  simp [wordsFrom, List.mapIdx_cons, Nat.mul_add, Nat.add_assoc, Nat.add_comm 4]

/-- Without a label to fill in, the word of a placed instruction is its encoding. -/
theorem mapM_placedWord (labels : List (String × Nat)) (a : Nat) (is : List Instr) :
    (placedFrom a is).mapM (placedWord labels) = some (wordsFrom a is) := by
  induction is generalizing a with
  | nil => rfl
  | cons i is ih => simp [placedFrom_cons, wordsFrom_cons, ih, placedWord]

theorem mem_wordsFrom {k : Nat} (h : is[k]? = some i) : (a + 4 * k, encode i) ∈ wordsFrom a is := by
  obtain ⟨hk, rfl⟩ := List.getElem?_eq_some_iff.1 h
  exact List.mem_mapIdx.2 ⟨k, hk, rfl⟩

theorem wordsFrom_noOverlap (a : Nat) (is : List Instr) (text : List Region) :
    NoOverlap ⟨wordsFrom a is, [], text, []⟩ := by
  refine ⟨List.pairwise_iff_getElem.2 fun j k hj hk hjk => .inl ?_, .nil, by simp⟩
  simp only [wordsFrom, List.getElem_mapIdx]
  omega

/-! ### Placing a list of instructions -/

/-- `u` is `t` with the instructions placed at its text counter: the code has them, the data is as it was, and the text
image has their words. -/
structure Placing.Adds (is : List Instr) (t u : Placing) : Prop where
  code : u.code.reverse = t.code.reverse ++ placedFrom t.textLoc is
  bytes : u.bytes = t.bytes
  data : u.data = t.data
  text : ∀ x, u.text.any (regionHolds · x) = (regionHolds ⟨t.textLoc, 4 * is.length⟩ x || t.text.any (regionHolds · x))
  fits : (∀ r ∈ t.text, r.base + r.size ≤ 2 ^ 32) → t.textLoc + 4 * is.length ≤ 2 ^ 32 →
    ∀ r ∈ u.text, r.base + r.size ≤ 2 ^ 32

/-- The placing that `putInstr` answers where it does not refuse. -/
def Placing.withInstr (t : Placing) (i : Instr) : Placing :=
  { t.bind t.textLoc with
    code := (t.textLoc, i, none) :: t.code
    text := addRange t.textLoc 4 t.text
    textLoc := t.textLoc + 4 }

theorem putInstr_eq_withInstr (hseg : t.seg = some .text) (hal : t.textLoc % 4 = 0) (hi : i.wf = true) :
    t.putInstr i none = some (t.withInstr i) :=
  if_pos ⟨hseg, hi, hal⟩

theorem Placing.adds_nil (t : Placing) (at_ : Nat) : Placing.Adds [] t (t.bind at_) where
  code := by simp [placedFrom, Placing.bind]
  bytes := rfl
  data := rfl
  text x := by
    rw [List.length_nil, Nat.mul_zero, regionHolds_empty]
    rfl
  fits h _ := h

/-- The first instruction, then the rest behind it. -/
theorem Placing.Adds.cons (h : Placing.Adds is (t.withInstr i) u) : Placing.Adds (i :: is) t u where
  code := by simp [h.code, placedFrom_cons, Placing.withInstr]
  bytes := h.bytes
  data := h.data
  text x := by
    have hlen : 4 * (i :: is).length = 4 + 4 * is.length := by rw [List.length_cons]; omega
    rw [h.text, hlen, regionHolds_split, Bool.or_assoc, Bool.or_left_comm]
    exact congrArg _ (addRange_holds ..)
  fits ht hfit := by
    rw [List.length_cons] at hfit
    exact h.fits (addRange_fits ht (by omega)) (show t.textLoc + 4 + 4 * is.length ≤ 2 ^ 32 by omega)

/-- Well-formed instructions are all accepted in the text segment, from an aligned counter on (R261). -/
theorem stmts_instrs (p : Params) (hwf : ∀ i ∈ is, i.wf = true) (hseg : t.seg = some .text) (hal : t.textLoc % 4 = 0) :
    ∃ u, t.stmts p (is.map .instr) = some u ∧ Placing.Adds is t u := by
  induction is generalizing t with
  | nil => exact ⟨_, rfl, t.adds_nil _⟩
  | cons i is ih =>
    obtain ⟨hi, his⟩ := List.forall_mem_cons.1 hwf
    obtain ⟨u, hu, hadds⟩ := ih (t := t.withInstr i) his hseg (show (t.textLoc + 4) % 4 = 0 by omega)
    have hput : t.stmt p (.instr i) = some (t.withInstr i) := putInstr_eq_withInstr hseg hal hi
    exact ⟨u, by rw [List.map_cons, Placing.stmts, hput]; exact hu, hadds.cons⟩

/-- What the loader makes of the program: its words from `TEXT_BASE` up, no data, and a text image of those words. -/
theorem assemble_instrs {p : Params} (hwf : ∀ i ∈ is, i.wf = true) (hal : p.textBase.toNat % 4 = 0)
    (hfit : p.textBase.toNat + 4 * is.length ≤ 2 ^ 32) :
    ∃ text, assemble p (.text none :: is.map .instr) = some ⟨wordsFrom p.textBase.toNat is, [], text, []⟩
      ∧ ∀ x, text.any (regionHolds · x) = regionHolds ⟨p.textBase.toNat, 4 * is.length⟩ x := by
  obtain ⟨u, hu, hadds⟩ := stmts_instrs (t := { Placing.start p with seg := some .text }) p hwf rfl hal
  have hstmts : (Placing.start p).stmts p (.text none :: is.map .instr) = some u := hu
  have hcode : u.code.reverse = placedFrom p.textBase.toNat is := hadds.code
  have hbytes : u.bytes = [] := hadds.bytes
  have hdata : u.data = [] := hadds.data
  have htext : ∀ r ∈ u.text, r.base + r.size ≤ 2 ^ 32 := hadds.fits (by simp [Placing.start]) hfit
  refine ⟨u.text, ?_, fun x => (hadds.text x).trans (Bool.or_false _)⟩
  have htextAll : u.text.all (fun r => r.base + r.size ≤ 2 ^ 32) = true := by simpa using htext
  have hdataAll : u.data.all (fun r => r.base + r.size ≤ 2 ^ 32) = true := by rw [hdata]; rfl
  rw [assemble, hstmts, Option.bind_some, if_pos ⟨htextAll, hdataAll⟩, hcode, mapM_placedWord, Option.map_some, hbytes,
    hdata]
  rfl

/-! ### The launched program -/

/-- The launch is in kernel mode with interrupts off, wherever `pc` is put (log 19). -/
theorem launch_not_userMode (p : Params) (img : Image) (d : LaunchDraws) (v : Word) :
    ((launch p img d).setPc v).userMode = false := by
  have hku : resetCp0.sr.getLsbD 1 = false := by decide
  rw [State.userMode, setPc_cp0, launch, hku, Bool.and_false]

theorem launch_not_interruptDue (p : Params) (img : Image) (d : LaunchDraws) (v : Word) :
    ((launch p img d).setPc v).interruptDue = false := by
  have hie : resetCp0.sr.getLsbD 0 = false := by decide
  rw [State.interruptDue, setPc_cp0, launch, hie, Bool.and_false, Bool.false_and]

theorem allocated_of_inText {s : State} {x : Word} (h : s.inText x = true) : s.allocated x = true := by
  simp [State.allocated, h]

theorem toNat_up {b : Word} {k : Nat} (h : b.toNat + k < 2 ^ 32) : (up b k).toNat = b.toNat + k := by
  have := toNat_up_ofNat h
  rwa [BitVec.ofNat_toNat, BitVec.setWidth_eq] at this

theorem wordAt_setPc (e : Endian) (s : State) (v a : Word) : wordAt e (s.setPc v) a = wordAt e s a := by
  cases e with
  | little | big => rfl

/-- The bytes of word `k` lie in a range of more than `k` words. -/
theorem allBytes_word_of_region {b : Word} {n k : Nat} (hk : k < n) (hfit : b.toNat + 4 * n ≤ 2 ^ 32) :
    AllBytes (regionHolds ⟨b.toNat, 4 * n⟩) (up b (4 * k)) 4 := by
  intro j hj
  have hv : (up b (4 * k)).toNat = b.toNat + 4 * k := toNat_up (by omega)
  have hx : (up (up b (4 * k)) j).toNat = b.toNat + 4 * k + j := by rw [toNat_up (by omega), hv]
  exact regionHolds_iff.2 (by omega)

/-- A step of a launch with `pc` at a word of the program, all of it in the text image: the word is fetched and executed
(R58). -/
theorem launch_step_at_code {p : Params} {img : Image} (d : LaunchDraws) (hno : NoOverlap img) {v w : Word}
    (hw : (v.toNat, w) ∈ img.code) (hal : v.toNat % 4 = 0) (hfit : v.toNat + 4 ≤ 2 ^ 32)
    (htext : AllBytes (launch p img d).inText v 4) :
    ((launch p img d).setPc v).fetched = w
      ∧ step ((launch p img d).setPc v) = runWord w ((launch p img d).setPc v) := by
  have huser := launch_not_userMode p img d v
  have hword : wordAt p.endian ((launch p img d).setPc v) v = w := by
    have hlaunch := launch_wordAt (p := p) d hno hw hfit
    rwa [BitVec.ofNat_toNat, BitVec.setWidth_eq, ← wordAt_setPc _ _ v] at hlaunch
  obtain ⟨-, -, -, hfetch⟩ := fetchRule _ rfl (launch_not_interruptDue p img d v) (guarded_of_not_userMode huser)
    (reversed_of_not_userMode huser)
  obtain ⟨hfetched, hstep⟩ := hfetch hal (fun k hk => allocated_of_inText (htext k hk)) fun _ => htext
  exact ⟨hfetched.trans hword, hstep.trans (congrArg (runWord · _) hword)⟩

/-- Settles O60: the loader's image is the words from `TEXT_BASE` up; each is fetched where it stands, and decodes to
the instruction it encodes. -/
theorem loadedInstructionRuns : Obligations.LoadedInstructionRuns := by
  intro p is d hwf hal hfit hentry
  obtain ⟨text, himg, htext⟩ := assemble_instrs hwf hal hfit
  refine ⟨launch p ⟨wordsFrom p.textBase.toNat is, [], text, []⟩ d, by rw [load?, himg]; rfl, hentry, ?_⟩
  intro k i hk
  obtain ⟨hlt, -⟩ := List.getElem?_eq_some_iff.1 hk
  have hv : (up p.textBase (4 * k)).toNat = p.textBase.toNat + 4 * k := toNat_up (by omega)
  have hinText : AllBytes (launch p ⟨wordsFrom p.textBase.toNat is, [], text, []⟩ d).inText (up p.textBase (4 * k)) 4 :=
    fun j hj => (htext _).trans (allBytes_word_of_region hlt hfit j hj)
  obtain ⟨hfetched, hstep⟩ := launch_step_at_code d (wordsFrom_noOverlap _ is text) (hv ▸ mem_wordsFrom hk) (by omega)
    (by omega) hinText
  exact ⟨hfetched, hstep.trans (runWord_of_instr (decode_encode (hwf i (List.mem_of_getElem? hk))))⟩

end Sys2Proof.Machine
end
